-- ==== Sys2Proof/Word.lean ====
section
/-! DEFINITION. The one word of FLISP: the byte. Registers, addresses, operands, memory cells and stack
items are all 8 bits wide (00_scope.md R2, 20_memory.md R43), and arithmetic on them is modulo 256 (R7). -/

namespace Sys2Proof

/-- A byte: register contents, an address, an operand or a memory byte (00_scope.md R2). -/
abbrev Byte := BitVec 8

end Sys2Proof
end

