-- ==== Sys2Proof/Syntax.lean ====
section
/-! DEFINITION. The instructions of FLISP: one constructor for each mnemonic of spec/opcode_table.json, its rows
being the operand forms (30_encoding.md R64, R66, R79). An operand byte is carried as the byte it is: the spec
needs no sign extension anywhere (00_scope.md R7). -/

namespace Sys2Proof

/-- The forms that name a place in memory, by the mode codes of 30_encoding.md R64. -/
inductive MemForm where
  | ab (adr : Byte)   -- `Adr`
  | ns (n : Byte)     -- `n,SP`
  | nx (n : Byte)     -- `n,X`
  | ny (n : Byte)     -- `n,Y`
  | ax                -- `A,X`
  | ay                -- `A,Y`
  | preIncX           -- `,+X`
  | preDecX           -- `,-X`
  | postIncX          -- `,X+`
  | postDecX          -- `,X-`
  | preIncY           -- `,+Y`
  | preDecY           -- `,-Y`
  | postIncY          -- `,Y+`
  | postDecY          -- `,Y-`
  deriving DecidableEq, Repr

/-- A source operand: immediate data, or a place in memory (30_encoding.md R64, R71 to R78). -/
inductive Operand where
  | im (data : Byte)  -- `#Data`
  | mem (m : MemForm)
  deriving DecidableEq, Repr

/-- The instructions (30_encoding.md R66). `off` is the offset byte of a relative form (R73). -/
inductive Instr where
  -- 40_load_store.md R100 to R110
  | lda (o : Operand) | ldx (o : Operand) | ldy (o : Operand) | ldsp (o : Operand)
  | leax (m : MemForm) | leay (m : MemForm) | leasp (m : MemForm)
  | sta (m : MemForm) | stx (m : MemForm) | sty (m : MemForm) | stsp (m : MemForm)
  -- 41_data_movement.md R120 to R131
  | tfrACC | tfrCCA | tfrXY | tfrYX | tfrXSP | tfrSPX | tfrYSP | tfrSPY
  | exgACC | exgXY | exgXSP | exgYSP
  -- 42_flow_control.md R141 to R161
  | jmp (m : MemForm) | jsr (m : MemForm) | bra (off : Byte) | bsr (off : Byte)
  | bmi (off : Byte) | bpl (off : Byte) | beq (off : Byte) | bne (off : Byte)
  | bvs (off : Byte) | bvc (off : Byte) | bcs (off : Byte) | bcc (off : Byte)
  | bhi (off : Byte) | bls (off : Byte) | bgt (off : Byte) | bge (off : Byte)
  | ble (off : Byte) | blt (off : Byte)
  | rts | rti
  -- 43_arithmetic.md R170 to R181
  | adda (o : Operand) | adca (o : Operand) | suba (o : Operand) | sbca (o : Operand)
  | clra | clr (m : MemForm) | nega | neg (m : MemForm)
  | deca | dec (m : MemForm) | inca | inc (m : MemForm)
  -- 44_test.md R190 to R196
  | cmpa (o : Operand) | cmpx (o : Operand) | cmpy (o : Operand) | cmpsp (o : Operand)
  | bita (o : Operand) | tsta | tst (m : MemForm)
  -- 45_logical.md R200 to R206
  | anda (o : Operand) | ora (o : Operand) | eora (o : Operand)
  | andcc (data : Byte) | orcc (data : Byte) | coma | com (m : MemForm)
  -- 46_shift_rotate.md R210 to R219
  | asra | asr (m : MemForm) | lsla | lsl (m : MemForm) | lsra | lsr (m : MemForm)
  | rola | rol (m : MemForm) | rora | ror (m : MemForm)
  -- 47_stack.md R230 to R237
  | psha | pshc | pshx | pshy | pula | pulc | pulx | puly
  -- 48_misc.md R240, R241
  | nop | illegal (opcode : Byte)
  deriving DecidableEq, Repr

end Sys2Proof
end

