-- ==== Sys2Proof/WellFormed.lean ====
section
/-! DEFINITION. Which operand forms each instruction has (30_encoding.md R79), and which opcode bytes are
illegal (R67). A term of `Instr` outside these is no instruction of FLISP. -/

namespace Sys2Proof

/-- ab, ns, nx, ax, ny, ay: the memory forms of STX, STY, STSP, CLR, TST and the read-modify-write
instructions (R79). -/
def MemForm.isPlain : MemForm → Bool
  | .ab _ | .ns _ | .nx _ | .ny _ | .ax | .ay => true
  | _ => false

/-- ab, nx, ax, ny, ay: the forms of JMP and JSR (R79: `JMP n,SP` and `JSR n,SP` do not exist). -/
def MemForm.isTarget : MemForm → Bool
  | .ab _ | .nx _ | .ny _ | .ax | .ay => true
  | _ => false

/-- nx, ns: the forms of LEAX (R79). -/
def MemForm.isLeax : MemForm → Bool
  | .nx _ | .ns _ => true
  | _ => false

/-- ny, ns: the forms of LEAY (R79). -/
def MemForm.isLeay : MemForm → Bool
  | .ny _ | .ns _ => true
  | _ => false

/-- ns, nx, ny: the forms of LEASP (R79). -/
def MemForm.isLeasp : MemForm → Bool
  | .ns _ | .nx _ | .ny _ => true
  | _ => false

/-- im, ab, ns, nx, ny: the forms of the A-operand arithmetic, logic and test instructions and of LDX, LDY,
LDSP (R79). -/
def Operand.isData : Operand → Bool
  | .im _ | .mem (.ab _) | .mem (.ns _) | .mem (.nx _) | .mem (.ny _) => true
  | _ => false

/-- im, ab, ns: the forms of CMPX and CMPY (R79). -/
def Operand.isCmpXY : Operand → Bool
  | .im _ | .mem (.ab _) | .mem (.ns _) => true
  | _ => false

/-- im, ab: the forms of CMPSP (R79). -/
def Operand.isCmpSP : Operand → Bool
  | .im _ | .mem (.ab _) => true
  | _ => false

/-- The six illegal opcodes (30_encoding.md R67, 48_misc.md R241). -/
def illegalOpcodes : List Byte := [0x03, 0x04, 0xDF, 0xE0, 0xEF, 0xFF]

/-- The instruction exists: its form is one that R79 lists for it, and an illegal opcode is one of the six. -/
def Instr.wellFormed : Instr → Bool
  | .lda _ | .sta _ => true
  | .ldx o | .ldy o | .ldsp o => o.isData
  | .adda o | .adca o | .suba o | .sbca o | .cmpa o | .bita o | .anda o | .ora o | .eora o => o.isData
  | .cmpx o | .cmpy o => o.isCmpXY
  | .cmpsp o => o.isCmpSP
  | .leax m => m.isLeax
  | .leay m => m.isLeay
  | .leasp m => m.isLeasp
  | .stx m | .sty m | .stsp m => m.isPlain
  | .clr m | .neg m | .inc m | .dec m | .tst m | .com m => m.isPlain
  | .lsl m | .lsr m | .rol m | .ror m | .asr m => m.isPlain
  | .jmp m | .jsr m => m.isTarget
  | .illegal op => illegalOpcodes.contains op
  | .tfrACC | .tfrCCA | .tfrXY | .tfrYX | .tfrXSP | .tfrSPX | .tfrYSP | .tfrSPY => true
  | .exgACC | .exgXY | .exgXSP | .exgYSP => true
  | .bra _ | .bsr _ | .bmi _ | .bpl _ | .beq _ | .bne _ | .bvs _ | .bvc _ => true
  | .bcs _ | .bcc _ | .bhi _ | .bls _ | .bgt _ | .bge _ | .ble _ | .blt _ => true
  | .rts | .rti | .clra | .nega | .deca | .inca | .tsta | .andcc _ | .orcc _ | .coma => true
  | .asra | .lsla | .lsra | .rola | .rora => true
  | .psha | .pshc | .pshx | .pshy | .pula | .pulc | .pulx | .puly | .nop => true

end Sys2Proof
end

