-- ==== Sys2Proof/Decode.lean ====
section
/-! DEFINITION. Decoding by the opcode map (30_encoding.md R60, R61, R66) and encoding by the opcode column of
each instruction's own table (40_load_store.md to 48_misc.md). The two are written from different places of the
spec. -/

namespace Sys2Proof

/-- What an opcode byte stands for: the opcode alone fixes operation, form and length (R60, R61). -/
inductive Decoded where
  /-- format OP, one byte -/
  | op (i : Instr)
  /-- format OP8, two bytes: the instruction, given its operand byte -/
  | op8 (f : Byte → Instr)

/-! The cells of the opcode map, by mode code (R64). -/

namespace Mode

/-- ih, or an illegal cell: one byte, no operand. -/
def ih (i : Instr) : Decoded := .op i
/-- im on an instruction that has only that form (ANDCC, ORCC), and pc. -/
def byte (f : Byte → Instr) : Decoded := .op8 f
/-- im -/
def im (f : Operand → Instr) : Decoded := .op8 fun d => f (.im d)
/-- ab, ns, nx, ny of a source operand. -/
def rdAb (f : Operand → Instr) : Decoded := .op8 fun b => f (.mem (.ab b))
def rdNs (f : Operand → Instr) : Decoded := .op8 fun b => f (.mem (.ns b))
def rdNx (f : Operand → Instr) : Decoded := .op8 fun b => f (.mem (.nx b))
def rdNy (f : Operand → Instr) : Decoded := .op8 fun b => f (.mem (.ny b))
/-- A one-byte form of a source operand. -/
def rd (f : Operand → Instr) (m : MemForm) : Decoded := .op (f (.mem m))
/-- ab, ns, nx, ny, ax, ay of an instruction that takes a place in memory. -/
def ab (f : MemForm → Instr) : Decoded := .op8 fun b => f (.ab b)
def ns (f : MemForm → Instr) : Decoded := .op8 fun b => f (.ns b)
def nx (f : MemForm → Instr) : Decoded := .op8 fun b => f (.nx b)
def ny (f : MemForm → Instr) : Decoded := .op8 fun b => f (.ny b)
def ax (f : MemForm → Instr) : Decoded := .op (f .ax)
def ay (f : MemForm → Instr) : Decoded := .op (f .ay)
/-- An illegal cell (R67). -/
def ill (op : Byte) : Decoded := .op (.illegal op)

end Mode

open Mode in
/-- The opcode map of R66: sixteen columns, by the high digit, of sixteen cells, by the low digit. -/
def opcodeMap : List (List Decoded) :=
  [ -- 0_
    [ih .nop, byte .andcc, byte .orcc, ill 0x03, ill 0x04, ih .clra, ih .nega, ih .inca,
     ih .deca, ih .tsta, ih .coma, ih .lsla, ih .lsra, ih .rola, ih .rora, ih .asra],
    -- 1_
    [ih .psha, ih .pshx, ih .pshy, ih .pshc, ih .pula, ih .pulx, ih .puly, ih .pulc,
     ih .tfrACC, ih .tfrCCA, ih .tfrXY, ih .tfrYX, ih .tfrXSP, ih .tfrSPX, ih .tfrYSP, ih .tfrSPY],
    -- 2_
    [byte .bsr, byte .bra, byte .bmi, byte .bpl, byte .beq, byte .bne, byte .bvs, byte .bvc,
     byte .bcs, byte .bcc, byte .bhi, byte .bls, byte .bgt, byte .bge, byte .ble, byte .blt],
    -- 3_
    [ab .stx, ab .sty, ab .stsp, ab .jmp, ab .jsr, ab .clr, ab .neg, ab .inc,
     ab .dec, ab .tst, ab .com, ab .lsl, ab .lsr, ab .rol, ab .ror, ab .asr],
    -- 4_
    [ns .stx, ns .sty, ns .stsp, ih .rts, ih .rti, ns .clr, ns .neg, ns .inc,
     ns .dec, ns .tst, ns .com, ns .lsl, ns .lsr, ns .rol, ns .ror, ns .asr],
    -- 5_
    [nx .stx, nx .sty, nx .stsp, nx .jmp, nx .jsr, nx .clr, nx .neg, nx .inc,
     nx .dec, nx .tst, nx .com, nx .lsl, nx .lsr, nx .rol, nx .ror, nx .asr],
    -- 6_
    [ax .stx, ax .sty, ax .stsp, ax .jmp, ax .jsr, ax .clr, ax .neg, ax .inc,
     ax .dec, ax .tst, ax .com, ax .lsl, ax .lsr, ax .rol, ax .ror, ax .asr],
    -- 7_
    [ny .stx, ny .sty, ny .stsp, ny .jmp, ny .jsr, ny .clr, ny .neg, ny .inc,
     ny .dec, ny .tst, ny .com, ny .lsl, ny .lsr, ny .rol, ny .ror, ny .asr],
    -- 8_
    [ay .stx, ay .sty, ay .stsp, ay .jmp, ay .jsr, ay .clr, ay .neg, ay .inc,
     ay .dec, ay .tst, ay .com, ay .lsl, ay .lsr, ay .rol, ay .ror, ay .asr],
    -- 9_
    [im .ldx, im .ldy, im .ldsp, im .sbca, im .suba, im .adca, im .adda, im .cmpa,
     im .bita, im .anda, im .ora, im .eora, im .cmpx, im .cmpy, im .cmpsp, ih .exgACC],
    -- A_
    [rdAb .ldx, rdAb .ldy, rdAb .ldsp, rdAb .sbca, rdAb .suba, rdAb .adca, rdAb .adda, rdAb .cmpa,
     rdAb .bita, rdAb .anda, rdAb .ora, rdAb .eora, rdAb .cmpx, rdAb .cmpy, rdAb .cmpsp, ih .exgXY],
    -- B_
    [rdNs .ldx, rdNs .ldy, rdNs .ldsp, rdNs .sbca, rdNs .suba, rdNs .adca, rdNs .adda, rdNs .cmpa,
     rdNs .bita, rdNs .anda, rdNs .ora, rdNs .eora, rdNs .cmpx, rdNs .cmpy, ns .leasp, ih .exgXSP],
    -- C_
    [rdNx .ldx, rdNx .ldy, rdNx .ldsp, rdNx .sbca, rdNx .suba, rdNx .adca, rdNx .adda, rdNx .cmpa,
     rdNx .bita, rdNx .anda, rdNx .ora, rdNx .eora, nx .leax, ny .leay, nx .leasp, ih .exgYSP],
    -- D_
    [rdNy .ldx, rdNy .ldy, rdNy .ldsp, rdNy .sbca, rdNy .suba, rdNy .adca, rdNy .adda, rdNy .cmpa,
     rdNy .bita, rdNy .anda, rdNy .ora, rdNy .eora, ns .leax, ns .leay, ny .leasp, ill 0xDF],
    -- E_
    [ill 0xE0, ab .sta, ns .sta, nx .sta, ax .sta, ih (.sta .postIncX), ih (.sta .postDecX),
     ih (.sta .preIncX), ih (.sta .preDecX), ny .sta, ay .sta, ih (.sta .postIncY),
     ih (.sta .postDecY), ih (.sta .preIncY), ih (.sta .preDecY), ill 0xEF],
    -- F_
    [im .lda, rdAb .lda, rdNs .lda, rdNx .lda, rd .lda .ax, rd .lda .postIncX, rd .lda .postDecX,
     rd .lda .preIncX, rd .lda .preDecX, rdNy .lda, rd .lda .ay, rd .lda .postIncY,
     rd .lda .postDecY, rd .lda .preIncY, rd .lda .preDecY, ill 0xFF] ]

/-- The cell of the opcode map for an opcode byte (R66). Every byte has one: the default is never reached. -/
def decodeOpcode (op : Byte) : Decoded :=
  (opcodeMap.getD (op.toNat / 16) []).getD (op.toNat % 16) (.op (.illegal op))

/-- Why bytes are not an instruction: they end too early. No byte value is refused (R67). -/
inductive DecodeError where
  /-- There is no opcode byte. -/
  | noOpcode
  /-- The opcode's format is OP8 and there is no operand byte. -/
  | noOperand (opcode : Byte)
  deriving DecidableEq, Repr

/-- The instruction at the head of a list of bytes, and the bytes after it (R61, R62). -/
def decode : List Byte → Except DecodeError (Instr × List Byte)
  | [] => .error .noOpcode
  | op :: rest =>
    match decodeOpcode op with
    | .op i => .ok (i, rest)
    | .op8 f =>
      match rest with
      | [] => .error (.noOperand op)
      | b :: rest' => .ok (f b, rest')

/-- The bytes of an instruction numbered as spec/opcode_table.json numbers them: bit 0 is the least significant
bit of the opcode byte, the operand byte is bits 15..8, and every bit at or above `nbits` is 0. -/
def tableBytes (nbits w : Nat) : List Byte :=
  let v := w % 2 ^ nbits
  [BitVec.ofNat 8 v, BitVec.ofNat 8 (v / 256)]

/-- The instruction the decoder reads from a word of the opcode table. -/
def decodeTableWord (nbits w : Nat) : Option Instr :=
  match decode (tableBytes nbits w) with
  | .ok (i, _) => some i
  | .error _ => none

/-! The encoder. A form that does not exist has no bytes. -/

/-- An instruction whose table lists ab, ns, nx, ax, ny, ay with these opcodes. -/
def encodePlain (ab ns nx ax ny ay : Byte) : MemForm → List Byte
  | .ab b => [ab, b]
  | .ns n => [ns, n]
  | .nx n => [nx, n]
  | .ax => [ax]
  | .ny n => [ny, n]
  | .ay => [ay]
  | _ => []

/-- An instruction whose table lists ab, nx, ax, ny, ay with these opcodes (JMP, JSR). -/
def encodeTarget (ab nx ax ny ay : Byte) : MemForm → List Byte
  | .ab b => [ab, b]
  | .nx n => [nx, n]
  | .ax => [ax]
  | .ny n => [ny, n]
  | .ay => [ay]
  | _ => []

/-- An instruction whose table lists im, ab, ns, nx, ny with these opcodes. -/
def encodeData (im ab ns nx ny : Byte) : Operand → List Byte
  | .im d => [im, d]
  | .mem (.ab b) => [ab, b]
  | .mem (.ns n) => [ns, n]
  | .mem (.nx n) => [nx, n]
  | .mem (.ny n) => [ny, n]
  | _ => []

/-- The memory forms of LDA and STA (R100, R107): their opcodes run in the same order from that of `Adr`. -/
def encodeFull (ab ns nx ax postIncX postDecX preIncX preDecX ny ay postIncY postDecY preIncY preDecY : Byte) :
    MemForm → List Byte
  | .ab b => [ab, b]
  | .ns n => [ns, n]
  | .nx n => [nx, n]
  | .ax => [ax]
  | .postIncX => [postIncX]
  | .postDecX => [postDecX]
  | .preIncX => [preIncX]
  | .preDecX => [preDecX]
  | .ny n => [ny, n]
  | .ay => [ay]
  | .postIncY => [postIncY]
  | .postDecY => [postDecY]
  | .preIncY => [preIncY]
  | .preDecY => [preDecY]

/-- LDA (R100). -/
def encodeLda : Operand → List Byte
  | .im d => [0xF0, d]
  | .mem m =>
    encodeFull 0xF1 0xF2 0xF3 0xF4 0xF5 0xF6 0xF7 0xF8 0xF9 0xFA 0xFB 0xFC 0xFD 0xFE m

/-- CMPX and CMPY (R191, R192): im, ab, ns. -/
def encodeCmpXY (im ab ns : Byte) : Operand → List Byte
  | .im d => [im, d]
  | .mem (.ab b) => [ab, b]
  | .mem (.ns n) => [ns, n]
  | _ => []

/-- CMPSP (R193): im, ab. -/
def encodeCmpSP : Operand → List Byte
  | .im d => [0x9E, d]
  | .mem (.ab b) => [0xAE, b]
  | _ => []

/-- LEAX (R104). -/
def encodeLeax : MemForm → List Byte
  | .nx n => [0xCC, n]
  | .ns n => [0xDC, n]
  | _ => []

/-- LEAY (R105). -/
def encodeLeay : MemForm → List Byte
  | .ny n => [0xCD, n]
  | .ns n => [0xDD, n]
  | _ => []

/-- LEASP (R106). -/
def encodeLeasp : MemForm → List Byte
  | .ns n => [0xBE, n]
  | .nx n => [0xCE, n]
  | .ny n => [0xDE, n]
  | _ => []

/-- The bytes of a well-formed instruction, from the opcode column of its own table; an ill-formed one has none. -/
def encode : Instr → List Byte
  | .lda o => encodeLda o
  | .ldx o => encodeData 0x90 0xA0 0xB0 0xC0 0xD0 o
  | .ldy o => encodeData 0x91 0xA1 0xB1 0xC1 0xD1 o
  | .ldsp o => encodeData 0x92 0xA2 0xB2 0xC2 0xD2 o
  | .leax m => encodeLeax m
  | .leay m => encodeLeay m
  | .leasp m => encodeLeasp m
  | .sta m => encodeFull 0xE1 0xE2 0xE3 0xE4 0xE5 0xE6 0xE7 0xE8 0xE9 0xEA 0xEB 0xEC 0xED 0xEE m
  | .stx m => encodePlain 0x30 0x40 0x50 0x60 0x70 0x80 m
  | .sty m => encodePlain 0x31 0x41 0x51 0x61 0x71 0x81 m
  | .stsp m => encodePlain 0x32 0x42 0x52 0x62 0x72 0x82 m
  | .tfrACC => [0x18]
  | .tfrCCA => [0x19]
  | .tfrXY => [0x1A]
  | .tfrYX => [0x1B]
  | .tfrXSP => [0x1C]
  | .tfrSPX => [0x1D]
  | .tfrYSP => [0x1E]
  | .tfrSPY => [0x1F]
  | .exgACC => [0x9F]
  | .exgXY => [0xAF]
  | .exgXSP => [0xBF]
  | .exgYSP => [0xCF]
  | .jmp m => encodeTarget 0x33 0x53 0x63 0x73 0x83 m
  | .jsr m => encodeTarget 0x34 0x54 0x64 0x74 0x84 m
  | .bra off => [0x21, off]
  | .bsr off => [0x20, off]
  | .bmi off => [0x22, off]
  | .bpl off => [0x23, off]
  | .beq off => [0x24, off]
  | .bne off => [0x25, off]
  | .bvs off => [0x26, off]
  | .bvc off => [0x27, off]
  | .bcs off => [0x28, off]
  | .bcc off => [0x29, off]
  | .bhi off => [0x2A, off]
  | .bls off => [0x2B, off]
  | .bgt off => [0x2C, off]
  | .bge off => [0x2D, off]
  | .ble off => [0x2E, off]
  | .blt off => [0x2F, off]
  | .rts => [0x43]
  | .rti => [0x44]
  | .adda o => encodeData 0x96 0xA6 0xB6 0xC6 0xD6 o
  | .adca o => encodeData 0x95 0xA5 0xB5 0xC5 0xD5 o
  | .suba o => encodeData 0x94 0xA4 0xB4 0xC4 0xD4 o
  | .sbca o => encodeData 0x93 0xA3 0xB3 0xC3 0xD3 o
  | .clra => [0x05]
  | .clr m => encodePlain 0x35 0x45 0x55 0x65 0x75 0x85 m
  | .nega => [0x06]
  | .neg m => encodePlain 0x36 0x46 0x56 0x66 0x76 0x86 m
  | .deca => [0x08]
  | .dec m => encodePlain 0x38 0x48 0x58 0x68 0x78 0x88 m
  | .inca => [0x07]
  | .inc m => encodePlain 0x37 0x47 0x57 0x67 0x77 0x87 m
  | .cmpa o => encodeData 0x97 0xA7 0xB7 0xC7 0xD7 o
  | .cmpx o => encodeCmpXY 0x9C 0xAC 0xBC o
  | .cmpy o => encodeCmpXY 0x9D 0xAD 0xBD o
  | .cmpsp o => encodeCmpSP o
  | .bita o => encodeData 0x98 0xA8 0xB8 0xC8 0xD8 o
  | .tsta => [0x09]
  | .tst m => encodePlain 0x39 0x49 0x59 0x69 0x79 0x89 m
  | .anda o => encodeData 0x99 0xA9 0xB9 0xC9 0xD9 o
  | .ora o => encodeData 0x9A 0xAA 0xBA 0xCA 0xDA o
  | .eora o => encodeData 0x9B 0xAB 0xBB 0xCB 0xDB o
  | .andcc d => [0x01, d]
  | .orcc d => [0x02, d]
  | .coma => [0x0A]
  | .com m => encodePlain 0x3A 0x4A 0x5A 0x6A 0x7A 0x8A m
  | .asra => [0x0F]
  | .asr m => encodePlain 0x3F 0x4F 0x5F 0x6F 0x7F 0x8F m
  | .lsla => [0x0B]
  | .lsl m => encodePlain 0x3B 0x4B 0x5B 0x6B 0x7B 0x8B m
  | .lsra => [0x0C]
  | .lsr m => encodePlain 0x3C 0x4C 0x5C 0x6C 0x7C 0x8C m
  | .rola => [0x0D]
  | .rol m => encodePlain 0x3D 0x4D 0x5D 0x6D 0x7D 0x8D m
  | .rora => [0x0E]
  | .ror m => encodePlain 0x3E 0x4E 0x5E 0x6E 0x7E 0x8E m
  | .psha => [0x10]
  | .pshc => [0x13]
  | .pshx => [0x11]
  | .pshy => [0x12]
  | .pula => [0x14]
  | .pulc => [0x17]
  | .pulx => [0x15]
  | .puly => [0x16]
  | .nop => [0x00]
  | .illegal op => if illegalOpcodes.contains op then [op] else []

end Sys2Proof
end

