-- ==== Sys2Proof/Machine/Memory.lean ====
section
/-! DEFINITION. The 253 bytes of memory at $00..$FA and $FD..$FF (10_state.md R37, 20_memory.md R40), as a list
of cells in one canonical form. The port addresses $FB and $FC hold no state here (R46). -/

namespace Sys2Proof.Machine

/-- Memory: the listed cells (address, byte). -/
abbrev Memory := List Host.Cell

/-- What an unlisted byte reads as. The spec gives memory no initial value (20_memory.md R56, U2).
DESIGN CHOICE, unsafe, log 2. -/
def unlistedByte : Byte := 0x00

/-- The addresses $FB and $FC (R40). -/
def isPortAddress (k : Nat) : Bool := k == 0xFB || k == 0xFC

/-- The byte at an address: that of the first cell with it. -/
def Memory.readNat : Memory → Nat → Byte
  | [], _ => unlistedByte
  | (k, v) :: rest, a => if k = a then v else Memory.readNat rest a

/-- The byte memory holds at an address (R44). -/
def Memory.read (m : Memory) (a : Byte) : Byte := Memory.readNat m a.toNat

/-- The cells whose address is not `a`. -/
def Memory.erase : Memory → Nat → Memory
  | [], _ => []
  | (k, v) :: rest, a => if k = a then Memory.erase rest a else (k, v) :: Memory.erase rest a

/-- A cell put before the first one with a higher address. -/
def Memory.insert : Memory → Nat → Byte → Memory
  | [], a, v => [(a, v)]
  | (k, w) :: rest, a, v =>
    if a < k then (a, v) :: (k, w) :: rest else (k, w) :: Memory.insert rest a v

/-- Memory with the byte `v` at the address `a` (R45), in canonical form: writing what an unlisted byte reads as
leaves no cell. -/
def Memory.write (m : Memory) (a : Byte) (v : Byte) : Memory :=
  if v = unlistedByte then Memory.erase m a.toNat
  else Memory.insert (Memory.erase m a.toNat) a.toNat v

/-- Canonical from the address `lo` up: addresses strictly rising, below 256, no port, no cell that an unlisted
byte would read the same as. -/
def Memory.wfFrom : Nat → Memory → Bool
  | _, [] => true
  | lo, (k, v) :: rest =>
    decide (lo ≤ k) && decide (k < 256) && !isPortAddress k && decide (v ≠ unlistedByte) &&
      Memory.wfFrom (k + 1) rest

/-- The canonical form. Two memories in it that read alike everywhere are the same list. -/
def Memory.wf (m : Memory) : Bool := Memory.wfFrom 0 m

end Sys2Proof.Machine
end

