-- ==== Sys2Proof/Machine/State.lean ====
section
/-! DEFINITION. The state of FLISP (10_state.md R20 to R37, 20_memory.md R46, 60_exceptions.md R270, R271), as plain
data, and the state after Reset (70_reset_and_hazards.md R301). The hidden registers T, R, TA, the instruction
register and Qstate are no state at this level (R35, R262). -/

namespace Sys2Proof.Machine

/-- The five implemented bits of CC (R23). Bits 7..5 read as 0 and have no storage. -/
structure CC where
  /-- bit 4, interrupt mask: 1 masks the IRQ (R25) -/
  i : Bool
  /-- bit 3, negative -/
  n : Bool
  /-- bit 2, zero -/
  z : Bool
  /-- bit 1, two's-complement overflow -/
  v : Bool
  /-- bit 0, carry or borrow -/
  c : Bool
  deriving DecidableEq, Repr

/-- One I/O port: two one-way channels and no storage (20_memory.md R46). -/
structure Channel where
  /-- the bytes the environment has fixed for the coming reads, oldest first; beyond them a read returns the free
  value `Config.portIn` (log 4) -/
  input : List Byte
  /-- the reads so far: the index `k` of `PORT_IN(port, k)` -/
  reads : Nat
  /-- `PORT_OUT(port)`: the bytes written, oldest first -/
  output : List Byte
  deriving DecidableEq, Repr

/-- The machine at an instruction boundary (R270). -/
structure State where
  /-- accumulator (R20) -/
  a : Byte
  /-- address register X (R20) -/
  x : Byte
  /-- address register Y (R20) -/
  y : Byte
  /-- stack pointer: the address of the byte last pushed (R36) -/
  sp : Byte
  /-- program counter: the address of the next opcode (R34) -/
  pc : Byte
  /-- flag register (R23) -/
  cc : CC
  /-- memory $00..$FA, $FD..$FF (R37) -/
  mem : Memory
  /-- the port at $FB (R46) -/
  portFB : Channel
  /-- the port at $FC (R46) -/
  portFC : Channel
  /-- the interrupt samples the environment has fixed for this boundary and the next ones; beyond them a sample is
  the free value `Config.irqLine` (R271, log 5) -/
  irqIn : List Bool
  /-- Reset is asserted at this boundary (R270, R300, log 6) -/
  resetIn : Bool
  /-- the boundaries passed so far: the index of `IRQ_LINE` (R271, log 5) -/
  boundaries : Nat
  /-- the Resets taken so far, after the first: the index of the free register values of R301 (log 6) -/
  resets : Nat
  /-- ghost: the clock cycles of the instructions executed so far (R310, log 7) -/
  cycles : Nat
  deriving DecidableEq, Repr

/-- The reasons the machine stops with a fault: none. The only exception of FLISP, the Trap, is taken (R272), no
access faults (R44, R45), and no state is stuck (93_implementation_defined.md, part 1). -/
inductive Fault where
  deriving DecidableEq, Repr

/-- The reasons a step has no meaning. -/
inductive Refusal where
  /-- Raised by an arm of `exec` whose instruction has no meaning yet, with its mnemonic; safe. No arm raises it:
  every instruction has its meaning. -/
  | notModelled (mnemonic : String)
  deriving DecidableEq, Repr

/-- A port no one has used. -/
def Channel.idle : Channel := { input := [], reads := 0, output := [] }

/-- Right after Reset (R300, R301): I is 1, PC is the byte at $FF, and no image is loaded (log 3). A, X, Y, SP and N, Z,
V, C have no reset value in the spec (`RESET_REGS`): zero, DESIGN CHOICE, unsafe, log 1. -/
def State.reset : State where
  a := 0
  x := 0
  y := 0
  sp := 0
  pc := Memory.read [] 0xFF
  cc := { i := true, n := false, z := false, v := false, c := false }
  mem := []
  portFB := Channel.idle
  portFC := Channel.idle
  irqIn := []
  resetIn := false
  boundaries := 0
  resets := 0
  cycles := 0

end Sys2Proof.Machine
end

