-- ==== Sys2Proof/Machine/Flags.lean ====
section
/-! DEFINITION. The byte view of CC (10_state.md R23) and the flag functions of the instruction rules (R26 to R33).
A flag function computes with integers and narrows at the end. -/

namespace Sys2Proof.Machine

/-- CC as a byte, `0 0 0 I N Z V C` (R23): a value in $00..$1F. -/
def CC.toByte (f : CC) : Byte :=
  BitVec.ofNat 8
    (16 * f.i.toNat + 8 * f.n.toNat + 4 * f.z.toNat + 2 * f.v.toNat + f.c.toNat)

/-- The flags loaded from bits 4..0 of a byte; bits 7..5 are lost (R23). -/
def CC.ofByte (b : Byte) : CC where
  i := b.getLsbD 4
  n := b.getLsbD 3
  z := b.getLsbD 2
  v := b.getLsbD 1
  c := b.getLsbD 0

/-- `NZ(r)`: N is bit 7 of the result, Z says that it is zero (R26). -/
def CC.withNZ (f : CC) (r : Byte) : CC := { f with n := r.getLsbD 7, z := decide (r = 0) }

/-- A result with the V and C that its operation computes. N and Z always come from the result (R26). -/
structure Result where
  r : Byte
  v : Bool
  c : Bool
  deriving DecidableEq, Repr

/-- `ADD8(a, m, cin)` (R27): C is the ninth bit of the sum. -/
def add8 (a m : Byte) (cin : Bool) : Result :=
  let s : Nat := a.toNat + m.toNat + cin.toNat
  let r : Byte := BitVec.ofNat 8 s
  { r := r
    v := (a.getLsbD 7 == m.getLsbD 7) && (r.getLsbD 7 != a.getLsbD 7)
    c := decide (256 ≤ s) }

/-- `SUB8(a, m, bin)` (R28): C is the borrow (C12). -/
def sub8 (a m : Byte) (bin : Bool) : Result :=
  let d : Int := (a.toNat : Int) - (m.toNat : Int) - (bin.toNat : Int)
  let r : Byte := BitVec.ofInt 8 d
  { r := r
    v := (a.getLsbD 7 != m.getLsbD 7) && (r.getLsbD 7 != a.getLsbD 7)
    c := decide (d < 0) }

/-- The byte one above (R29). -/
def inc8 (m : Byte) : Byte := BitVec.ofNat 8 (m.toNat + 1)

/-- The byte one below (R29). -/
def dec8 (m : Byte) : Byte := BitVec.ofInt 8 ((m.toNat : Int) - 1)

/-- `NEG8(m)` (R30). -/
def neg8 (m : Byte) : Result :=
  { r := BitVec.ofInt 8 (0 - (m.toNat : Int)), v := decide (m = 0x80), c := decide (m ≠ 0) }

/-- `SHL8(m, d)` (R31): one step left, `d` enters at bit 0; V = N ^ C after the shift. -/
def shl8 (m : Byte) (d : Bool) : Result :=
  let r : Byte := BitVec.ofNat 8 (2 * m.toNat + d.toNat)
  { r := r, v := r.getLsbD 7 ^^ m.getLsbD 7, c := m.getLsbD 7 }

/-- `SHR8(m, d)` (R32): one step right, `d` enters at bit 7; V = d ^ old bit 7 (D18). -/
def shr8 (m : Byte) (d : Bool) : Result :=
  { r := BitVec.ofNat 8 (m.toNat / 2 + 128 * d.toNat), v := d ^^ m.getLsbD 7, c := m.getLsbD 0 }

/-- `ASR8(m)` (R32): bit 7 is kept and copied to bit 6; V is 0. -/
def asr8 (m : Byte) : Result :=
  { r := BitVec.ofNat 8 (m.toNat / 2) ||| (m &&& 0x80), v := false, c := m.getLsbD 0 }

/-- All four result flags written: the flag column `Δ Δ Δ Δ`. -/
def CC.withNZVC (f : CC) (o : Result) : CC := { f.withNZ o.r with v := o.v, c := o.c }

/-- N, Z, V written, C kept: the flag column `Δ Δ Δ -` of INC and DEC (R29). -/
def CC.withNZV (f : CC) (r : Byte) (v : Bool) : CC := { f.withNZ r with v := v }

/-- `LOGIC(r)` (R33): N and Z from the result, V cleared, C kept: `Δ Δ 0 -`. -/
def CC.logic (f : CC) (r : Byte) : CC := { f.withNZ r with v := false }

/-- TST (R195, R196): N and Z from the value, V and C cleared: `Δ Δ 0 0`. -/
def CC.test (f : CC) (r : Byte) : CC := { f.withNZ r with v := false, c := false }

/-- CLR (R174, R175): `0 1 0 0`. -/
def CC.cleared (f : CC) : CC := { f with n := false, z := true, v := false, c := false }

/-- What an operation leaves: a result byte and the flags. -/
structure Effect where
  r : Byte
  cc : CC
  deriving DecidableEq, Repr

/-! The operations of the read-modify-write instructions, from the old flags and the operand. Each instruction on
A and its twin on memory use the same one. -/

/-- CLR (R174, R175). -/
def clrEffect (f : CC) (_ : Byte) : Effect := ⟨0, f.cleared⟩
/-- NEG (R176, R177). -/
def negEffect (f : CC) (m : Byte) : Effect := ⟨(neg8 m).r, f.withNZVC (neg8 m)⟩
/-- DEC (R178, R179): V is set iff the old value is $80 (R29). -/
def decEffect (f : CC) (m : Byte) : Effect := ⟨dec8 m, f.withNZV (dec8 m) (decide (m = 0x80))⟩
/-- INC (R180, R181): V is set iff the old value is $7F (R29). -/
def incEffect (f : CC) (m : Byte) : Effect := ⟨inc8 m, f.withNZV (inc8 m) (decide (m = 0x7F))⟩
/-- COM (R205, R206). -/
def comEffect (f : CC) (m : Byte) : Effect := ⟨~~~m, f.logic (~~~m)⟩
/-- ASR (R210, R211). -/
def asrEffect (f : CC) (m : Byte) : Effect := ⟨(asr8 m).r, f.withNZVC (asr8 m)⟩
/-- LSL (R212, R213): 0 enters. -/
def lslEffect (f : CC) (m : Byte) : Effect := ⟨(shl8 m false).r, f.withNZVC (shl8 m false)⟩
/-- LSR (R214, R215): 0 enters. -/
def lsrEffect (f : CC) (m : Byte) : Effect := ⟨(shr8 m false).r, f.withNZVC (shr8 m false)⟩
/-- ROL (R216, R217): the old C enters. -/
def rolEffect (f : CC) (m : Byte) : Effect := ⟨(shl8 m f.c).r, f.withNZVC (shl8 m f.c)⟩
/-- ROR (R218, R219): the old C enters. -/
def rorEffect (f : CC) (m : Byte) : Effect := ⟨(shr8 m f.c).r, f.withNZVC (shr8 m f.c)⟩

/-! The operations of the instructions with A and a source operand, from the old flags, A and the operand. -/

/-- ADDA (R170). -/
def addEffect (f : CC) (a m : Byte) : Effect := ⟨(add8 a m false).r, f.withNZVC (add8 a m false)⟩
/-- ADCA (R171): the old C is the carry in. -/
def adcEffect (f : CC) (a m : Byte) : Effect := ⟨(add8 a m f.c).r, f.withNZVC (add8 a m f.c)⟩
/-- SUBA (R172). -/
def subEffect (f : CC) (a m : Byte) : Effect := ⟨(sub8 a m false).r, f.withNZVC (sub8 a m false)⟩
/-- SBCA (R173): the old C is the borrow in. -/
def sbcEffect (f : CC) (a m : Byte) : Effect := ⟨(sub8 a m f.c).r, f.withNZVC (sub8 a m f.c)⟩
/-- ANDA, and the flags of BITA (R200, R194). -/
def andEffect (f : CC) (a m : Byte) : Effect := ⟨a &&& m, f.logic (a &&& m)⟩
/-- ORA (R201). -/
def orEffect (f : CC) (a m : Byte) : Effect := ⟨a ||| m, f.logic (a ||| m)⟩
/-- EORA (R202). -/
def eorEffect (f : CC) (a m : Byte) : Effect := ⟨a ^^^ m, f.logic (a ^^^ m)⟩

/-- ANDCC (R203): a flag is kept where the operand has a 1; bits 7..5 of the operand have no effect. -/
def CC.andByte (f : CC) (d : Byte) : CC where
  i := f.i && d.getLsbD 4
  n := f.n && d.getLsbD 3
  z := f.z && d.getLsbD 2
  v := f.v && d.getLsbD 1
  c := f.c && d.getLsbD 0

/-- ORCC (R204): a flag is set where the operand has a 1. -/
def CC.orByte (f : CC) (d : Byte) : CC where
  i := f.i || d.getLsbD 4
  n := f.n || d.getLsbD 3
  z := f.z || d.getLsbD 2
  v := f.v || d.getLsbD 1
  c := f.c || d.getLsbD 0

end Sys2Proof.Machine
end

