-- ==== Sys2Proof/Config.lean ====
section
/-! DEFINITION. What the spec leaves to the environment and gives no value for (00_scope.md R3,
92_eei_decisions.md D5, D10, D12, D24): free values. None has a body, so no proof can see a value, and a
theorem about the machine holds whatever they are. -/

namespace Sys2Proof.Config

/-- `PORT_IN(port, k)`: what the k-th read of the port at that address returns once the bytes that the state
holds for it are used up (20_memory.md R46, D10, U3). Log 4. -/
opaque portIn (port : Byte) (k : Nat) : Byte

/-- `IRQ_LINE(k)`: the sample of the interrupt input at the k-th instruction boundary, once the samples that the
state holds are used up (60_exceptions.md R271, D12, U13). Log 5. -/
opaque irqLine (k : Nat) : Bool

/-- The value of A after the k-th Reset that follows the first (70_reset_and_hazards.md R301, U12). Log 6. -/
opaque resetA (k : Nat) : Byte

/-- The value of X after the k-th Reset that follows the first (R301, U12). Log 6. -/
opaque resetX (k : Nat) : Byte

/-- The value of Y after the k-th Reset that follows the first (R301, U12). Log 6. -/
opaque resetY (k : Nat) : Byte

/-- The value of SP after the k-th Reset that follows the first (R301, U12). Log 6. -/
opaque resetSP (k : Nat) : Byte

/-- A byte whose bits 3..0 are N, Z, V, C after the k-th Reset that follows the first (R301, U12). Log 6. -/
opaque resetNZVC (k : Nat) : Byte

/-- Which of the six orders the operations AND, OR, XOR have in the ALU rows 0110, 0111, 1000
(50_microarchitecture.md R253, U15): the operator glyphs are lost from the source. Log 9. -/
inductive LogicRowOrder where
  | andOrXor | andXorOr | orAndXor | orXorAnd | xorAndOr | xorOrAnd
  deriving DecidableEq, Repr, Inhabited

/-- The order the hardware has (R253, U15): a free value. Log 9. -/
opaque logicRowOrder : LogicRowOrder

end Sys2Proof.Config
end

