-- ==== Sys2Proof/Machine/Ops.lean ====
section
/-! DEFINITION. The operations on memory, ports, stack and program counter that the meanings share, taking an
exception and returning from one, Reset, and the inputs of an instruction boundary. -/

namespace Sys2Proof.Machine

/-! ## One byte of the address space (20_memory.md R44 to R46) -/

/-- The two ports (20_memory.md R40, R46). -/
inductive Port where
  | fb
  | fc
  deriving DecidableEq, Repr

/-- The address of a port (R40). -/
def Port.address : Port → Byte
  | .fb => 0xFB
  | .fc => 0xFC

/-- The port at an address, if one is there (R40). -/
def portAt (a : Byte) : Option Port :=
  if a = 0xFB then some .fb else if a = 0xFC then some .fc else none

/-- The channels of a port. -/
def State.port (s : State) : Port → Channel
  | .fb => s.portFB
  | .fc => s.portFC

/-- The state with other channels at a port. -/
def State.setPort (s : State) : Port → Channel → State
  | .fb, ch => { s with portFB := ch }
  | .fc, ch => { s with portFC := ch }

/-- What the next read of a port returns: the next byte the environment has fixed, else the free value
`PORT_IN(port, k)` with k the reads so far (R46, log 4). -/
def Channel.next (ch : Channel) (p : Port) : Byte :=
  match ch.input with
  | b :: _ => b
  | [] => Config.portIn p.address ch.reads

/-- A port after one read (R46): one input value is used up. -/
def Channel.afterRead (ch : Channel) : Channel :=
  { ch with input := ch.input.tail, reads := ch.reads + 1 }

/-- A port after one write (R46): the byte is appended to its output sequence. -/
def Channel.afterWrite (ch : Channel) (v : Byte) : Channel :=
  { ch with output := ch.output ++ [v] }

/-- The value of `MemRead(addr, 1)` (R44). -/
def State.look (s : State) (addr : Byte) : Byte :=
  match portAt addr with
  | some p => (s.port p).next p
  | none => s.mem.read addr

/-- The state after `MemRead(addr, 1)` (R44): unchanged, but for the input of a port at that address (R46). -/
def State.touch (s : State) (addr : Byte) : State :=
  match portAt addr with
  | some p => s.setPort p (s.port p).afterRead
  | none => s

/-- `MemWrite(addr, 1, v)` (R45): to memory, or to the output side of a port. -/
def State.store (s : State) (addr v : Byte) : State :=
  match portAt addr with
  | some p => s.setPort p ((s.port p).afterWrite v)
  | none => { s with mem := s.mem.write addr v }

/-- A byte that was read, and the state after the read. -/
structure Read where
  value : Byte
  state : State
  deriving DecidableEq, Repr

/-- One read (R44). -/
def State.readByte (s : State) (addr : Byte) : Read := ⟨s.look addr, s.touch addr⟩

/-! ## Program counter and stack (10_state.md R34, R36) -/

/-- `PCn`: the address after the instruction, of `len` bytes, at PC (30_encoding.md R62). -/
def State.pcNext (s : State) (len : Byte) : Byte := s.pc + len

/-- `PC <- PCn` (R34). -/
def State.advance (s : State) (len : Byte) : State := { s with pc := s.pcNext len }

/-- A push: `SP <- SP - 1; M(SP) <- v` (R36). -/
def State.push (s : State) (v : Byte) : State :=
  let s1 := { s with sp := s.sp - 1 }
  s1.store s1.sp v

/-- A pull: `v <- M(SP); SP <- SP + 1` (R36). -/
def State.pull (s : State) : Read :=
  let r := s.readByte s.sp
  ⟨r.value, { r.state with sp := r.state.sp + 1 }⟩

/-! ## Exceptions (60_exceptions.md R272 to R280) -/

/-- The five pushes of `Entry` (R274): PC, Y, X, A, CC, in that order. -/
def State.pushFrame (s : State) : State :=
  ((((s.push s.pc).push s.y).push s.x).push s.a).push s.cc.toByte

/-- `Entry(vec)` (R274): the frame is pushed, I is set (R276) and PC is taken from the vector, which is read after the
pushes. PC already holds the value to be saved. -/
def State.enter (s : State) (vec : Byte) : State :=
  let s1 := s.pushFrame
  let s2 := { s1 with cc := { s1.cc with i := true } }
  let r := s2.readByte vec
  { r.state with pc := r.value }

/-- The Trap vector's address (20_memory.md R40). -/
def trapVector : Byte := 0xFE

/-- The IRQ vector's address (R40). -/
def irqVector : Byte := 0xFD

/-- The Reset vector's address (R40). -/
def resetVector : Byte := 0xFF

/-- Trap entry (R273), with PC at the illegal opcode: the saved PC is the address after it. -/
def State.trapEntry (s : State) : State := (s.advance 1).enter trapVector

/-- IRQ entry (R275): the saved PC is the address of the instruction that has not been executed. -/
def State.irqEntry (s : State) : State := s.enter irqVector

/-- The return from an exception (42_flow_control.md R161, R280): CC, A, X, Y, PC are pulled, in that order. -/
def State.leave (s : State) : State :=
  let r1 := s.pull
  let s1 := { r1.state with cc := CC.ofByte r1.value }
  let r2 := s1.pull
  let s2 := { r2.state with a := r2.value }
  let r3 := s2.pull
  let s3 := { r3.state with x := r3.value }
  let r4 := s3.pull
  let s4 := { r4.state with y := r4.value }
  let r5 := s4.pull
  { r5.state with pc := r5.value }

/-! ## Reset (70_reset_and_hazards.md R300, R301) -/

/-- The Reset event (R300): `I <- 1; PC <- M($FF)`, nothing pushed, SP not used. -/
def State.resetEvent (s : State) : State :=
  let s1 := { s with cc := { s.cc with i := true } }
  let r := s1.readByte resetVector
  { r.state with pc := r.value }

/-- Reset taken at a boundary of a run (R270): the Reset event, with the registers it gives no value to at the free
values of R301 (U12), the request withdrawn. Log 6. -/
def State.resetEntry (s : State) : State :=
  let f := Config.resetNZVC s.resets
  { s with
    a := Config.resetA s.resets
    x := Config.resetX s.resets
    y := Config.resetY s.resets
    sp := Config.resetSP s.resets
    cc := { i := s.cc.i, n := f.getLsbD 3, z := f.getLsbD 2, v := f.getLsbD 1, c := f.getLsbD 0 }
    resetIn := false
    resets := s.resets + 1 }.resetEvent

/-- The start of a run (R300, R301): Reset, given `INIT_MEM` and `RESET_REGS` (00_scope.md R3). Of `flags` bits 3..0
count: N, Z, V, C. `State.reset` is this with nothing loaded and zeros (log 1, log 3). -/
def State.boot (image : Memory) (a x y sp flags : Byte) : State :=
  { State.reset with a := a, x := x, y := y, sp := sp, cc := CC.ofByte flags, mem := image }.resetEvent

/-! ## The inputs of a boundary (60_exceptions.md R270, R271) -/

/-- The interrupt sample examined at this boundary (R271): the next one the environment has fixed, else the free
value `IRQ_LINE(k)` (log 5). -/
def State.irqSample (s : State) : Bool :=
  match s.irqIn with
  | b :: _ => b
  | [] => Config.irqLine s.boundaries

/-- The request is accepted iff the mask I is 0 and the sample is 1 (R271, D4). -/
def State.irqAccepted (s : State) : Bool := !s.cc.i && s.irqSample

/-- The state once this boundary's sample has been examined: nothing is remembered of it (R271). -/
def State.passBoundary (s : State) : State :=
  { s with irqIn := s.irqIn.tail, boundaries := s.boundaries + 1 }

end Sys2Proof.Machine
end

