-- ==== Sys2Proof/Machine/Operands.lean ====
section
/-! DEFINITION. The addressing modes (30_encoding.md R70 to R78) and the four ways an instruction uses an operand:
reading it, writing it, reading and writing it, and taking its address. -/

namespace Sys2Proof.Machine

/-- The length of an instruction with this memory form (R61, R64): 2 where there is an operand byte. -/
def formLength : MemForm → Byte
  | .ab _ | .ns _ | .nx _ | .ny _ => 2
  | _ => 1

/-- The length of an instruction with this source operand (R61, R64). -/
def operandLength : Operand → Byte
  | .im _ => 2
  | .mem m => formLength m

/-- The pre-increment or pre-decrement of the form, before the address is taken (R77). -/
def preIndex (m : MemForm) (s : State) : State :=
  match m with
  | .preIncX => { s with x := s.x + 1 }
  | .preDecX => { s with x := s.x - 1 }
  | .preIncY => { s with y := s.y + 1 }
  | .preDecY => { s with y := s.y - 1 }
  | _ => s

/-- The effective address (R72, R74 to R78), in the state after `preIndex`. -/
def effectiveAddress (m : MemForm) (s : State) : Byte :=
  match m with
  | .ab adr => adr
  | .ns n => s.sp + n
  | .nx n => s.x + n
  | .ny n => s.y + n
  | .ax => s.x + s.a
  | .ay => s.y + s.a
  | .preIncX | .preDecX | .postIncX | .postDecX => s.x
  | .preIncY | .preDecY | .postIncY | .postDecY => s.y

/-- The post-increment or post-decrement of the form, after the access (R78). -/
def postIndex (m : MemForm) (s : State) : State :=
  match m with
  | .postIncX => { s with x := s.x + 1 }
  | .postDecX => { s with x := s.x - 1 }
  | .postIncY => { s with y := s.y + 1 }
  | .postDecY => { s with y := s.y - 1 }
  | _ => s

/-- The address an instruction with this form accesses, from the state before it. -/
def formAddress (m : MemForm) (s : State) : Byte := effectiveAddress m (preIndex m s)

/-- One read at the effective address, with the form's index update (20_memory.md R49). -/
def readForm (m : MemForm) (s : State) : Read :=
  let s1 := preIndex m s
  let r := s1.readByte (effectiveAddress m s1)
  ⟨r.value, postIndex m r.state⟩

/-- The operand's value: the operand byte (R71), or one read at the effective address. -/
def readOperand (o : Operand) (s : State) : Read :=
  match o with
  | .im d => ⟨d, s⟩
  | .mem m => readForm m s

/-- One write at the effective address, with the form's index update (R49). -/
def writeForm (m : MemForm) (v : Byte) (s : State) : State :=
  let s1 := preIndex m s
  postIndex m (s1.store (effectiveAddress m s1) v)

/-- One read and then one write at the same effective address (R49): the byte and the flags become what the
operation gives. -/
def modifyForm (op : CC → Byte → Effect) (m : MemForm) (s : State) : State :=
  let s1 := preIndex m s
  let ea := effectiveAddress m s1
  let r := s1.readByte ea
  let e := op s1.cc r.value
  postIndex m { r.state.store ea e.r with cc := e.cc }

/-- An instruction that replaces A by an operation on A: 1 byte. -/
def modifyA (op : CC → Byte → Effect) (s : State) : State :=
  let e := op s.cc s.a
  { s with a := e.r, cc := e.cc }.advance 1

/-- A read-modify-write instruction on memory. -/
def modifyMem (op : CC → Byte → Effect) (m : MemForm) (s : State) : State :=
  (modifyForm op m s).advance (formLength m)

/-- An instruction that replaces A by an operation on A and a source operand. -/
def combineA (op : CC → Byte → Byte → Effect) (o : Operand) (s : State) : State :=
  let r := readOperand o s
  let e := op r.state.cc r.state.a r.value
  { r.state with a := e.r, cc := e.cc }.advance (operandLength o)

/-- An instruction that only sets the flags, from a register's value and a source operand. -/
def flagsOnly (op : CC → Byte → Byte → Effect) (reg : Byte) (o : Operand) (s : State) : State :=
  let r := readOperand o s
  { r.state with cc := (op r.state.cc reg r.value).cc }.advance (operandLength o)

/-- A conditional branch (42_flow_control.md R145). -/
def branchIf (cond : Bool) (off : Byte) (s : State) : State :=
  if cond then { s with pc := s.pcNext 2 + off } else s.advance 2

/-- The jump of JSR and BSR (R142, R144): the return address is pushed, then PC becomes the target. -/
def callTo (len target : Byte) (s : State) : State :=
  { s.push (s.pcNext len) with pc := target }

end Sys2Proof.Machine
end

