-- ==== Sys2Proof/Machine/Arith.lean ====
section
/-! DEFINITION. Integer arithmetic (43_arithmetic.md R170 to R181). I never changes. -/

namespace Sys2Proof.Machine

/-- ADDA (R170). -/
def execAdda (o : Operand) (s : State) : Host.Outcome State Fault Refusal :=
  .next (combineA addEffect o s)

/-- ADCA (R171). -/
def execAdca (o : Operand) (s : State) : Host.Outcome State Fault Refusal :=
  .next (combineA adcEffect o s)

/-- SUBA (R172). -/
def execSuba (o : Operand) (s : State) : Host.Outcome State Fault Refusal :=
  .next (combineA subEffect o s)

/-- SBCA (R173). -/
def execSbca (o : Operand) (s : State) : Host.Outcome State Fault Refusal :=
  .next (combineA sbcEffect o s)

/-- CLRA (R174). -/
def execClra (s : State) : Host.Outcome State Fault Refusal :=
  .next (modifyA clrEffect s)

/-- CLR on memory: one write and no read (R175, D25). -/
def execClr (m : MemForm) (s : State) : Host.Outcome State Fault Refusal :=
  let s1 := writeForm m 0 s
  .next ({ s1 with cc := s1.cc.cleared }.advance (formLength m))

/-- NEGA (R176). -/
def execNega (s : State) : Host.Outcome State Fault Refusal :=
  .next (modifyA negEffect s)

/-- NEG on memory (R177). -/
def execNeg (m : MemForm) (s : State) : Host.Outcome State Fault Refusal :=
  .next (modifyMem negEffect m s)

/-- DECA (R178). -/
def execDeca (s : State) : Host.Outcome State Fault Refusal :=
  .next (modifyA decEffect s)

/-- DEC on memory (R179). -/
def execDec (m : MemForm) (s : State) : Host.Outcome State Fault Refusal :=
  .next (modifyMem decEffect m s)

/-- INCA (R180). -/
def execInca (s : State) : Host.Outcome State Fault Refusal :=
  .next (modifyA incEffect s)

/-- INC on memory (R181). -/
def execInc (m : MemForm) (s : State) : Host.Outcome State Fault Refusal :=
  .next (modifyMem incEffect m s)

end Sys2Proof.Machine
end

