-- ==== Sys2Proof/Machine/Flow.lean ====
section
/-! DEFINITION. Program flow control (42_flow_control.md R140 to R161). No flag changes but at RTI; the only memory accesses are
the stack's. -/

namespace Sys2Proof.Machine

/-- JMP: PC becomes the effective address itself (R141). -/
def execJmp (m : MemForm) (s : State) : Host.Outcome State Fault Refusal :=
  .next { s with pc := formAddress m s }

/-- JSR: the return address `PCn` is pushed, PC becomes the effective address (R142). -/
def execJsr (m : MemForm) (s : State) : Host.Outcome State Fault Refusal :=
  .next (callTo (formLength m) (formAddress m s) s)

/-- BRA (R143). -/
def execBra (off : Byte) (s : State) : Host.Outcome State Fault Refusal :=
  .next (branchIf true off s)

/-- BSR: the return address `PCn` is pushed, PC becomes `PCn + offset` (R144). -/
def execBsr (off : Byte) (s : State) : Host.Outcome State Fault Refusal :=
  .next (callTo 2 (s.pcNext 2 + off) s)

/-- BMI: taken if N = 1 (R146). -/
def execBmi (off : Byte) (s : State) : Host.Outcome State Fault Refusal :=
  .next (branchIf (s.cc.n) off s)

/-- BPL: taken if N = 0 (R147). -/
def execBpl (off : Byte) (s : State) : Host.Outcome State Fault Refusal :=
  .next (branchIf (!s.cc.n) off s)

/-- BEQ: taken if Z = 1 (R148). -/
def execBeq (off : Byte) (s : State) : Host.Outcome State Fault Refusal :=
  .next (branchIf (s.cc.z) off s)

/-- BNE: taken if Z = 0 (R149). -/
def execBne (off : Byte) (s : State) : Host.Outcome State Fault Refusal :=
  .next (branchIf (!s.cc.z) off s)

/-- BVS: taken if V = 1 (R150). -/
def execBvs (off : Byte) (s : State) : Host.Outcome State Fault Refusal :=
  .next (branchIf (s.cc.v) off s)

/-- BVC: taken if V = 0 (R151). -/
def execBvc (off : Byte) (s : State) : Host.Outcome State Fault Refusal :=
  .next (branchIf (!s.cc.v) off s)

/-- BCS: taken if C = 1; alias BLO (R152). -/
def execBcs (off : Byte) (s : State) : Host.Outcome State Fault Refusal :=
  .next (branchIf (s.cc.c) off s)

/-- BCC: taken if C = 0; alias BHS (R153). -/
def execBcc (off : Byte) (s : State) : Host.Outcome State Fault Refusal :=
  .next (branchIf (!s.cc.c) off s)

/-- BHI: taken if C | Z = 0 (R154). -/
def execBhi (off : Byte) (s : State) : Host.Outcome State Fault Refusal :=
  .next (branchIf (!(s.cc.c || s.cc.z)) off s)

/-- BLS: taken if C | Z = 1 (R155). -/
def execBls (off : Byte) (s : State) : Host.Outcome State Fault Refusal :=
  .next (branchIf (s.cc.c || s.cc.z) off s)

/-- BGT: taken if (N ^ V) | Z = 0 (R140) (R156). -/
def execBgt (off : Byte) (s : State) : Host.Outcome State Fault Refusal :=
  .next (branchIf (!((s.cc.n ^^ s.cc.v) || s.cc.z)) off s)

/-- BGE: taken if N ^ V = 0 (R140) (R157). -/
def execBge (off : Byte) (s : State) : Host.Outcome State Fault Refusal :=
  .next (branchIf (!(s.cc.n ^^ s.cc.v)) off s)

/-- BLE: taken if (N ^ V) | Z = 1 (R140) (R158). -/
def execBle (off : Byte) (s : State) : Host.Outcome State Fault Refusal :=
  .next (branchIf ((s.cc.n ^^ s.cc.v) || s.cc.z) off s)

/-- BLT: taken if N ^ V = 1 (R140) (R159). -/
def execBlt (off : Byte) (s : State) : Host.Outcome State Fault Refusal :=
  .next (branchIf (s.cc.n ^^ s.cc.v) off s)

/-- RTS: PC is pulled (R160). -/
def execRts (s : State) : Host.Outcome State Fault Refusal :=
  let r := s.pull
  .next { r.state with pc := r.value }

/-- RTI: CC, A, X, Y, PC are pulled (R161). -/
def execRti (s : State) : Host.Outcome State Fault Refusal :=
  .next s.leave

end Sys2Proof.Machine
end

