-- ==== Sys2Proof/Machine/LoadStore.lean ====
section
/-! DEFINITION. Load and store (40_load_store.md R100 to R110). Loads set N and Z from the byte, clear V and keep C; LEA and
the stores touch no flag. -/

namespace Sys2Proof.Machine

/-- LDA: `A <- v`. The address of `A,X` and `A,Y` uses the old A (R100). -/
def execLda (o : Operand) (s : State) : Host.Outcome State Fault Refusal :=
  let r := readOperand o s
  .next ({ r.state with a := r.value, cc := r.state.cc.logic r.value }.advance (operandLength o))

/-- LDX: `X <- v`. The address of `n,X` uses the old X (R101). -/
def execLdx (o : Operand) (s : State) : Host.Outcome State Fault Refusal :=
  let r := readOperand o s
  .next ({ r.state with x := r.value, cc := r.state.cc.logic r.value }.advance (operandLength o))

/-- LDY: `Y <- v`. The address of `n,Y` uses the old Y (R102). -/
def execLdy (o : Operand) (s : State) : Host.Outcome State Fault Refusal :=
  let r := readOperand o s
  .next ({ r.state with y := r.value, cc := r.state.cc.logic r.value }.advance (operandLength o))

/-- LDSP: `SP <- v`. The address of `n,SP` uses the old SP (R103). -/
def execLdsp (o : Operand) (s : State) : Host.Outcome State Fault Refusal :=
  let r := readOperand o s
  .next ({ r.state with sp := r.value, cc := r.state.cc.logic r.value }.advance (operandLength o))

/-- LEAX: the effective address itself; no byte is read and no flag changes (R104). -/
def execLeax (m : MemForm) (s : State) : Host.Outcome State Fault Refusal :=
  .next ({ s with x := formAddress m s }.advance (formLength m))

/-- LEAY: the effective address itself; no byte is read and no flag changes (R105). -/
def execLeay (m : MemForm) (s : State) : Host.Outcome State Fault Refusal :=
  .next ({ s with y := formAddress m s }.advance (formLength m))

/-- LEASP: the effective address itself; no byte is read and no flag changes (R106). -/
def execLeasp (m : MemForm) (s : State) : Host.Outcome State Fault Refusal :=
  .next ({ s with sp := formAddress m s }.advance (formLength m))

/-- STA: `M(EA) <- A`; no flag changes (R107). -/
def execSta (m : MemForm) (s : State) : Host.Outcome State Fault Refusal :=
  .next ((writeForm m s.a s).advance (formLength m))

/-- STX: `M(EA) <- X`; no flag changes (R108). -/
def execStx (m : MemForm) (s : State) : Host.Outcome State Fault Refusal :=
  .next ((writeForm m s.x s).advance (formLength m))

/-- STY: `M(EA) <- Y`; no flag changes (R109). -/
def execSty (m : MemForm) (s : State) : Host.Outcome State Fault Refusal :=
  .next ((writeForm m s.y s).advance (formLength m))

/-- STSP: `M(EA) <- SP`; no flag changes (R110). -/
def execStsp (m : MemForm) (s : State) : Host.Outcome State Fault Refusal :=
  .next ((writeForm m s.sp s).advance (formLength m))

end Sys2Proof.Machine
end

