-- ==== Sys2Proof/Machine/Logic.lean ====
section
/-! DEFINITION. Logical operations (45_logical.md R200 to R206). -/

namespace Sys2Proof.Machine

/-- ANDA (R200). -/
def execAnda (o : Operand) (s : State) : Host.Outcome State Fault Refusal :=
  .next (combineA andEffect o s)

/-- ORA (R201). -/
def execOra (o : Operand) (s : State) : Host.Outcome State Fault Refusal :=
  .next (combineA orEffect o s)

/-- EORA (R202). -/
def execEora (o : Operand) (s : State) : Host.Outcome State Fault Refusal :=
  .next (combineA eorEffect o s)

/-- ANDCC (R203). -/
def execAndcc (data : Byte) (s : State) : Host.Outcome State Fault Refusal :=
  .next ({ s with cc := s.cc.andByte data }.advance 2)

/-- ORCC (R204). -/
def execOrcc (data : Byte) (s : State) : Host.Outcome State Fault Refusal :=
  .next ({ s with cc := s.cc.orByte data }.advance 2)

/-- COMA (R205). -/
def execComa (s : State) : Host.Outcome State Fault Refusal :=
  .next (modifyA comEffect s)

/-- COM on memory (R206). -/
def execCom (m : MemForm) (s : State) : Host.Outcome State Fault Refusal :=
  .next (modifyMem comEffect m s)

end Sys2Proof.Machine
end

