-- ==== Sys2Proof/Machine/Misc.lean ====
section
/-! DEFINITION. NOP and the illegal opcodes (48_misc.md R240, R241). -/

namespace Sys2Proof.Machine

/-- NOP: only PC advances (R240). -/
def execNop (s : State) : Host.Outcome State Fault Refusal :=
  .next (s.advance 1)

/-- An illegal opcode takes the Trap; all of them behave alike (R241, 60_exceptions.md R273). -/
def execIllegal (_opcode : Byte) (s : State) : Host.Outcome State Fault Refusal :=
  .next s.trapEntry

end Sys2Proof.Machine
end

