-- ==== Sys2Proof/Machine/Move.lean ====
section
/-! DEFINITION. Data movement (41_data_movement.md R120 to R131): 1 byte each, no memory access. Only the forms that write CC
change a flag. -/

namespace Sys2Proof.Machine

/-- TFR A,CC: I, N, Z, V, C from bits 4..0 of A (R120, D9). -/
def execTfrACC (s : State) : Host.Outcome State Fault Refusal :=
  .next ({ s with cc := CC.ofByte s.a }.advance 1)

/-- TFR CC,A: bits 7..5 of A become 0 (R121, D8). -/
def execTfrCCA (s : State) : Host.Outcome State Fault Refusal :=
  .next ({ s with a := s.cc.toByte }.advance 1)

/-- TFR X,Y (R122). -/
def execTfrXY (s : State) : Host.Outcome State Fault Refusal :=
  .next ({ s with y := s.x }.advance 1)

/-- TFR Y,X (R123). -/
def execTfrYX (s : State) : Host.Outcome State Fault Refusal :=
  .next ({ s with x := s.y }.advance 1)

/-- TFR X,SP (R124). -/
def execTfrXSP (s : State) : Host.Outcome State Fault Refusal :=
  .next ({ s with sp := s.x }.advance 1)

/-- TFR SP,X (R125). -/
def execTfrSPX (s : State) : Host.Outcome State Fault Refusal :=
  .next ({ s with x := s.sp }.advance 1)

/-- TFR Y,SP (R126). -/
def execTfrYSP (s : State) : Host.Outcome State Fault Refusal :=
  .next ({ s with sp := s.y }.advance 1)

/-- TFR SP,Y (R127). -/
def execTfrSPY (s : State) : Host.Outcome State Fault Refusal :=
  .next ({ s with y := s.sp }.advance 1)

/-- EXG A,CC: each gets the other's old value; bits 7..5 of the old A are lost (R128, D8, D9). -/
def execExgACC (s : State) : Host.Outcome State Fault Refusal :=
  .next ({ s with a := s.cc.toByte, cc := CC.ofByte s.a }.advance 1)

/-- EXG X,Y (R129). -/
def execExgXY (s : State) : Host.Outcome State Fault Refusal :=
  .next ({ s with x := s.y, y := s.x }.advance 1)

/-- EXG X,SP (R130). -/
def execExgXSP (s : State) : Host.Outcome State Fault Refusal :=
  .next ({ s with x := s.sp, sp := s.x }.advance 1)

/-- EXG Y,SP (R131). -/
def execExgYSP (s : State) : Host.Outcome State Fault Refusal :=
  .next ({ s with y := s.sp, sp := s.y }.advance 1)

end Sys2Proof.Machine
end

