-- ==== Sys2Proof/Machine/Shift.lean ====
section
/-! DEFINITION. Shift and rotate (46_shift_rotate.md R210 to R219): one step each. -/

namespace Sys2Proof.Machine

/-- ASRA (R210). -/
def execAsra (s : State) : Host.Outcome State Fault Refusal :=
  .next (modifyA asrEffect s)

/-- ASR on memory (R211). -/
def execAsr (m : MemForm) (s : State) : Host.Outcome State Fault Refusal :=
  .next (modifyMem asrEffect m s)

/-- LSLA; alias ASLA (R212). -/
def execLsla (s : State) : Host.Outcome State Fault Refusal :=
  .next (modifyA lslEffect s)

/-- LSL on memory; alias ASL (R213). -/
def execLsl (m : MemForm) (s : State) : Host.Outcome State Fault Refusal :=
  .next (modifyMem lslEffect m s)

/-- LSRA (R214). -/
def execLsra (s : State) : Host.Outcome State Fault Refusal :=
  .next (modifyA lsrEffect s)

/-- LSR on memory (R215). -/
def execLsr (m : MemForm) (s : State) : Host.Outcome State Fault Refusal :=
  .next (modifyMem lsrEffect m s)

/-- ROLA (R216). -/
def execRola (s : State) : Host.Outcome State Fault Refusal :=
  .next (modifyA rolEffect s)

/-- ROL on memory (R217). -/
def execRol (m : MemForm) (s : State) : Host.Outcome State Fault Refusal :=
  .next (modifyMem rolEffect m s)

/-- RORA (R218). -/
def execRora (s : State) : Host.Outcome State Fault Refusal :=
  .next (modifyA rorEffect s)

/-- ROR on memory (R219). -/
def execRor (m : MemForm) (s : State) : Host.Outcome State Fault Refusal :=
  .next (modifyMem rorEffect m s)

end Sys2Proof.Machine
end

