-- ==== Sys2Proof/Machine/Stack.lean ====
section
/-! DEFINITION. Stack operations (47_stack.md R230 to R237): 1 byte each; no flag changes but at PULC. -/

namespace Sys2Proof.Machine

/-- PSHA (R230). -/
def execPsha (s : State) : Host.Outcome State Fault Refusal :=
  .next ((s.push s.a).advance 1)

/-- PSHC (R231). -/
def execPshc (s : State) : Host.Outcome State Fault Refusal :=
  .next ((s.push s.cc.toByte).advance 1)

/-- PSHX (R232). -/
def execPshx (s : State) : Host.Outcome State Fault Refusal :=
  .next ((s.push s.x).advance 1)

/-- PSHY (R233). -/
def execPshy (s : State) : Host.Outcome State Fault Refusal :=
  .next ((s.push s.y).advance 1)

/-- PULA (R234). -/
def execPula (s : State) : Host.Outcome State Fault Refusal :=
  let r := s.pull
  .next ({ r.state with a := r.value }.advance 1)

/-- PULC (R235). -/
def execPulc (s : State) : Host.Outcome State Fault Refusal :=
  let r := s.pull
  .next ({ r.state with cc := CC.ofByte r.value }.advance 1)

/-- PULX (R236). -/
def execPulx (s : State) : Host.Outcome State Fault Refusal :=
  let r := s.pull
  .next ({ r.state with x := r.value }.advance 1)

/-- PULY (R237). -/
def execPuly (s : State) : Host.Outcome State Fault Refusal :=
  let r := s.pull
  .next ({ r.state with y := r.value }.advance 1)

end Sys2Proof.Machine
end

