-- ==== Sys2Proof/Machine/Test.lean ====
section
/-! DEFINITION. Integer tests (44_test.md R190 to R196): only N, Z, V, C are written. -/

namespace Sys2Proof.Machine

/-- CMPA: the flags of A - operand (R190). -/
def execCmpa (o : Operand) (s : State) : Host.Outcome State Fault Refusal :=
  .next (flagsOnly subEffect s.a o s)

/-- CMPX: the flags of X - operand (R191). -/
def execCmpx (o : Operand) (s : State) : Host.Outcome State Fault Refusal :=
  .next (flagsOnly subEffect s.x o s)

/-- CMPY: the flags of Y - operand (R192). -/
def execCmpy (o : Operand) (s : State) : Host.Outcome State Fault Refusal :=
  .next (flagsOnly subEffect s.y o s)

/-- CMPSP: the flags of SP - operand (R193). -/
def execCmpsp (o : Operand) (s : State) : Host.Outcome State Fault Refusal :=
  .next (flagsOnly subEffect s.sp o s)

/-- BITA: the flags of A AND operand (R194). -/
def execBita (o : Operand) (s : State) : Host.Outcome State Fault Refusal :=
  .next (flagsOnly andEffect s.a o s)

/-- TSTA (R195). -/
def execTsta (s : State) : Host.Outcome State Fault Refusal :=
  .next ({ s with cc := s.cc.test s.a }.advance 1)

/-- TST on memory: one read, no write (R196). -/
def execTst (m : MemForm) (s : State) : Host.Outcome State Fault Refusal :=
  let r := readForm m s
  .next ({ r.state with cc := r.state.cc.test r.value }.advance (formLength m))

end Sys2Proof.Machine
end

