-- ==== Sys2Proof/Machine/Dispatch.lean ====
section
/-! DEFINITION. The meaning of every instruction: one arm for each constructor of Instr. -/

namespace Sys2Proof.Machine

/-- What an instruction does at an instruction boundary where PC is the address of its opcode (60_exceptions.md R270). -/
def exec (i : Instr) (s : State) : Host.Outcome State Fault Refusal :=
  match i with
  | .lda o => Sys2Proof.Machine.execLda o s
  | .ldx o => Sys2Proof.Machine.execLdx o s
  | .ldy o => Sys2Proof.Machine.execLdy o s
  | .ldsp o => Sys2Proof.Machine.execLdsp o s
  | .leax m => Sys2Proof.Machine.execLeax m s
  | .leay m => Sys2Proof.Machine.execLeay m s
  | .leasp m => Sys2Proof.Machine.execLeasp m s
  | .sta m => Sys2Proof.Machine.execSta m s
  | .stx m => Sys2Proof.Machine.execStx m s
  | .sty m => Sys2Proof.Machine.execSty m s
  | .stsp m => Sys2Proof.Machine.execStsp m s
  | .tfrACC => Sys2Proof.Machine.execTfrACC s
  | .tfrCCA => Sys2Proof.Machine.execTfrCCA s
  | .tfrXY => Sys2Proof.Machine.execTfrXY s
  | .tfrYX => Sys2Proof.Machine.execTfrYX s
  | .tfrXSP => Sys2Proof.Machine.execTfrXSP s
  | .tfrSPX => Sys2Proof.Machine.execTfrSPX s
  | .tfrYSP => Sys2Proof.Machine.execTfrYSP s
  | .tfrSPY => Sys2Proof.Machine.execTfrSPY s
  | .exgACC => Sys2Proof.Machine.execExgACC s
  | .exgXY => Sys2Proof.Machine.execExgXY s
  | .exgXSP => Sys2Proof.Machine.execExgXSP s
  | .exgYSP => Sys2Proof.Machine.execExgYSP s
  | .jmp m => Sys2Proof.Machine.execJmp m s
  | .jsr m => Sys2Proof.Machine.execJsr m s
  | .bra off => Sys2Proof.Machine.execBra off s
  | .bsr off => Sys2Proof.Machine.execBsr off s
  | .bmi off => Sys2Proof.Machine.execBmi off s
  | .bpl off => Sys2Proof.Machine.execBpl off s
  | .beq off => Sys2Proof.Machine.execBeq off s
  | .bne off => Sys2Proof.Machine.execBne off s
  | .bvs off => Sys2Proof.Machine.execBvs off s
  | .bvc off => Sys2Proof.Machine.execBvc off s
  | .bcs off => Sys2Proof.Machine.execBcs off s
  | .bcc off => Sys2Proof.Machine.execBcc off s
  | .bhi off => Sys2Proof.Machine.execBhi off s
  | .bls off => Sys2Proof.Machine.execBls off s
  | .bgt off => Sys2Proof.Machine.execBgt off s
  | .bge off => Sys2Proof.Machine.execBge off s
  | .ble off => Sys2Proof.Machine.execBle off s
  | .blt off => Sys2Proof.Machine.execBlt off s
  | .rts => Sys2Proof.Machine.execRts s
  | .rti => Sys2Proof.Machine.execRti s
  | .adda o => Sys2Proof.Machine.execAdda o s
  | .adca o => Sys2Proof.Machine.execAdca o s
  | .suba o => Sys2Proof.Machine.execSuba o s
  | .sbca o => Sys2Proof.Machine.execSbca o s
  | .clra => Sys2Proof.Machine.execClra s
  | .clr m => Sys2Proof.Machine.execClr m s
  | .nega => Sys2Proof.Machine.execNega s
  | .neg m => Sys2Proof.Machine.execNeg m s
  | .deca => Sys2Proof.Machine.execDeca s
  | .dec m => Sys2Proof.Machine.execDec m s
  | .inca => Sys2Proof.Machine.execInca s
  | .inc m => Sys2Proof.Machine.execInc m s
  | .cmpa o => Sys2Proof.Machine.execCmpa o s
  | .cmpx o => Sys2Proof.Machine.execCmpx o s
  | .cmpy o => Sys2Proof.Machine.execCmpy o s
  | .cmpsp o => Sys2Proof.Machine.execCmpsp o s
  | .bita o => Sys2Proof.Machine.execBita o s
  | .tsta => Sys2Proof.Machine.execTsta s
  | .tst m => Sys2Proof.Machine.execTst m s
  | .anda o => Sys2Proof.Machine.execAnda o s
  | .ora o => Sys2Proof.Machine.execOra o s
  | .eora o => Sys2Proof.Machine.execEora o s
  | .andcc data => Sys2Proof.Machine.execAndcc data s
  | .orcc data => Sys2Proof.Machine.execOrcc data s
  | .coma => Sys2Proof.Machine.execComa s
  | .com m => Sys2Proof.Machine.execCom m s
  | .asra => Sys2Proof.Machine.execAsra s
  | .asr m => Sys2Proof.Machine.execAsr m s
  | .lsla => Sys2Proof.Machine.execLsla s
  | .lsl m => Sys2Proof.Machine.execLsl m s
  | .lsra => Sys2Proof.Machine.execLsra s
  | .lsr m => Sys2Proof.Machine.execLsr m s
  | .rola => Sys2Proof.Machine.execRola s
  | .rol m => Sys2Proof.Machine.execRol m s
  | .rora => Sys2Proof.Machine.execRora s
  | .ror m => Sys2Proof.Machine.execRor m s
  | .psha => Sys2Proof.Machine.execPsha s
  | .pshc => Sys2Proof.Machine.execPshc s
  | .pshx => Sys2Proof.Machine.execPshx s
  | .pshy => Sys2Proof.Machine.execPshy s
  | .pula => Sys2Proof.Machine.execPula s
  | .pulc => Sys2Proof.Machine.execPulc s
  | .pulx => Sys2Proof.Machine.execPulx s
  | .puly => Sys2Proof.Machine.execPuly s
  | .nop => Sys2Proof.Machine.execNop s
  | .illegal opcode => Sys2Proof.Machine.execIllegal opcode s

end Sys2Proof.Machine
end

