-- ==== Sys2Proof/Machine/Fetch.lean ====
section
/-! DEFINITION. Instruction fetch (30_encoding.md R62): through the same reads as data, so a fetch from a port takes a
byte of its input (20_memory.md R46). -/

namespace Sys2Proof.Machine

/-- An instruction that was fetched, and the state after its fetches. PC still points at its opcode. -/
structure Fetched where
  instr : Instr
  state : State
  deriving DecidableEq, Repr

/-- The opcode is read at PC, and the operand byte at PC + 1 if the opcode's format has one (R61, R62). -/
def State.fetch (s : State) : Fetched :=
  let r := s.readByte s.pc
  match decodeOpcode r.value with
  | .op i => ⟨i, r.state⟩
  | .op8 f =>
    let r' := r.state.readByte (s.pc + 1)
    ⟨f r'.value, r'.state⟩

/-- The byte `v` placed so that the next read of `addr` returns it: in memory, or at the head of a port's input. -/
def State.placeForFetch (s : State) (addr v : Byte) : State :=
  match portAt addr with
  | some p => s.setPort p { s.port p with input := v :: (s.port p).input }
  | none => { s with mem := s.mem.write addr v }

/-- The bytes of an instruction placed where the next step fetches it, with nothing asserted at this boundary that
would keep it from running: Reset withdrawn, and no interrupt request if I is 0 (R270, log 3). -/
def State.placeInstruction (s : State) (bytes : List Byte) : State :=
  let s1 := { s with
    resetIn := false
    irqIn := if s.cc.i then s.irqIn else false :: s.irqIn.tail }
  match bytes with
  | [] => s1
  | [b0] => s1.placeForFetch s1.pc b0
  | b0 :: b1 :: _ => (s1.placeForFetch s1.pc b0).placeForFetch (s1.pc + 1) b1

end Sys2Proof.Machine
end

