-- ==== Sys2Proof/Machine/Timing.lean ====
section
/-! DEFINITION. The clock cycles of each instruction (70_reset_and_hazards.md R310). Timing information only: nothing
but the ghost counter of State uses it. -/

namespace Sys2Proof.Machine

/-- `ab, ns, nx, ny, ax, ay: c`; the auto-increment and auto-decrement forms one cycle more (R310). -/
def formCycles (c : Nat) : MemForm → Nat
  | .ab _ | .ns _ | .nx _ | .ny _ | .ax | .ay => c
  | _ => c + 1

/-- `im: c; others c + 1` (R310). -/
def operandCycles (c : Nat) : Operand → Nat
  | .im _ => c
  | .mem m => formCycles (c + 1) m

/-- The cycle count of an instruction; none for an illegal opcode, for which the source gives none (R310, D23). -/
def instrCycles : Instr → Option Nat
  | .nop | .tsta | .rts => some 2
  | .tfrACC | .tfrCCA | .tfrXY | .tfrYX | .tfrXSP | .tfrSPX | .tfrYSP | .tfrSPY => some 2
  | .clra | .nega | .inca | .deca | .coma | .lsla | .lsra | .rola | .rora | .asra => some 3
  | .psha | .pshx | .pshy | .pshc | .pula | .pulx | .puly | .pulc => some 3
  | .exgACC | .exgXY | .exgXSP | .exgYSP => some 4
  | .rti => some 6
  | .andcc _ | .orcc _ => some 4
  | .lda o | .ldx o | .ldy o | .ldsp o => some (operandCycles 2 o)
  | .sta m | .stx m | .sty m | .stsp m | .clr m | .tst m => some (formCycles 3 m)
  | .leax _ | .leay _ | .leasp _ => some 4
  | .cmpa o | .bita o | .cmpx o | .cmpy o | .cmpsp o => some (operandCycles 3 o)
  | .adda o | .adca o | .suba o | .sbca o | .anda o | .ora o | .eora o => some (operandCycles 4 o)
  | .neg m | .inc m | .dec m | .com m => some (formCycles 4 m)
  | .lsl m | .lsr m | .rol m | .ror m | .asr m => some (formCycles 4 m)
  | .jmp (.ab _) => some 2
  | .jmp _ => some 4
  | .jsr (.ab _) => some 4
  | .jsr _ => some 5
  | .bra _ | .bmi _ | .bpl _ | .beq _ | .bne _ | .bvs _ | .bvc _ | .bcs _ => some 4
  | .bcc _ | .bhi _ | .bls _ | .bgt _ | .bge _ | .ble _ | .blt _ => some 4
  | .bsr _ => some 5
  | .illegal _ => none

/-- The ghost counter after an instruction: `cycles` is added at each executed instruction (R310). An illegal opcode
adds none (log 7). -/
def State.countCycles (s : State) (i : Instr) : State :=
  { s with cycles := s.cycles + (instrCycles i).getD 0 }

end Sys2Proof.Machine
end

