-- ==== Sys2Proof/Machine/Step.lean ====
section
/-! DEFINITION. The processor step, from one instruction boundary to the next (60_exceptions.md R270). -/

namespace Sys2Proof.Machine

/-- One step (R270), in the order of R278: Reset, else an accepted IRQ, in which no instruction is executed, else the
instruction at PC. An illegal opcode decodes to `.illegal`, whose meaning is the Trap. -/
def step (s : State) : Host.Outcome State Fault Refusal :=
  if s.resetIn then .next s.passBoundary.resetEntry
  else if s.irqAccepted then .next s.passBoundary.irqEntry
  else
    let f := s.passBoundary.fetch
    exec f.instr (f.state.countCycles f.instr)

/-- The state with the instruction of a word of the opcode table stored where `step` fetches its next instruction
(log 3). -/
def State.withFetchWord (s : State) (nbits w : Nat) : State :=
  s.placeInstruction (tableBytes nbits w)

end Sys2Proof.Machine
end

