-- ==== Sys2Proof/Machine/Alu.lean ====
section
/-! DEFINITION. What the source's text keeps of the microarchitecture (50_microarchitecture.md R251 to R261): the ALU's
function table and the selectors of the control unit, as functions. The meanings of the instructions do not rest on
them (R250); that the flag functions agree with them is a claim (R255). -/

namespace Sys2Proof.Machine

/-- The three operations of the ALU rows 0110, 0111, 1000 (R253). -/
inductive LogicOp where
  | and
  | or
  | xor
  deriving DecidableEq, Repr

/-- The operation on two bytes. -/
def LogicOp.apply : LogicOp → Byte → Byte → Byte
  | .and, d, e => d &&& e
  | .or, d, e => d ||| e
  | .xor, d, e => d ^^^ e

/-- The operation of the first, second or third of the rows 0110, 0111, 1000, under an order (U15). -/
def logicRow : Config.LogicRowOrder → Nat → LogicOp
  | .andOrXor, 0 => .and
  | .andOrXor, 1 => .or
  | .andOrXor, _ => .xor
  | .andXorOr, 0 => .and
  | .andXorOr, 1 => .xor
  | .andXorOr, _ => .or
  | .orAndXor, 0 => .or
  | .orAndXor, 1 => .and
  | .orAndXor, _ => .xor
  | .orXorAnd, 0 => .or
  | .orXorAnd, 1 => .xor
  | .orXorAnd, _ => .and
  | .xorAndOr, 0 => .xor
  | .xorAndOr, 1 => .and
  | .xorAndOr, _ => .or
  | .xorOrAnd, 0 => .xor
  | .xorOrAnd, 1 => .or
  | .xorOrAnd, _ => .and

/-- A row that is no arithmetic: V and C are 0 (R252). -/
def aluPlain (u : Byte) : Result := { r := u, v := false, c := false }

/-- A row that adds `d`, `e` and a carry: V by notes (2), C the carry out of bit 7 by note (3) (R254). -/
def aluAdd (d e : Byte) (cin : Bool) : Result :=
  let r : Byte := d + e + (BitVec.ofBool cin).setWidth 8
  { r := r
    v := (d.getLsbD 7 && e.getLsbD 7 && !r.getLsbD 7) || (!d.getLsbD 7 && !e.getLsbD 7 && r.getLsbD 7)
    c := decide (256 ≤ d.toNat + e.toNat + cin.toNat) }

/-- A logic row under the free order of the operations (R253, U15, log 9). -/
def aluLogic (k : Nat) (d e : Byte) : Result :=
  aluPlain ((logicRow Config.logicRowOrder k).apply d e)

/-- The ALU (R251, R253, R254): the output U with V and C; N is bit 7 of U and Z says that U is zero (R252). The code is
f3 f2 f1 f0. In row 1100 C is the borrow, the inverse of the carry out (C12). -/
def alu (f : BitVec 4) (d e : Byte) (cin : Bool) : Result :=
  match f.toNat with
  | 0 => aluPlain 0x00
  | 1 => aluPlain 0xFD
  | 2 => aluPlain 0xFE
  | 3 => aluPlain 0xFF
  | 4 => aluPlain e
  | 5 => { r := ~~~d + (BitVec.ofBool cin).setWidth 8, v := decide (d = 0x80), c := decide (d ≠ 0) }
  | 6 => aluLogic 0 d e
  | 7 => aluLogic 1 d e
  | 8 => aluLogic 2 d e
  | 9 => aluAdd d 0 cin
  | 10 => aluAdd d 0xFF false
  | 11 => aluAdd d e cin
  | 12 => let o := aluAdd d (~~~e) cin; { o with c := !o.c }
  | 13 =>
    { r := (d <<< 1) ||| (BitVec.ofBool cin).setWidth 8
      v := d.getLsbD 7 ^^ d.getLsbD 6
      c := d.getLsbD 7 }
  | 14 =>
    { r := (d >>> 1) ||| ((BitVec.ofBool cin).setWidth 8 <<< 7)
      v := cin ^^ d.getLsbD 7
      c := d.getLsbD 0 }
  | _ => { r := (d >>> 1) ||| (d &&& 0x80), v := false, c := d.getLsbD 0 }

/-- What one of the flags N, Z, V, C becomes under a selector code: from the ALU, from a bit of the bus, 0, or kept
(R258). -/
def flagSelect (code : BitVec 2) (fromAlu fromBus old : Bool) : Bool :=
  match code.toNat with
  | 0 => fromAlu
  | 1 => fromBus
  | 2 => false
  | _ => old

/-- What I becomes under g11 g10: kept, bit 4 of the bus, 1, or kept (R259). -/
def maskSelect (code : BitVec 2) (fromBus old : Bool) : Bool :=
  match code.toNat with
  | 1 => fromBus
  | 2 => true
  | _ => old

/-- The carry in to the ALU under g1 g0: 0, 1, C, or C inverted (R261). -/
def carrySelect (code : BitVec 2) (c : Bool) : Bool :=
  match code.toNat with
  | 0 => false
  | 1 => true
  | 2 => c
  | _ => !c

/-- The selector codes of CC: g11 g10 for I, g9 g8 for N, g7 g6 for Z, g5 g4 for V, g3 g2 for C (R258, R259). -/
structure CCSelect where
  i : BitVec 2
  n : BitVec 2
  z : BitVec 2
  v : BitVec 2
  c : BitVec 2
  deriving DecidableEq, Repr

/-- CC loaded under its selectors, from the ALU's outputs and the bus: b4 → I, b3 → N, b2 → Z, b1 → V, b0 → C. -/
def CC.select (g : CCSelect) (out : Result) (bus : Byte) (f : CC) : CC where
  i := maskSelect g.i (bus.getLsbD 4) f.i
  n := flagSelect g.n (out.r.getLsbD 7) (bus.getLsbD 3) f.n
  z := flagSelect g.z (decide (out.r = 0)) (bus.getLsbD 2) f.z
  v := flagSelect g.v out.v (bus.getLsbD 1) f.v
  c := flagSelect g.c out.c (bus.getLsbD 0) f.c

/-- The address put on the bus under g14 g13 g12, given the hidden registers T and TA: PC, T + SP, T + Y, T + X, or TA
(R260). -/
def addressSelect (code : BitVec 3) (t ta : Byte) (s : State) : Byte :=
  match code.toNat with
  | 0 => s.pc
  | 1 => t + s.sp
  | 2 => t + s.y
  | 3 => t + s.x
  | _ => ta

end Sys2Proof.Machine
end

