-- ==== Sys2Proof/Machine/Assembler.lean ====
section
/-! DEFINITION. The assembler notation (30_encoding.md R64, R80 to R87): how a program becomes the memory image
`INIT_MEM` (20_memory.md R56). The line format is not in the source (N9): a program is a list of items, log 11. -/

namespace Sys2Proof.Machine

/-- The mode codes of R64. -/
inductive ModeCode where
  | ih | im | ab | pc | ns | nx | ny | ax | ay
  | preIncX | preDecX | postIncX | postDecX | preIncY | preDecY | postIncY | postDecY
  deriving DecidableEq, Repr

/-- The modes whose notation has no value and whose instruction is one byte, but for ih (R61, R64). -/
def oneByteMode : ModeCode → Bool
  | .ax | .ay | .preIncX | .preDecX | .postIncX | .postDecX => true
  | .preIncY | .preDecY | .postIncY | .postDecY => true
  | _ => false

/-- The mode code of a memory form (R64). -/
def formMode : MemForm → ModeCode
  | .ab _ => .ab
  | .ns _ => .ns
  | .nx _ => .nx
  | .ny _ => .ny
  | .ax => .ax
  | .ay => .ay
  | .preIncX => .preIncX
  | .preDecX => .preDecX
  | .postIncX => .postIncX
  | .postDecX => .postDecX
  | .preIncY => .preIncY
  | .preDecY => .preDecY
  | .postIncY => .postIncY
  | .postDecY => .postDecY

/-- The mode code of a source operand (R64). -/
def operandMode : Operand → ModeCode
  | .im _ => .im
  | .mem m => formMode m

/-- The canonical mnemonic (R82) and the mode code of an instruction (R66); the register pair of TFR and EXG is part
of the mnemonic. An illegal opcode has none (R241). -/
def asmForm : Instr → Option (String × ModeCode)
  | .lda o => some ("LDA", operandMode o)
  | .ldx o => some ("LDX", operandMode o)
  | .ldy o => some ("LDY", operandMode o)
  | .ldsp o => some ("LDSP", operandMode o)
  | .leax m => some ("LEAX", formMode m)
  | .leay m => some ("LEAY", formMode m)
  | .leasp m => some ("LEASP", formMode m)
  | .sta m => some ("STA", formMode m)
  | .stx m => some ("STX", formMode m)
  | .sty m => some ("STY", formMode m)
  | .stsp m => some ("STSP", formMode m)
  | .tfrACC => some ("TFR A,CC", .ih)
  | .tfrCCA => some ("TFR CC,A", .ih)
  | .tfrXY => some ("TFR X,Y", .ih)
  | .tfrYX => some ("TFR Y,X", .ih)
  | .tfrXSP => some ("TFR X,SP", .ih)
  | .tfrSPX => some ("TFR SP,X", .ih)
  | .tfrYSP => some ("TFR Y,SP", .ih)
  | .tfrSPY => some ("TFR SP,Y", .ih)
  | .exgACC => some ("EXG A,CC", .ih)
  | .exgXY => some ("EXG X,Y", .ih)
  | .exgXSP => some ("EXG X,SP", .ih)
  | .exgYSP => some ("EXG Y,SP", .ih)
  | .jmp m => some ("JMP", formMode m)
  | .jsr m => some ("JSR", formMode m)
  | .bra _ => some ("BRA", .pc)
  | .bsr _ => some ("BSR", .pc)
  | .bmi _ => some ("BMI", .pc)
  | .bpl _ => some ("BPL", .pc)
  | .beq _ => some ("BEQ", .pc)
  | .bne _ => some ("BNE", .pc)
  | .bvs _ => some ("BVS", .pc)
  | .bvc _ => some ("BVC", .pc)
  | .bcs _ => some ("BCS", .pc)
  | .bcc _ => some ("BCC", .pc)
  | .bhi _ => some ("BHI", .pc)
  | .bls _ => some ("BLS", .pc)
  | .bgt _ => some ("BGT", .pc)
  | .bge _ => some ("BGE", .pc)
  | .ble _ => some ("BLE", .pc)
  | .blt _ => some ("BLT", .pc)
  | .rts => some ("RTS", .ih)
  | .rti => some ("RTI", .ih)
  | .adda o => some ("ADDA", operandMode o)
  | .adca o => some ("ADCA", operandMode o)
  | .suba o => some ("SUBA", operandMode o)
  | .sbca o => some ("SBCA", operandMode o)
  | .clra => some ("CLRA", .ih)
  | .clr m => some ("CLR", formMode m)
  | .nega => some ("NEGA", .ih)
  | .neg m => some ("NEG", formMode m)
  | .deca => some ("DECA", .ih)
  | .dec m => some ("DEC", formMode m)
  | .inca => some ("INCA", .ih)
  | .inc m => some ("INC", formMode m)
  | .cmpa o => some ("CMPA", operandMode o)
  | .cmpx o => some ("CMPX", operandMode o)
  | .cmpy o => some ("CMPY", operandMode o)
  | .cmpsp o => some ("CMPSP", operandMode o)
  | .bita o => some ("BITA", operandMode o)
  | .tsta => some ("TSTA", .ih)
  | .tst m => some ("TST", formMode m)
  | .anda o => some ("ANDA", operandMode o)
  | .ora o => some ("ORA", operandMode o)
  | .eora o => some ("EORA", operandMode o)
  | .andcc _ => some ("ANDCC", .im)
  | .orcc _ => some ("ORCC", .im)
  | .coma => some ("COMA", .ih)
  | .com m => some ("COM", formMode m)
  | .asra => some ("ASRA", .ih)
  | .asr m => some ("ASR", formMode m)
  | .lsla => some ("LSLA", .ih)
  | .lsl m => some ("LSL", formMode m)
  | .lsra => some ("LSRA", .ih)
  | .lsr m => some ("LSR", formMode m)
  | .rola => some ("ROLA", .ih)
  | .rol m => some ("ROL", formMode m)
  | .rora => some ("RORA", .ih)
  | .ror m => some ("ROR", formMode m)
  | .psha => some ("PSHA", .ih)
  | .pshc => some ("PSHC", .ih)
  | .pshx => some ("PSHX", .ih)
  | .pshy => some ("PSHY", .ih)
  | .pula => some ("PULA", .ih)
  | .pulc => some ("PULC", .ih)
  | .pulx => some ("PULX", .ih)
  | .puly => some ("PULY", .ih)
  | .nop => some ("NOP", .ih)
  | .illegal _ => none

/-- The other spellings (R82), each with its canonical mnemonic. The nine short register names of TFR and EXG are accepted
as D19 says, though R82 says of them "not assembler syntax" (log 11). -/
def otherSpellings : List (String × String) :=
  [("ASLA", "LSLA"), ("ASL", "LSL"), ("BHS", "BCC"), ("BLO", "BCS"), ("PSHCC", "PSHC"), ("PULCC", "PULC"),
   ("TFR A,C", "TFR A,CC"), ("TFR C,A", "TFR CC,A"), ("TFR X,S", "TFR X,SP"), ("TFR S,X", "TFR SP,X"),
   ("TFR Y,S", "TFR Y,SP"), ("TFR S,Y", "TFR SP,Y"), ("EXG A,C", "EXG A,CC"), ("EXG X,S", "EXG X,SP"),
   ("EXG Y,S", "EXG Y,SP")]

/-- The canonical mnemonic of a spelling (R82). Spellings are matched letter for letter, in capitals: the source says
nothing of case (R81, N9). DESIGN CHOICE, log 11. -/
def canonical (mn : String) : String :=
  match otherSpellings.find? fun p => p.1 == mn with
  | some p => p.2
  | none => mn

/-- The instruction an opcode byte stands for, with an operand byte of zero. -/
def opcodeInstr (op : Byte) : Instr :=
  match decodeOpcode op with
  | .op i => i
  | .op8 f => f 0

/-- The opcode of a mnemonic and a mode, by search of the opcode map (R66). The mnemonic is matched letter for letter, in
capitals (N9): DESIGN CHOICE, log 11. -/
def findOpcode (mn : String) (mode : ModeCode) : Option Byte :=
  ((List.range 256).map (BitVec.ofNat 8)).find? fun op =>
    decide (asmForm (opcodeInstr op) = some (canonical mn, mode))

/-! ## Values (R80, R86) -/

/-- A digit's value, for a base up to 16. -/
def digitValue (c : Char) : Option Nat :=
  if '0' ≤ c ∧ c ≤ '9' then some (c.toNat - 48)
  else if 'A' ≤ c ∧ c ≤ 'F' then some (c.toNat - 55)
  else if 'a' ≤ c ∧ c ≤ 'f' then some (c.toNat - 87)
  else none

/-- The value of digits in a base; none if one is not a digit of it. -/
def digitsValue (base : Nat) : Nat → List Char → Option Nat
  | acc, [] => some acc
  | acc, c :: rest =>
    match digitValue c with
    | some d => if d < base then digitsValue base (acc * base + d) rest else none
    | none => none

/-- A number as it is written: `%` binary, `$` hexadecimal, no prefix decimal (R80). -/
def parseNumber : List Char → Option Nat
  | [] => none
  | '%' :: [] => none
  | '%' :: ds => digitsValue 2 0 ds
  | '$' :: [] => none
  | '$' :: ds => digitsValue 16 0 ds
  | ds => digitsValue 10 0 ds

/-- A value `<Val>`: a constant, with or without sign, or a symbol (R80, R81, R86). -/
inductive Val where
  | const (n : Int)
  | sym (name : String)
  deriving DecidableEq, Repr

/-- The operand of an instruction, as R64 and R81 write it. `adr` is `Adr`, for ab and pc alike; `byMode` is `A,X`, `A,Y`
and the eight auto-increment and auto-decrement forms. -/
inductive AsmOperand where
  | none
  | data (v : Val)
  | adr (v : Val)
  | nSP (v : Val)
  | nX (v : Val)
  | nY (v : Val)
  | byMode (m : ModeCode)
  deriving DecidableEq, Repr

/-- One item of a program: an instruction or a directive (R81, R86). A label takes the value of the address of the
item's first byte (R86). -/
inductive Item where
  | instr (label : Option String) (mnemonic : String) (operand : AsmOperand)
  | org (v : Val)
  | equ (name : String) (v : Val)
  | fcb (label : Option String) (vs : List Val)
  | fcs (label : Option String) (text : List Char)
  | rmb (label : Option String) (v : Val)
  deriving DecidableEq, Repr

/-- Why a program is refused (U16, log 11). -/
inductive AsmError where
  /-- a symbol with no value, for ORG, EQU and RMB one with none yet (R86) -/
  | undefined (name : String)
  /-- no such mnemonic in that mode (R79) -/
  | noSuchForm (mnemonic : String)
  /-- a value outside the field that holds it (U16) -/
  | outOfRange (n : Int)
  /-- a character that is not in the ASCII table (R87) -/
  | notAscii (c : Char)
  /-- a byte placed at an address beyond $FF, or at a port (20_memory.md R40, R56) -/
  | noMemory (addr : Nat)
  deriving DecidableEq, Repr

/-- Symbols and their values. -/
abbrev Symbols := List (String × Int)

/-- A value under the symbols known so far. Symbols are matched letter for letter, so case counts (N9), and a symbol that is
defined twice has its first value: DESIGN CHOICES, log 11. -/
def Val.eval (syms : Symbols) : Val → Except AsmError Int
  | .const n => .ok n
  | .sym name =>
    match syms.find? fun p => p.1 == name with
    | some p => .ok p.2
    | none => .error (.undefined name)

/-- A data byte or an offset: the accepted range is -128..255 (R81). -/
def byteOf (n : Int) : Except AsmError Byte :=
  if -128 ≤ n ∧ n ≤ 255 then .ok (BitVec.ofInt 8 n) else .error (.outOfRange n)

/-- An address: $00..$FF (R2). -/
def addressOf (n : Int) : Except AsmError Byte :=
  if 0 ≤ n ∧ n ≤ 255 then .ok (BitVec.ofInt 8 n) else .error (.outOfRange n)

/-- The operand byte of a branch at address `a` to `adr` (R83). -/
def branchOperand (adr a : Byte) : Byte := adr - (a + 2)

/-- The bytes of one-byte and two-byte instructions: an opcode found in a mode, and its operand byte if it has one. -/
def opcodeFor (mn : String) (mode : ModeCode) : Except AsmError Byte :=
  match findOpcode mn mode with
  | some op => .ok op
  | none => .error (.noSuchForm mn)

/-- The bytes of an instruction at the address `at_` (R81, R83). -/
def instrBytes (syms : Symbols) (at_ : Nat) (mn : String) : AsmOperand → Except AsmError (List Byte)
  | .none => do
    let op ← opcodeFor mn .ih
    pure [op]
  | .data v => do
    let op ← opcodeFor mn .im
    let b ← byteOf (← v.eval syms)
    pure [op, b]
  | .adr v => do
    let adr ← addressOf (← v.eval syms)
    match findOpcode mn .ab with
    | some op => pure [op, adr]
    | Option.none =>
      let op ← opcodeFor mn .pc
      pure [op, branchOperand adr (BitVec.ofNat 8 at_)]
  | .nSP v => do
    let op ← opcodeFor mn .ns
    let b ← byteOf (← v.eval syms)
    pure [op, b]
  | .nX v => do
    let op ← opcodeFor mn .nx
    let b ← byteOf (← v.eval syms)
    pure [op, b]
  | .nY v => do
    let op ← opcodeFor mn .ny
    let b ← byteOf (← v.eval syms)
    pure [op, b]
  | .byMode m =>
    if oneByteMode m then do
      let op ← opcodeFor mn m
      pure [op]
    else .error (.noSuchForm mn)

/-- How many bytes an instruction takes: the operand notation fixes it (R61, R64). -/
def asmLength : AsmOperand → Nat
  | .none | .byMode _ => 1
  | _ => 2

/-- The first pass of the assembler: where the next byte goes, and the symbols so far. -/
structure Pass where
  addr : Nat
  syms : Symbols
  deriving DecidableEq, Repr

/-- A label gets the address of its item (R86). -/
def Pass.withLabel (p : Pass) : Option String → Pass
  | some name => { p with syms := p.syms ++ [(name, (p.addr : Int))] }
  | none => p

/-- One item of the first pass (R86). -/
def Pass.step (p : Pass) : Item → Except AsmError Pass
  | .instr l _ o =>
    let q := p.withLabel l
    .ok { q with addr := q.addr + asmLength o }
  | .org v => do
    let a ← addressOf (← v.eval p.syms)
    pure { p with addr := a.toNat }
  | .equ name v => do
    let n ← v.eval p.syms
    pure { p with syms := p.syms ++ [(name, n)] }
  | .fcb l vs =>
    let q := p.withLabel l
    .ok { q with addr := q.addr + vs.length }
  | .fcs l text =>
    let q := p.withLabel l
    .ok { q with addr := q.addr + text.length }
  | .rmb l v => do
    let q := p.withLabel l
    let n ← addressOf (← v.eval q.syms)
    pure { q with addr := q.addr + n.toNat }

/-- The first pass over a program, from address 0. -/
def symbolsOf : Pass → List Item → Except AsmError Pass
  | p, [] => .ok p
  | p, item :: rest => do
    let q ← p.step item
    symbolsOf q rest

/-- The code of a character (R87). -/
def charCode (c : Char) : Except AsmError Byte :=
  if c.toNat < 128 then .ok (BitVec.ofNat 8 c.toNat) else .error (.notAscii c)

/-- The bytes an item emits at its address: EQU, ORG and RMB emit nothing (R86). -/
def itemBytes (syms : Symbols) (at_ : Nat) : Item → Except AsmError (List Byte)
  | .instr _ mn o => instrBytes syms at_ mn o
  | .fcb _ vs => vs.mapM fun v => do byteOf (← v.eval syms)
  | .fcs _ text => text.mapM charCode
  | _ => .ok []

/-- Bytes placed at consecutive addresses of an image. A byte placed where one stands already, by a second ORG over earlier
code, takes its place: R56 and R86 do not say which of two stays. DESIGN CHOICE, log 11. -/
def placeBytes (image : Memory) (at_ : Nat) : List Byte → Except AsmError Memory
  | [] => .ok image
  | b :: rest =>
    if at_ < 256 ∧ isPortAddress at_ = false then
      placeBytes (image.write (BitVec.ofNat 8 at_) b) (at_ + 1) rest
    else .error (.noMemory at_)

/-- The second pass: the image of the items, given every symbol, in the order of the items; of two bytes at one address the
later stays (DESIGN CHOICE, log 11). -/
def emit (syms : Symbols) : Pass → Memory → List Item → Except AsmError Memory
  | _, image, [] => .ok image
  | p, image, item :: rest => do
    let q ← p.step item
    let bytes ← itemBytes syms p.addr item
    let image' ← placeBytes image p.addr bytes
    emit syms q image' rest

/-- The memory image of a program (20_memory.md R56). -/
def assemble (program : List Item) : Except AsmError Memory := do
  let p ← symbolsOf ⟨0, []⟩ program
  emit p.syms ⟨0, []⟩ [] program

end Sys2Proof.Machine
end

