-- ==== Sys2Proof/Machine/Control.lean ====
section
/-! DEFINITION. The inputs and outputs of the control unit (50_microarchitecture.md R256, R257), each signal by itself, on
the registers of the data path (R262). When the signals are active, in which state of which instruction, and which
register stands on which bus, is in no source (R250, N12), so the step does not rest on this file; what several signals
do at one clock edge is not here either (log 15). NF, which the control unit gives itself, starts a new fetch phase: it is
the boundary at which `step` begins (R263, R264). -/

namespace Sys2Proof.Machine

/-- The registers of the data path (R262): those of `State`, and the hidden ones. No instruction reads a hidden register
(10_state.md R35), so `State` has none of them. -/
structure DataPath where
  machine : State
  /-- T, the temporary register: the offset of an indexed address -/
  t : Byte
  /-- R, the result register: a result of the ALU -/
  r : Byte
  /-- TA, the address computation register -/
  ta : Byte
  /-- I, the instruction register -/
  ir : Byte
  /-- Qstate, the state counter of the control unit -/
  qstate : BitVec 4
  deriving DecidableEq, Repr

/-- The inputs of the control unit (R256). CP, the clock, is the step of `DataPath.clock`; the flag I is not listed. -/
structure ControlInputs where
  reset : Bool
  interrupt : Bool
  qstate : BitVec 4
  opcode : Byte
  n : Bool
  z : Bool
  v : Bool
  c : Bool
  deriving DecidableEq, Repr

/-- What the control unit sees (R256). -/
def DataPath.inputs (d : DataPath) : ControlInputs where
  reset := d.machine.resetIn
  interrupt := d.machine.irqSample
  qstate := d.qstate
  opcode := d.ir
  n := d.machine.cc.n
  z := d.machine.cc.z
  v := d.machine.cc.v
  c := d.machine.cc.c

/-- One line of the one-of-256 decoder of the instruction register (R256). -/
def ControlInputs.iopcode (u : ControlInputs) (op : Byte) : Bool := u.opcode == op

/-- The one-bit outputs of the control unit, in the order of R257. -/
inductive Signal where
  | ldA | ldI | oeA | ldT | clrT | ldR | oeR | ldCC | oeCC | ldX | oeX | ldY | oeY
  | ldPC | oePC | incPC | ldSP | oeSP | incSP | decSP | ldTA | mr | mw
  deriving DecidableEq, Repr

/-- The outputs that select: f3..f0 for the ALU, g14..g0 for the selectors (R257). -/
structure ControlWord where
  f : BitVec 4
  g : BitVec 15
  deriving DecidableEq, Repr

/-- g14 g13 g12, the register that addresses memory and I/O (R260). -/
def ControlWord.addressCode (w : ControlWord) : BitVec 3 := w.g.extractLsb' 12 3

/-- g1 g0, the carry in to the ALU (R261). -/
def ControlWord.carryCode (w : ControlWord) : BitVec 2 := w.g.extractLsb' 0 2

/-- g11 to g2, the selectors of CC (R258, R259). -/
def ControlWord.ccSelect (w : ControlWord) : CCSelect where
  i := w.g.extractLsb' 10 2
  n := w.g.extractLsb' 8 2
  z := w.g.extractLsb' 6 2
  v := w.g.extractLsb' 4 2
  c := w.g.extractLsb' 2 2

/-- The ALU's outputs under f3..f0 and g1 g0, for its operands D and E (R253, R261). -/
def DataPath.aluOut (d : DataPath) (w : ControlWord) (opD opE : Byte) : Result :=
  alu w.f opD opE (carrySelect w.carryCode d.machine.cc.c)

/-- The address on the address bus under g14 g13 g12 (R260). -/
def DataPath.address (d : DataPath) (w : ControlWord) : Byte :=
  addressSelect w.addressCode d.t d.ta d.machine

/-- What a signal puts on a bus (R257): OEx the register, MR the byte read from memory or a port; the others nothing. -/
def DataPath.drives (d : DataPath) (w : ControlWord) : Signal → Option Byte
  | .oeA => some d.machine.a
  | .oeR => some d.r
  | .oeCC => some d.machine.cc.toByte
  | .oeX => some d.machine.x
  | .oeY => some d.machine.y
  | .oePC => some d.machine.pc
  | .oeSP => some d.machine.sp
  | .mr => some (d.machine.look (d.address w))
  | .ldA | .ldI | .ldT | .clrT | .ldR | .ldCC | .ldX | .ldY => none
  | .ldPC | .incPC | .ldSP | .incSP | .decSP | .ldTA | .mw => none

/-- What one signal does at the clock edge (R257), with the byte `bus` on the bus it takes from (for R the bus with the
ALU's U) and the ALU's outputs `out`, from which LDCC may take flags: LDx loads, CLRT clears, INCx and DECSP step modulo
256, MR uses up a byte of a port's input, MW writes memory or a port; OEx changes no register. -/
def DataPath.clock (d : DataPath) (w : ControlWord) (bus : Byte) (out : Result) : Signal → DataPath
  | .ldA => { d with machine := { d.machine with a := bus } }
  | .ldI => { d with ir := bus }
  | .ldT => { d with t := bus }
  | .clrT => { d with t := 0 }
  | .ldR => { d with r := bus }
  | .ldCC => { d with machine := { d.machine with cc := CC.select w.ccSelect out bus d.machine.cc } }
  | .ldX => { d with machine := { d.machine with x := bus } }
  | .ldY => { d with machine := { d.machine with y := bus } }
  | .ldPC => { d with machine := { d.machine with pc := bus } }
  | .incPC => { d with machine := d.machine.advance 1 }
  | .ldSP => { d with machine := { d.machine with sp := bus } }
  | .incSP => { d with machine := { d.machine with sp := d.machine.sp + 1 } }
  | .decSP => { d with machine := { d.machine with sp := d.machine.sp - 1 } }
  | .ldTA => { d with ta := bus }
  | .mr => { d with machine := d.machine.touch (d.address w) }
  | .mw => { d with machine := d.machine.store (d.address w) bus }
  | .oeA | .oeR | .oeCC | .oeX | .oeY | .oePC | .oeSP => d

end Sys2Proof.Machine
end

