-- ==== Sys2Proof/Machine/Run.lean ====
section
/-! DEFINITION. A run, given the five parameters of 00_scope.md R3: `INIT_MEM`, `RESET_REGS`, `PORT_IN`, `IRQ_LINE` and `STOP`.
A run is Reset followed by steps, for ever; `STOP`, a predicate on the machine state, only says when an observer ends
it (60_exceptions.md R270, 92_eei_decisions.md D15, U14), so the step knows nothing of it. -/

namespace Sys2Proof.Machine

/-- The parameters of a run but `STOP` (R3). Of `flags` bits 3..0 count: N, Z, V, C. The lists are what the environment
has fixed beforehand; beyond them the ports and the line take free values (log 4, log 5). -/
structure Parameters where
  /-- `INIT_MEM` -/
  image : Memory
  /-- `RESET_REGS`: A, X, Y, SP, and N, Z, V, C -/
  a : Byte
  x : Byte
  y : Byte
  sp : Byte
  flags : Byte
  /-- `PORT_IN($FB, k)` -/
  inFB : List Byte
  /-- `PORT_IN($FC, k)` -/
  inFC : List Byte
  /-- `IRQ_LINE(k)` -/
  irq : List Bool
  deriving DecidableEq, Repr

/-- The state in which a run with these parameters takes its first step: the one that Reset leaves (R300, R301). -/
def Parameters.start (p : Parameters) : State :=
  { State.boot p.image p.a p.x p.y p.sp p.flags with
    portFB := { Channel.idle with input := p.inFB }
    portFC := { Channel.idle with input := p.inFC }
    irqIn := p.irq }

/-- `n` steps (R270). -/
def stepTimes : Nat → State → Host.Outcome State Fault Refusal
  | 0, s => .next s
  | n + 1, s =>
    match step s with
    | .next t => stepTimes n t
    | .fault r => .fault r
    | .refused r => .refused r

/-- How far a run got. -/
inductive Progress where
  /-- `STOP` held after so many steps, for the first time; the state at that boundary is the final state (D15) -/
  | ended (steps : Nat) (s : State)
  /-- `STOP` has not held yet, and the run goes on from here (U14) -/
  | going (s : State)
  | fault (r : Fault)
  | refused (r : Refusal)
  deriving DecidableEq, Repr

/-- One step more before what came of the rest. -/
def Progress.afterStep : Progress → Progress
  | .ended k s => .ended (k + 1) s
  | .going s => .going s
  | .fault r => .fault r
  | .refused r => .refused r

/-- A run under any `STOP`, watched for at most `n` steps: it ends at the first boundary where `STOP` holds (D15). -/
def runUntil (stop : State → Bool) : Nat → State → Progress
  | 0, s => if stop s then .ended 0 s else .going s
  | n + 1, s =>
    if stop s then .ended 0 s
    else
      match step s with
      | .next t => (runUntil stop n t).afterStep
      | .fault r => .fault r
      | .refused r => .refused r

/-- The model with its five arguments (R3): Reset, then steps until `STOP`, watched for at most `n` of them. -/
def run (p : Parameters) (stop : State → Bool) (n : Nat) : Progress := runUntil stop n p.start

/-- The `STOP` that the spec suggests (D15), one argument that `run` can take: the instruction at PC is a BRA or `JMP Adr`
to its own address, and no IRQ can be accepted. Log 13. -/
def State.stopped (s : State) : Bool :=
  s.cc.i && !s.resetIn &&
    match s.fetch.instr with
    | .bra off => off == 0xFE
    | .jmp (.ab adr) => adr == s.pc
    | _ => false

end Sys2Proof.Machine
end

