-- ==== Sys2Proof/Safety.lean ====
section
/-! DEFINITION. The words claims are made in: the invariant, and what an instruction leaves as it was. FLISP has no unsafe
state to avoid: no access faults and no state is stuck. -/

namespace Sys2Proof

/-! ## Which instruction writes what (10_state.md R21, R25, 20_memory.md R49) -/

/-- Control transfers: the instructions that write their target into PC (R34), and the illegal opcodes. -/
def Instr.isTransfer : Instr → Bool
  | .jmp _ | .jsr _ | .bra _ | .bsr _ | .rts | .rti | .illegal _ => true
  | .bmi _ | .bpl _ | .beq _ | .bne _ | .bvs _ | .bvc _ | .bcs _ | .bcc _ => true
  | .bhi _ | .bls _ | .bgt _ | .bge _ | .ble _ | .blt _ => true
  | _ => false

/-- The instructions that write A (R21). -/
def Instr.writesA : Instr → Bool
  | .lda _ | .pula | .rti | .tfrCCA | .exgACC | .clra | .nega | .inca | .deca | .coma => true
  | .lsla | .lsra | .asra | .rola | .rora => true
  | .adda _ | .adca _ | .suba _ | .sbca _ | .anda _ | .ora _ | .eora _ => true
  | _ => false

/-- The four auto-modify forms on X. -/
def MemForm.isAutoX : MemForm → Bool
  | .preIncX | .preDecX | .postIncX | .postDecX => true
  | _ => false

/-- The four auto-modify forms on Y. -/
def MemForm.isAutoY : MemForm → Bool
  | .preIncY | .preDecY | .postIncY | .postDecY => true
  | _ => false

/-- The instructions that write X (R21). -/
def Instr.writesX : Instr → Bool
  | .ldx _ | .leax _ | .pulx | .rti | .tfrYX | .tfrSPX | .exgXY | .exgXSP => true
  | .lda (.mem m) | .sta m => m.isAutoX
  | _ => false

/-- The instructions that write Y (R21). -/
def Instr.writesY : Instr → Bool
  | .ldy _ | .leay _ | .puly | .rti | .tfrXY | .tfrSPY | .exgXY | .exgYSP => true
  | .lda (.mem m) | .sta m => m.isAutoY
  | _ => false

/-- The instructions that write SP, and the illegal opcodes, whose entry does (R21). -/
def Instr.writesSP : Instr → Bool
  | .ldsp _ | .leasp _ | .tfrXSP | .tfrYSP | .exgXSP | .exgYSP => true
  | .psha | .pshc | .pshx | .pshy | .pula | .pulc | .pulx | .puly => true
  | .bsr _ | .jsr _ | .rts | .rti | .illegal _ => true
  | _ => false

/-- The instructions that write CC as a byte: they alone can load I from a bit (R25). -/
def Instr.loadsMask : Instr → Bool
  | .andcc _ | .orcc _ | .tfrACC | .exgACC | .pulc | .rti => true
  | _ => false

/-- The instructions that write memory or a port's output side, and the illegal opcodes, whose entry does (R49). -/
def Instr.stores : Instr → Bool
  | .sta _ | .stx _ | .sty _ | .stsp _ | .clr _ => true
  | .neg _ | .inc _ | .dec _ | .com _ | .lsl _ | .lsr _ | .asr _ | .rol _ | .ror _ => true
  | .psha | .pshc | .pshx | .pshy | .bsr _ | .jsr _ | .illegal _ => true
  | _ => false

end Sys2Proof

namespace Sys2Proof.Machine

/-- The invariant every step keeps: memory is in its canonical form, with no cell at a port (20_memory.md R46). -/
def State.inv (s : State) : Bool := s.mem.wf

/-- The same instruction executed `n` times. -/
def execTimes (i : Instr) : Nat → State → Host.Outcome State Fault Refusal
  | 0, s => .next s
  | n + 1, s =>
    match exec i s with
    | .next t => execTimes i n t
    | .fault r => .fault r
    | .refused r => .refused r

/-! ## Operands, as the claims name them -/

/-- The address an operand is read at; none for immediate data (30_encoding.md R71). -/
def operandAddress (o : Operand) (s : State) : Option Byte :=
  match o with
  | .im _ => none
  | .mem m => some (formAddress m s)

/-- The operand's value: the operand byte, or what a read at the effective address returns. -/
def operandValue (o : Operand) (s : State) : Byte :=
  match o with
  | .im d => d
  | .mem m => s.look (formAddress m s)

/-- X after a form's index update (30_encoding.md R77, R78). -/
def formX (m : MemForm) (x : Byte) : Byte :=
  match m with
  | .preIncX | .postIncX => x + 1
  | .preDecX | .postDecX => x - 1
  | _ => x

/-- Y after a form's index update (R77, R78). -/
def formY (m : MemForm) (y : Byte) : Byte :=
  match m with
  | .preIncY | .postIncY => y + 1
  | .preDecY | .postDecY => y - 1
  | _ => y

/-- X after a source operand is read. -/
def operandX (o : Operand) (x : Byte) : Byte :=
  match o with
  | .im _ => x
  | .mem m => formX m x

/-- Y after a source operand is read. -/
def operandY (o : Operand) (y : Byte) : Byte :=
  match o with
  | .im _ => y
  | .mem m => formY m y

/-! ## Frames -/

/-- Every byte of memory reads as before. -/
def SameMemory (s t : State) : Prop := ∀ b : Byte, t.mem.read b = s.mem.read b

/-- Both ports' channels are as before. -/
def SamePorts (s t : State) : Prop := ∀ p : Port, t.port p = s.port p

/-- The control unit's inputs and the model's counters are as before. -/
def SameInputs (s t : State) : Prop :=
  t.irqIn = s.irqIn ∧ t.resetIn = s.resetIn ∧ t.boundaries = s.boundaries ∧ t.resets = s.resets ∧
    t.cycles = s.cycles

/-- Nothing outside the registers and CC changed. -/
def OnlyRegisters (s t : State) : Prop := SameMemory s t ∧ SamePorts s t ∧ SameInputs s t

/-- The ports after one read, or none: the port read at has used up one input value (20_memory.md R46). -/
def PortsAfterRead (ea : Option Byte) (s t : State) : Prop :=
  ∀ p : Port, t.port p = if ea = some p.address then (s.port p).afterRead else s.port p

/-- The ports after one write: the port written at has sent the byte (R46). -/
def PortsAfterWrite (ea v : Byte) (s t : State) : Prop :=
  ∀ p : Port, t.port p = if ea = p.address then (s.port p).afterWrite v else s.port p

/-- The ports after one read and then one write at the same address (R46). -/
def PortsAfterModify (ea v : Byte) (s t : State) : Prop :=
  ∀ p : Port, t.port p = if ea = p.address then (s.port p).afterRead.afterWrite v else s.port p

/-- Memory after one write: the byte is at its address if that is no port, and every other byte reads as before. -/
def MemoryAfterWrite (ea v : Byte) (s t : State) : Prop :=
  (portAt ea = none → t.mem.read ea = v) ∧ (portAt ea ≠ none → SameMemory s t) ∧
    ∀ b : Byte, b ≠ ea → t.mem.read b = s.mem.read b

/-- The frame of an instruction that reads its operand and changes registers or flags only. -/
def ReadsOperand (o : Operand) (s t : State) : Prop :=
  SameMemory s t ∧ PortsAfterRead (operandAddress o s) s t ∧ SameInputs s t

/-- The frame of an instruction that writes one byte `v` at `ea`. -/
def WritesByte (ea v : Byte) (s t : State) : Prop :=
  MemoryAfterWrite ea v s t ∧ PortsAfterWrite ea v s t ∧ SameInputs s t

/-- The frame of a read-modify-write instruction on memory: the byte at the effective address becomes `r`, and no
register but PC changes. -/
def ModifiesByte (m : MemForm) (r : Byte) (s t : State) : Prop :=
  MemoryAfterWrite (formAddress m s) r s t ∧ PortsAfterModify (formAddress m s) r s t ∧ SameInputs s t ∧
    t.a = s.a ∧ t.x = s.x ∧ t.y = s.y ∧ t.sp = s.sp ∧ t.pc = s.pc + formLength m

/-- The frame of an instruction that changes A, CC and PC only. -/
def ModifiesA (s t : State) : Prop :=
  OnlyRegisters s t ∧ t.x = s.x ∧ t.y = s.y ∧ t.sp = s.sp ∧ t.pc = s.pc + 1

/-- The frame of an instruction with A and a source operand that changes A, CC and PC only. -/
def CombinesA (o : Operand) (s t : State) : Prop :=
  ReadsOperand o s t ∧ t.x = s.x ∧ t.y = s.y ∧ t.sp = s.sp ∧ t.pc = s.pc + operandLength o

/-- The frame of a push of `v`: one byte at the new SP (10_state.md R36). -/
def PushesByte (v : Byte) (s t : State) : Prop :=
  WritesByte (s.sp - 1) v s t ∧ t.sp = s.sp - 1 ∧ t.a = s.a ∧ t.x = s.x ∧ t.y = s.y ∧ t.cc = s.cc

/-- The frame of a pull: one read at the old SP (R36). -/
def PullsByte (s t : State) : Prop :=
  SameMemory s t ∧ PortsAfterRead (some s.sp) s t ∧ SameInputs s t ∧ t.sp = s.sp + 1

/-- The address and the value of the one byte an instruction writes (20_memory.md R49); none for an instruction that
writes nothing, and for an illegal opcode, whose entry writes five (`entryFrame`). -/
def writtenByte (i : Instr) (s : State) : Option (Byte × Byte) :=
  let modified (op : CC → Byte → Effect) (m : MemForm) : Option (Byte × Byte) :=
    some (formAddress m s, (op s.cc (s.look (formAddress m s))).r)
  match i with
  | .sta m => some (formAddress m s, s.a)
  | .stx m => some (formAddress m s, s.x)
  | .sty m => some (formAddress m s, s.y)
  | .stsp m => some (formAddress m s, s.sp)
  | .clr m => some (formAddress m s, 0)
  | .neg m => modified negEffect m
  | .inc m => modified incEffect m
  | .dec m => modified decEffect m
  | .com m => modified comEffect m
  | .lsl m => modified lslEffect m
  | .lsr m => modified lsrEffect m
  | .asr m => modified asrEffect m
  | .rol m => modified rolEffect m
  | .ror m => modified rorEffect m
  | .psha => some (s.sp - 1, s.a)
  | .pshc => some (s.sp - 1, s.cc.toByte)
  | .pshx => some (s.sp - 1, s.x)
  | .pshy => some (s.sp - 1, s.y)
  | .jsr m => some (s.sp - 1, s.pc + formLength m)
  | .bsr _ => some (s.sp - 1, s.pc + 2)
  | _ => none

/-! ## Flags -/

/-- N and Z are those of a result (10_state.md R26), and I is as before. -/
def FlagsNZ (r : Byte) (s t : State) : Prop :=
  t.cc.n = r.getLsbD 7 ∧ t.cc.z = decide (r = 0) ∧ t.cc.i = s.cc.i

/-- The flag effect LOGIC of a value (R33). -/
def FlagsLogic (r : Byte) (s t : State) : Prop :=
  FlagsNZ r s t ∧ t.cc.v = false ∧ t.cc.c = s.cc.c

/-- A signed result of an operation does not fit in a byte (10_state.md R27, R28). -/
def signedOverflow (n : Int) : Bool := decide (n < -128 ∨ 127 < n)

/-- `r` and the flags of `t` are the sum of `a`, `m` and a carry (R27). -/
def IsSum (a m : Byte) (cin : Bool) (r : Byte) (s t : State) : Prop :=
  r.toNat = (a.toNat + m.toNat + cin.toNat) % 256 ∧ FlagsNZ r s t ∧
    t.cc.c = decide (256 ≤ a.toNat + m.toNat + cin.toNat) ∧
    t.cc.v = signedOverflow (a.toInt + m.toInt + cin.toNat)

/-- `r` and the flags of `t` are the difference of `a`, `m` and a borrow (R28). -/
def IsDifference (a m : Byte) (bin : Bool) (r : Byte) (s t : State) : Prop :=
  (r.toNat : Int) = ((a.toNat : Int) - m.toNat - bin.toNat) % 256 ∧ FlagsNZ r s t ∧
    t.cc.c = decide (a.toNat < m.toNat + bin.toNat) ∧
    t.cc.v = signedOverflow (a.toInt - m.toInt - bin.toNat)

/-- `r` is `m` moved one place left with `d` at bit 0, and the flags of `t` are those of R31. -/
def IsLeftShift (m : Byte) (d : Bool) (r : Byte) (s t : State) : Prop :=
  (∀ k : Nat, k < 7 → r.getLsbD (k + 1) = m.getLsbD k) ∧ r.getLsbD 0 = d ∧ FlagsNZ r s t ∧
    t.cc.c = m.getLsbD 7 ∧ t.cc.v = (t.cc.n ^^ t.cc.c)

/-- `r` is `m` moved one place right with `d` at bit 7, C is the bit shifted out, and V is `v` (R32). -/
def IsRightShift (m : Byte) (d v : Bool) (r : Byte) (s t : State) : Prop :=
  (∀ k : Nat, k < 7 → r.getLsbD k = m.getLsbD (k + 1)) ∧ r.getLsbD 7 = d ∧ FlagsNZ r s t ∧
    t.cc.c = m.getLsbD 0 ∧ t.cc.v = v

/-! ## Branches -/

/-- The branches with their conditions on the flags (42_flow_control.md R143, R146 to R159). -/
def branchConditions (off : Byte) (f : CC) : List (Instr × Prop) :=
  [(.bra off, True),
   (.bmi off, f.n = true), (.bpl off, f.n = false),
   (.beq off, f.z = true), (.bne off, f.z = false),
   (.bvs off, f.v = true), (.bvc off, f.v = false),
   (.bcs off, f.c = true), (.bcc off, f.c = false),
   (.bhi off, f.c = false ∧ f.z = false), (.bls off, f.c = true ∨ f.z = true),
   (.bgt off, f.n = f.v ∧ f.z = false), (.ble off, f.n ≠ f.v ∨ f.z = true),
   (.bge off, f.n = f.v), (.blt off, f.n ≠ f.v)]

/-- The branches that test a relation, with the relation that the source's "Villkorstest" table names after a compare
of `r` with `m` (44_test.md, R148 to R159): unsigned, then signed. -/
def branchRelations (off r m : Byte) : List (Instr × Prop) :=
  [(.beq off, r = m), (.bne off, r ≠ m),
   (.bhi off, m.toNat < r.toNat), (.bcc off, m.toNat ≤ r.toNat),
   (.bcs off, r.toNat < m.toNat), (.bls off, r.toNat ≤ m.toNat),
   (.bgt off, m.toInt < r.toInt), (.bge off, m.toInt ≤ r.toInt),
   (.blt off, r.toInt < m.toInt), (.ble off, r.toInt ≤ m.toInt)]

/-- A branch that jumps exactly if `cond` holds, and changes nothing else (R145). -/
def BranchesIf (i : Instr) (off : Byte) (cond : Prop) (s : State) : Prop :=
  (cond → exec i s = .next { s with pc := s.pc + 2 + off }) ∧
    (¬cond → exec i s = .next { s with pc := s.pc + 2 })

/-! ## The assembler -/

/-- The mnemonics that branch to an address, with the instruction of each (42_flow_control.md R143 to R159), the other
spellings of BCC and BCS among them (30_encoding.md R82). -/
def branchMnemonics : List (String × (Byte → Instr)) :=
  [("BRA", .bra), ("BSR", .bsr), ("BMI", .bmi), ("BPL", .bpl), ("BEQ", .beq), ("BNE", .bne), ("BVS", .bvs),
   ("BVC", .bvc), ("BCS", .bcs), ("BLO", .bcs), ("BCC", .bcc), ("BHS", .bcc), ("BHI", .bhi), ("BLS", .bls),
   ("BGT", .bgt), ("BGE", .bge), ("BLE", .ble), ("BLT", .blt)]

/-- The operand byte of a value: its low 8 bits, for a value that the field accepts (R81). -/
def isValueByte (syms : Symbols) (lo hi : Int) (v : Val) (b : Byte) : Prop :=
  ∃ n : Int, v.eval syms = .ok n ∧ lo ≤ n ∧ n ≤ hi ∧ b = BitVec.ofInt 8 n

/-- The mode and the operand bytes that an operand's notation stands for, at the address `at_` (R64, R81, R83): an `Adr` is
the address itself in the absolute mode, and the offset to it in the relative mode. -/
def NotationGives (syms : Symbols) (at_ : Nat) (mode : ModeCode) (operand : List Byte) : AsmOperand → Prop
  | .none => mode = .ih ∧ operand = []
  | .data v => mode = .im ∧ ∃ b, isValueByte syms (-128) 255 v b ∧ operand = [b]
  | .adr v => ∃ adr, isValueByte syms 0 255 v adr ∧
      ((mode = .ab ∧ operand = [adr]) ∨ (mode = .pc ∧ operand = [branchOperand adr (BitVec.ofNat 8 at_)]))
  | .nSP v => mode = .ns ∧ ∃ b, isValueByte syms (-128) 255 v b ∧ operand = [b]
  | .nX v => mode = .nx ∧ ∃ b, isValueByte syms (-128) 255 v b ∧ operand = [b]
  | .nY v => mode = .ny ∧ ∃ b, isValueByte syms (-128) 255 v b ∧ operand = [b]
  | .byMode m => mode = m ∧ oneByteMode m = true ∧ operand = []

/-! ## Exceptions -/

/-- The stack frame of Trap and IRQ: addresses and contents (60_exceptions.md R274). -/
def entryFrame (savedPC : Byte) (s : State) : List (Byte × Byte) :=
  [(s.sp - 1, savedPC), (s.sp - 2, s.y), (s.sp - 3, s.x), (s.sp - 4, s.a), (s.sp - 5, s.cc.toByte)]

/-- What an entry through a vector does to registers, memory and ports (R274, R276): a frame byte whose address is a
port is sent there, and the vector is read after the frame is written. -/
def EntersThrough (vec savedPC : Byte) (s t : State) : Prop :=
  t.sp = s.sp - 5 ∧ t.a = s.a ∧ t.x = s.x ∧ t.y = s.y ∧
    t.cc = { s.cc with i := true } ∧ t.pc = t.mem.read vec ∧
    (∀ e ∈ entryFrame savedPC s, portAt e.1 = none → t.mem.read e.1 = e.2) ∧
    (∀ b : Byte, (portAt b ≠ none ∨ ∀ e ∈ entryFrame savedPC s, e.1 ≠ b) →
      t.mem.read b = s.mem.read b) ∧
    ∀ p : Port, t.port p =
      match (entryFrame savedPC s).find? (fun e => e.1 == p.address) with
      | some e => (s.port p).afterWrite e.2
      | none => s.port p

/-- The five bytes a frame occupies are memory, none of them a port. -/
def frameInMemory (s : State) : Bool :=
  [1, 2, 3, 4, 5].all fun k => portAt (s.sp - k) == none

/-- No IRQ is taken at this boundary and Reset is not asserted: the step executes an instruction (R270). -/
def State.executes (s : State) : Bool := !s.resetIn && !s.irqAccepted

end Sys2Proof.Machine
end

