-- ==== Sys2Proof/Certificates/Slice0/Obligations.lean ====
section
/-! DEFINITION. The statements for the provers. -/

open Sys2Proof Sys2Proof.Machine

/-! ## Encoding -/

/-- R60 to R66, R79: the bytes of every well-formed instruction decode to it, whatever follows them. -/
def Obligations.DecodeOfEncode : Prop :=
  ∀ (i : Instr) (rest : List Byte), i.wellFormed = true → decode (encode i ++ rest) = .ok (i, rest)

/-- R60 to R67: whatever the decoder reads is well formed, and its encoding is the bytes read. -/
def Obligations.EncodeOfDecode : Prop :=
  ∀ (bytes : List Byte) (i : Instr) (rest : List Byte),
    decode bytes = .ok (i, rest) → i.wellFormed = true ∧ bytes = encode i ++ rest

/-- R67: an opcode byte is read as an illegal opcode exactly if it is one of the six, whatever the byte after it; no
byte value is refused. -/
def Obligations.IllegalOpcodesAreTheSix : Prop :=
  ∀ (op b : Byte) (rest : List Byte),
    (∃ (i : Instr) (rest' : List Byte), decode (op :: b :: rest) = .ok (i, rest')) ∧
      (decode (op :: b :: rest) = .ok (.illegal op, b :: rest) ↔ op ∈ [0x03, 0x04, 0xDF, 0xE0, 0xEF, 0xFF]) ∧
      ∀ (bad : Byte) (rest' : List Byte), decode (op :: b :: rest) = .ok (.illegal bad, rest') → bad = op

/-- R66: one word of each family, written out from the opcode map. -/
def Obligations.SampleWordsDecode : Prop :=
  decodeTableWord 16 0b1000000011110000 = some (.lda (.im 0x80)) ∧
    decodeTableWord 8 0b11101110 = some (.sta .preDecY) ∧
    decodeTableWord 8 0b00011100 = some .tfrXSP ∧
    decodeTableWord 16 0b1111101100100101 = some (.bne 0xFB) ∧
    decodeTableWord 8 0b10000100 = some (.jsr .ay) ∧
    decodeTableWord 16 0b0001000011010011 = some (.sbca (.mem (.ny 0x10))) ∧
    decodeTableWord 16 0b0000001010111100 = some (.cmpx (.mem (.ns 0x02))) ∧
    decodeTableWord 16 0b0001000000000010 = some (.orcc 0x10) ∧
    decodeTableWord 8 0b01101111 = some (.asr .ax) ∧
    decodeTableWord 8 0b00010011 = some .pshc ∧
    decodeTableWord 8 0b11111111 = some (.illegal 0xFF)

/-! ## The step -/

/-- R62, R270: where no Reset and no IRQ is taken, the step is `exec` of the instruction whose bytes stand at PC, at
the state after the boundary's sample and the one or two fetches, with the ghost cycles counted. -/
def Obligations.StepRunsDecodedInstruction : Prop :=
  ∀ (s : State) (i : Instr), s.executes = true →
    (decode [s.look s.pc] = .ok (i, []) →
      step s = exec i ((s.passBoundary.touch s.pc).countCycles i)) ∧
    (decode [s.look s.pc, s.look (s.pc + 1)] = .ok (i, []) →
      step s = exec i (((s.passBoundary.touch s.pc).touch (s.pc + 1)).countCycles i))

/-- R270, R272: every step answers a next state: no fault, no refusal, no halt. -/
def Obligations.StepAlwaysCompletes : Prop := ∀ s : State, ∃ t, step s = .next t

/-- R34, R62: an instruction that is no control transfer completes in every state, with PC at the address after it:
as many bytes on as its encoding has, modulo 256. -/
def Obligations.SequentialInstructionsAdvance : Prop :=
  ∀ (i : Instr) (s : State), i.wellFormed = true → i.isTransfer = false →
    ∃ t, exec i s = .next t ∧ t.pc = s.pc + BitVec.ofNat 8 (encode i).length

/-- R37, R46: every step keeps memory in its canonical form, with no cell at a port. -/
def Obligations.InvariantKeptByStep : Prop :=
  ∀ s t : State, s.inv = true → step s = .next t → t.inv = true

/-- The invariant holds after Reset. -/
def Obligations.InvariantAtReset : Prop := State.reset.inv = true

/-! ## Memory, ports and addressing -/

/-- R45, R46: a write to a port's address is appended to that port's output and changes no memory; any other write
changes the byte at its address and no other, vectors included. -/
def Obligations.WriteGoesToMemoryOrPort : Prop :=
  ∀ (s : State) (addr v : Byte), WritesByte addr v s (s.store addr v)

/-- R44, R46: a read of memory returns the byte held there and changes nothing; a read of a port returns its next
input, whatever was written, and the read after it returns the input after that. -/
def Obligations.ReadComesFromMemoryOrPort : Prop :=
  ∀ (s : State) (addr : Byte),
    (portAt addr = none → s.look addr = s.mem.read addr ∧ s.touch addr = s) ∧
    ∀ p : Port, addr = p.address →
      (∀ (b : Byte) (bs : List Byte), (s.port p).input = b :: bs →
        s.look addr = b ∧ ((s.touch addr).port p).input = bs) ∧
      ((s.port p).input = [] →
        s.look addr = Config.portIn addr (s.port p).reads ∧
          (s.touch addr).look addr = Config.portIn addr ((s.port p).reads + 1)) ∧
      SameMemory s (s.touch addr) ∧ ((s.touch addr).port p).output = (s.port p).output ∧
      ∀ v : Byte, (s.store addr v).look addr = s.look addr

/-- R72 to R78: the effective address of every form, modulo 256, and what the two index steps of the form, before the
access and after it, leave in X and Y. -/
def Obligations.EffectiveAddresses : Prop :=
  (∀ (s : State) (n : Byte),
    (formAddress (.ab n) s = n ∧ formAddress (.ns n) s = s.sp + n ∧ formAddress (.nx n) s = s.x + n ∧
      formAddress (.ny n) s = s.y + n ∧ formAddress .ax s = s.x + s.a ∧ formAddress .ay s = s.y + s.a) ∧
    ∀ m ∈ [MemForm.ab n, .ns n, .nx n, .ny n, .ax, .ay], postIndex m (preIndex m s) = s) ∧
  ∀ s : State,
    (∀ e ∈ [(MemForm.preIncX, s.x + 1, s.x + 1), (.preDecX, s.x - 1, s.x - 1), (.postIncX, s.x, s.x + 1),
        (.postDecX, s.x, s.x - 1)],
      formAddress e.1 s = e.2.1 ∧ postIndex e.1 (preIndex e.1 s) = { s with x := e.2.2 }) ∧
    ∀ e ∈ [(MemForm.preIncY, s.y + 1, s.y + 1), (.preDecY, s.y - 1, s.y - 1), (.postIncY, s.y, s.y + 1),
        (.postDecY, s.y, s.y - 1)],
      formAddress e.1 s = e.2.1 ∧ postIndex e.1 (preIndex e.1 s) = { s with y := e.2.2 }

/-- R54: a byte that an instruction stores in memory is what the next fetch decodes, as the opcode or as the operand byte:
for every store, read-modify-write, push and call, in every form. -/
def Obligations.StoreIsSeenByNextFetch : Prop :=
  ∀ (i : Instr) (s : State) (ea v : Byte),
    i.wellFormed = true → writtenByte i s = some (ea, v) → portAt ea = none →
      ∃ t, exec i s = .next t ∧ t.look ea = v ∧
        (i.isTransfer = false → t.pc = s.pc + BitVec.ofNat 8 (encode i).length) ∧
        (ea = t.pc → ∀ (j : Instr) (rest : List Byte),
          decode [v, t.look (t.pc + 1)] = .ok (j, rest) → t.fetch.instr = j) ∧
        (ea = t.pc + 1 → ∀ (j : Instr) (rest : List Byte),
          decode [s.look t.pc, v] = .ok (j, rest) → t.fetch.instr = j)

/-! ## Flag functions -/

/-- R27: `ADD8`, with both forms of V. -/
def Obligations.AdditionFunction : Prop :=
  ∀ (a m : Byte) (cin : Bool) (f : CC),
    (add8 a m cin).r.toNat = (a.toNat + m.toNat + cin.toNat) % 256 ∧
      (add8 a m cin).c = decide (256 ≤ a.toNat + m.toNat + cin.toNat) ∧
      ((add8 a m cin).v = true ↔
        a.getLsbD 7 = m.getLsbD 7 ∧ (add8 a m cin).r.getLsbD 7 ≠ a.getLsbD 7) ∧
      (add8 a m cin).v = signedOverflow (a.toInt + m.toInt + cin.toNat) ∧
      (f.withNZVC (add8 a m cin)).n = (add8 a m cin).r.getLsbD 7 ∧
      (f.withNZVC (add8 a m cin)).z = decide ((add8 a m cin).r = 0)

/-- R28: `SUB8`, with both forms of V and of C, and the difference as the hardware forms it. -/
def Obligations.SubtractionFunction : Prop :=
  ∀ (a m : Byte) (bin : Bool) (f : CC),
    ((sub8 a m bin).r.toNat : Int) = ((a.toNat : Int) - m.toNat - bin.toNat) % 256 ∧
      (sub8 a m bin).c = decide ((a.toNat : Int) - m.toNat - bin.toNat < 0) ∧
      (sub8 a m bin).c = decide (a.toNat < m.toNat + bin.toNat) ∧
      ((sub8 a m bin).v = true ↔
        a.getLsbD 7 ≠ m.getLsbD 7 ∧ (sub8 a m bin).r.getLsbD 7 ≠ a.getLsbD 7) ∧
      (sub8 a m bin).v = signedOverflow (a.toInt - m.toInt - bin.toNat) ∧
      (sub8 a m bin).r = (add8 a (~~~m) (!bin)).r ∧ (sub8 a m bin).c = !(add8 a (~~~m) (!bin)).c ∧
      (f.withNZVC (sub8 a m bin)).n = (sub8 a m bin).r.getLsbD 7 ∧
      (f.withNZVC (sub8 a m bin)).z = decide ((sub8 a m bin).r = 0)

/-- R29, R30: `INC8` and `DEC8`, with C left as it is, and `NEG8`, which equals `SUB8(0, m, 0)`. -/
def Obligations.StepByOneAndNegationFunctions : Prop :=
  (∀ (f : CC) (m : Byte),
    (incEffect f m).r.toNat = (m.toNat + 1) % 256 ∧
      (incEffect f m).cc = { f with
        n := (incEffect f m).r.getLsbD 7
        z := decide ((incEffect f m).r = 0)
        v := decide (m = 0x7F) } ∧
      (decEffect f m).r.toNat = (if m = 0 then 255 else m.toNat - 1) ∧
      (decEffect f m).cc = { f with
        n := (decEffect f m).r.getLsbD 7
        z := decide ((decEffect f m).r = 0)
        v := decide (m = 0x80) }) ∧
  ∀ (f : CC) (m : Byte),
    (negEffect f m).r.toNat = (if m = 0 then 0 else 256 - m.toNat) ∧
      (negEffect f m).cc = { f with
        n := (negEffect f m).r.getLsbD 7
        z := decide ((negEffect f m).r = 0)
        v := decide (m = 0x80)
        c := decide (m ≠ 0) } ∧
      neg8 m = sub8 0 m false

/-- R31, R32: `SHL8`, with V as N ^ C after the shift, which is bit 6 ^ bit 7 of the operand; `SHR8`, with V set where the
shift changes bit 7; and `ASR8`. -/
def Obligations.ShiftFunctions : Prop :=
  (∀ (f : CC) (m : Byte) (d : Bool),
    (shl8 m d).r = (m <<< 1 ||| BitVec.ofNat 8 d.toNat) ∧
      f.withNZVC (shl8 m d) = { f with
        n := (shl8 m d).r.getLsbD 7
        z := decide ((shl8 m d).r = 0)
        v := (shl8 m d).r.getLsbD 7 ^^ m.getLsbD 7
        c := m.getLsbD 7 } ∧
      (shl8 m d).v = (m.getLsbD 6 ^^ m.getLsbD 7)) ∧
  ∀ (f : CC) (m : Byte) (d : Bool),
    (shr8 m d).r = (m >>> 1 ||| BitVec.ofNat 8 d.toNat <<< 7) ∧
      f.withNZVC (shr8 m d) = { f with
        n := d
        z := decide ((shr8 m d).r = 0)
        v := d ^^ m.getLsbD 7
        c := m.getLsbD 0 } ∧
      ((shr8 m d).v = true ↔ (shr8 m d).r.getLsbD 7 ≠ m.getLsbD 7) ∧
      (asr8 m).r = (m >>> 1 ||| (m &&& 0x80)) ∧
      (asr8 m).r.getLsbD 7 = m.getLsbD 7 ∧ (asr8 m).r.getLsbD 6 = m.getLsbD 7 ∧
      f.withNZVC (asr8 m) = { f with
        n := (asr8 m).r.getLsbD 7
        z := decide ((asr8 m).r = 0)
        v := false
        c := m.getLsbD 0 }

/-! ## Load and store -/

/-- R100 to R103: LDA in its fifteen forms, LDX, LDY, LDSP in their five. -/
def Obligations.LoadsTakeTheOperand : Prop :=
  (∀ (o : Operand) (s : State), ∃ t, exec (.lda o) s = .next t ∧
    t.a = operandValue o s ∧ FlagsLogic (operandValue o s) s t ∧
    t.x = operandX o s.x ∧ t.y = operandY o s.y ∧ t.sp = s.sp ∧ t.pc = s.pc + operandLength o ∧
    ReadsOperand o s t) ∧
  ∀ (o : Operand) (s : State), o.isData = true →
    (∃ t, exec (.ldx o) s = .next t ∧ t.x = operandValue o s ∧ FlagsLogic (operandValue o s) s t ∧
      t.a = s.a ∧ t.y = s.y ∧ t.sp = s.sp ∧ t.pc = s.pc + operandLength o ∧ ReadsOperand o s t) ∧
    (∃ t, exec (.ldy o) s = .next t ∧ t.y = operandValue o s ∧ FlagsLogic (operandValue o s) s t ∧
      t.a = s.a ∧ t.x = s.x ∧ t.sp = s.sp ∧ t.pc = s.pc + operandLength o ∧ ReadsOperand o s t) ∧
    (∃ t, exec (.ldsp o) s = .next t ∧ t.sp = operandValue o s ∧ FlagsLogic (operandValue o s) s t ∧
      t.a = s.a ∧ t.x = s.x ∧ t.y = s.y ∧ t.pc = s.pc + operandLength o ∧ ReadsOperand o s t)

/-- R104 to R106: LEAX, LEAY, LEASP take the address itself; no byte is read, no flag changes. -/
def Obligations.LeaTakesTheAddress : Prop :=
  ∀ (n : Byte) (s : State),
    exec (.leax (.nx n)) s = .next { s with x := s.x + n, pc := s.pc + 2 } ∧
    exec (.leax (.ns n)) s = .next { s with x := s.sp + n, pc := s.pc + 2 } ∧
    exec (.leay (.ny n)) s = .next { s with y := s.y + n, pc := s.pc + 2 } ∧
    exec (.leay (.ns n)) s = .next { s with y := s.sp + n, pc := s.pc + 2 } ∧
    exec (.leasp (.ns n)) s = .next { s with sp := s.sp + n, pc := s.pc + 2 } ∧
    exec (.leasp (.nx n)) s = .next { s with sp := s.x + n, pc := s.pc + 2 } ∧
    exec (.leasp (.ny n)) s = .next { s with sp := s.y + n, pc := s.pc + 2 }

/-- R107 to R110: STA in its fourteen forms, STX, STY, STSP in their six: the register at the effective address, the index
register of an auto form updated, nothing else. -/
def Obligations.StoresWriteTheRegister : Prop :=
  (∀ (m : MemForm) (s : State), ∃ t, exec (.sta m) s = .next t ∧
    WritesByte (formAddress m s) s.a s t ∧
    t.a = s.a ∧ t.x = formX m s.x ∧ t.y = formY m s.y ∧ t.sp = s.sp ∧ t.cc = s.cc ∧
    t.pc = s.pc + formLength m) ∧
  ∀ (m : MemForm) (s : State), m.isPlain = true →
    ∀ e ∈ [(Instr.stx m, s.x), (Instr.sty m, s.y), (Instr.stsp m, s.sp)],
      ∃ t, exec e.1 s = .next t ∧ WritesByte (formAddress m s) e.2 s t ∧
        t.a = s.a ∧ t.x = s.x ∧ t.y = s.y ∧ t.sp = s.sp ∧ t.cc = s.cc ∧ t.pc = s.pc + formLength m

/-! ## Data movement -/

/-- R122 to R127, R129 to R131: the transfers and exchanges of X, Y and SP. -/
def Obligations.TransfersAndExchanges : Prop :=
  ∀ s : State,
    exec .tfrXY s = .next { s with y := s.x, pc := s.pc + 1 } ∧
    exec .tfrYX s = .next { s with x := s.y, pc := s.pc + 1 } ∧
    exec .tfrXSP s = .next { s with sp := s.x, pc := s.pc + 1 } ∧
    exec .tfrSPX s = .next { s with x := s.sp, pc := s.pc + 1 } ∧
    exec .tfrYSP s = .next { s with sp := s.y, pc := s.pc + 1 } ∧
    exec .tfrSPY s = .next { s with y := s.sp, pc := s.pc + 1 } ∧
    exec .exgXY s = .next { s with x := s.y, y := s.x, pc := s.pc + 1 } ∧
    exec .exgXSP s = .next { s with x := s.sp, sp := s.x, pc := s.pc + 1 } ∧
    exec .exgYSP s = .next { s with y := s.sp, sp := s.y, pc := s.pc + 1 }

/-- R120, R121, R128: the moves between A and CC, bit by bit. -/
def Obligations.MovesBetweenAAndCC : Prop :=
  ∀ s : State,
    exec .tfrACC s = .next { s with
      cc := ⟨s.a.getLsbD 4, s.a.getLsbD 3, s.a.getLsbD 2, s.a.getLsbD 1, s.a.getLsbD 0⟩
      pc := s.pc + 1 } ∧
    (∃ t, exec .tfrCCA s = .next t ∧ t = { s with a := t.a, pc := s.pc + 1 } ∧
      t.a.toNat = 16 * s.cc.i.toNat + 8 * s.cc.n.toNat + 4 * s.cc.z.toNat + 2 * s.cc.v.toNat + s.cc.c.toNat) ∧
    ∃ t, exec .exgACC s = .next t ∧ t = { s with a := t.a, cc := t.cc, pc := s.pc + 1 } ∧
      t.a.toNat = 16 * s.cc.i.toNat + 8 * s.cc.n.toNat + 4 * s.cc.z.toNat + 2 * s.cc.v.toNat + s.cc.c.toNat ∧
      t.cc = ⟨s.a.getLsbD 4, s.a.getLsbD 3, s.a.getLsbD 2, s.a.getLsbD 1, s.a.getLsbD 0⟩

/-! ## Flow control -/

/-- R141: JMP puts the effective address itself into PC. -/
def Obligations.JmpGoesToTheAddress : Prop :=
  ∀ (n : Byte) (s : State),
    exec (.jmp (.ab n)) s = .next { s with pc := n } ∧
    exec (.jmp (.nx n)) s = .next { s with pc := s.x + n } ∧
    exec (.jmp .ax) s = .next { s with pc := s.x + s.a } ∧
    exec (.jmp (.ny n)) s = .next { s with pc := s.y + n } ∧
    exec (.jmp .ay) s = .next { s with pc := s.y + s.a }

/-- R142, R144: JSR and BSR push the address after them, one byte, and jump. -/
def Obligations.CallsPushTheReturnAddress : Prop :=
  (∀ (m : MemForm) (s : State), m.isTarget = true →
    ∃ t, exec (.jsr m) s = .next t ∧ PushesByte (s.pc + formLength m) s t ∧ t.pc = formAddress m s) ∧
  ∀ (off : Byte) (s : State),
    ∃ t, exec (.bsr off) s = .next t ∧ PushesByte (s.pc + 2) s t ∧ t.pc = s.pc + 2 + off

/-- R143, R145 to R159: BRA and the fourteen conditional branches. -/
def Obligations.BranchesFollowTheirCondition : Prop :=
  ∀ (off : Byte) (s : State), ∀ e ∈ branchConditions off s.cc, BranchesIf e.1 off e.2 s

/-- R83, R73: for every branch mnemonic, every address `Adr` and every place `a` of the branch, the assembler emits the
branch with the operand `(Adr - (a + 2)) mod 256`, and the branch, where it is taken, goes to `Adr`. -/
def Obligations.BranchReachesEveryAddress : Prop :=
  ∀ (syms : Symbols) (adr : Val) (target : Byte) (s : State), adr.eval syms = .ok (target.toNat : Int) →
    (∀ e ∈ branchMnemonics, ∃ (op off : Byte), instrBytes syms s.pc.toNat e.1 (.adr adr) = .ok [op, off] ∧
      decode [op, off] = .ok (e.2 off, []) ∧ off = branchOperand target s.pc ∧
      (off.toNat : Int) = ((target.toNat : Int) - (s.pc.toNat + 2)) % 256) ∧
    (∀ e ∈ branchConditions (branchOperand target s.pc) s.cc,
      e.2 → exec e.1 s = .next { s with pc := target }) ∧
    ∃ t, exec (.bsr (branchOperand target s.pc)) s = .next t ∧ t.pc = target

/-- R160: RTS pulls PC. -/
def Obligations.RtsPullsPC : Prop :=
  ∀ s : State, ∃ t, exec .rts s = .next t ∧ t.pc = s.look s.sp ∧ PullsByte s t ∧
    t.a = s.a ∧ t.x = s.x ∧ t.y = s.y ∧ t.cc = s.cc

/-- R161: RTI pulls CC, A, X, Y and PC: five reads at SP..SP+4, SP five higher. -/
def Obligations.RtiPullsFiveBytes : Prop :=
  ∀ s : State, ∃ t, exec .rti s = .next t ∧
    t.cc = ⟨(s.look s.sp).getLsbD 4, (s.look s.sp).getLsbD 3, (s.look s.sp).getLsbD 2,
      (s.look s.sp).getLsbD 1, (s.look s.sp).getLsbD 0⟩ ∧
    t.a = s.look (s.sp + 1) ∧ t.x = s.look (s.sp + 2) ∧ t.y = s.look (s.sp + 3) ∧
    t.pc = s.look (s.sp + 4) ∧ t.sp = s.sp + 5 ∧ SameMemory s t ∧ SameInputs s t ∧
    ∀ p : Port, t.port p =
      if p.address ∈ [s.sp, s.sp + 1, s.sp + 2, s.sp + 3, s.sp + 4] then (s.port p).afterRead
      else s.port p

/-! ## Arithmetic -/

/-- R170, R171: ADDA and ADCA. -/
def Obligations.AddaAdcaAdd : Prop :=
  ∀ (o : Operand) (s : State), o.isData = true →
    (∃ t, exec (.adda o) s = .next t ∧ IsSum s.a (operandValue o s) false t.a s t ∧ CombinesA o s t) ∧
    ∃ t, exec (.adca o) s = .next t ∧ IsSum s.a (operandValue o s) s.cc.c t.a s t ∧ CombinesA o s t

/-- R172, R173: SUBA and SBCA. -/
def Obligations.SubaSbcaSubtract : Prop :=
  ∀ (o : Operand) (s : State), o.isData = true →
    (∃ t, exec (.suba o) s = .next t ∧ IsDifference s.a (operandValue o s) false t.a s t ∧ CombinesA o s t) ∧
    ∃ t, exec (.sbca o) s = .next t ∧ IsDifference s.a (operandValue o s) s.cc.c t.a s t ∧ CombinesA o s t

/-- R171, R173: two additions, the second with the carry of the first, add 16-bit numbers, and two subtractions subtract
them; the last C is the carry or borrow of the whole. -/
def Obligations.TwoByteSumAndDifference : Prop :=
  ∀ (s : State) (low : Byte),
    (∃ t, exec (.adda (.im low)) s = .next t ∧ ∀ (u : State) (high : Byte), u.cc.c = t.cc.c →
      ∃ w, exec (.adca (.im high)) u = .next w ∧
        256 * w.a.toNat + t.a.toNat =
          ((256 * u.a.toNat + s.a.toNat) + (256 * high.toNat + low.toNat)) % 65536 ∧
        w.cc.c = decide (65536 ≤ (256 * u.a.toNat + s.a.toNat) + (256 * high.toNat + low.toNat))) ∧
    ∃ t, exec (.suba (.im low)) s = .next t ∧ ∀ (u : State) (high : Byte), u.cc.c = t.cc.c →
      ∃ w, exec (.sbca (.im high)) u = .next w ∧
        256 * (w.a.toNat : Int) + t.a.toNat =
          ((256 * (u.a.toNat : Int) + s.a.toNat) - (256 * high.toNat + low.toNat)) % 65536 ∧
        w.cc.c = decide (256 * u.a.toNat + s.a.toNat < 256 * high.toNat + low.toNat)

/-- R174, R175: CLRA and CLR: zero, with N, Z, V, C = 0, 1, 0, 0; CLR makes one write and no read. -/
def Obligations.ClearWritesZero : Prop :=
  (∀ s : State, exec .clra s = .next { s with a := 0, cc := ⟨s.cc.i, false, true, false, false⟩, pc := s.pc + 1 }) ∧
  ∀ (m : MemForm) (s : State), m.isPlain = true → ∃ t, exec (.clr m) s = .next t ∧
    WritesByte (formAddress m s) 0 s t ∧ t.cc = ⟨s.cc.i, false, true, false, false⟩ ∧
    t.a = s.a ∧ t.x = s.x ∧ t.y = s.y ∧ t.sp = s.sp ∧ t.pc = s.pc + formLength m

/-- R176, R177, R205, R206: NEGA, NEG, COMA and COM. -/
def Obligations.NegateAndComplement : Prop :=
  ((∀ s : State, ∃ t, exec .nega s = .next t ∧ t.a = 0 - s.a ∧ FlagsNZ t.a s t ∧
    t.cc.v = decide (s.a = 0x80) ∧ t.cc.c = decide (s.a ≠ 0) ∧ ModifiesA s t) ∧
  ∀ (m : MemForm) (s : State), m.isPlain = true → ∃ t, exec (.neg m) s = .next t ∧
    FlagsNZ (0 - s.look (formAddress m s)) s t ∧
    t.cc.v = decide (s.look (formAddress m s) = 0x80) ∧ t.cc.c = decide (s.look (formAddress m s) ≠ 0) ∧
    ModifiesByte m (0 - s.look (formAddress m s)) s t) ∧
  (∀ s : State, ∃ t, exec .coma s = .next t ∧ t.a = s.a ^^^ 0xFF ∧ FlagsLogic t.a s t ∧ ModifiesA s t) ∧
  ∀ (m : MemForm) (s : State), m.isPlain = true → ∃ t, exec (.com m) s = .next t ∧
    FlagsLogic (s.look (formAddress m s) ^^^ 0xFF) s t ∧
    ModifiesByte m (s.look (formAddress m s) ^^^ 0xFF) s t

/-- R178 to R181: DECA, DEC, INCA, INC: C is kept. -/
def Obligations.IncrementAndDecrement : Prop :=
  (∀ s : State,
    (∃ t, exec .inca s = .next t ∧ t.a = s.a + 1 ∧ FlagsNZ t.a s t ∧ t.cc.v = decide (s.a = 0x7F) ∧
      t.cc.c = s.cc.c ∧ ModifiesA s t) ∧
    ∃ t, exec .deca s = .next t ∧ t.a = s.a - 1 ∧ FlagsNZ t.a s t ∧ t.cc.v = decide (s.a = 0x80) ∧
      t.cc.c = s.cc.c ∧ ModifiesA s t) ∧
  ∀ (m : MemForm) (s : State), m.isPlain = true →
    (∃ t, exec (.inc m) s = .next t ∧ FlagsNZ (s.look (formAddress m s) + 1) s t ∧
      t.cc.v = decide (s.look (formAddress m s) = 0x7F) ∧ t.cc.c = s.cc.c ∧
      ModifiesByte m (s.look (formAddress m s) + 1) s t) ∧
    ∃ t, exec (.dec m) s = .next t ∧ FlagsNZ (s.look (formAddress m s) - 1) s t ∧
      t.cc.v = decide (s.look (formAddress m s) = 0x80) ∧ t.cc.c = s.cc.c ∧
      ModifiesByte m (s.look (formAddress m s) - 1) s t

/-! ## Test -/

/-- R190 to R193: the compares set the flags of the difference and change no register but PC. -/
def Obligations.ComparesSetTheFlags : Prop :=
  ∀ (o : Operand) (s : State),
    ∀ e ∈ [(Instr.cmpa o, s.a), (Instr.cmpx o, s.x), (Instr.cmpy o, s.y), (Instr.cmpsp o, s.sp)],
      e.1.wellFormed = true →
        ∃ (t : State) (r : Byte), exec e.1 s = .next t ∧ IsDifference e.2 (operandValue o s) false r s t ∧
          CombinesA o s t ∧ t.a = s.a

/-- R190 to R193, R148 to R159: after a compare of a register with an operand, each branch of the source's
"Villkorstest" table jumps exactly if its relation holds between the two, unsigned or signed. -/
def Obligations.CompareThenBranch : Prop :=
  ∀ (o : Operand) (off : Byte) (s : State),
    ∀ e ∈ [(Instr.cmpa o, s.a), (Instr.cmpx o, s.x), (Instr.cmpy o, s.y), (Instr.cmpsp o, s.sp)],
      e.1.wellFormed = true →
        ∃ t, exec e.1 s = .next t ∧
          ∀ b ∈ branchRelations off e.2 (operandValue o s), BranchesIf b.1 off b.2 t

/-- R194 to R196: BITA, TSTA and TST set flags only. -/
def Obligations.TestsSetTheFlags : Prop :=
  (∀ (o : Operand) (s : State), o.isData = true → ∃ t, exec (.bita o) s = .next t ∧
    FlagsLogic (s.a &&& operandValue o s) s t ∧ CombinesA o s t ∧ t.a = s.a) ∧
  (∀ s : State, exec .tsta s = .next { s with
    cc := ⟨s.cc.i, s.a.getLsbD 7, decide (s.a = 0), false, false⟩
    pc := s.pc + 1 }) ∧
  ∀ (m : MemForm) (s : State), m.isPlain = true → ∃ t, exec (.tst m) s = .next t ∧
    FlagsNZ (s.look (formAddress m s)) s t ∧ t.cc.v = false ∧ t.cc.c = false ∧
    ReadsOperand (.mem m) s t ∧
    t.a = s.a ∧ t.x = s.x ∧ t.y = s.y ∧ t.sp = s.sp ∧ t.pc = s.pc + formLength m

/-! ## Logic -/

/-- R200 to R202: ANDA, ORA, EORA. -/
def Obligations.LogicOnA : Prop :=
  ∀ (o : Operand) (s : State), o.isData = true →
    ∀ e ∈ [(Instr.anda o, s.a &&& operandValue o s), (Instr.ora o, s.a ||| operandValue o s),
        (Instr.eora o, s.a ^^^ operandValue o s)],
      ∃ t, exec e.1 s = .next t ∧ t.a = e.2 ∧ FlagsLogic e.2 s t ∧ CombinesA o s t

/-- R203, R204: ANDCC and ORCC, flag by flag. -/
def Obligations.LogicOnCC : Prop :=
  ∀ (d : Byte) (s : State),
    exec (.andcc d) s = .next { s with
      cc := ⟨s.cc.i && d.getLsbD 4, s.cc.n && d.getLsbD 3, s.cc.z && d.getLsbD 2, s.cc.v && d.getLsbD 1,
        s.cc.c && d.getLsbD 0⟩
      pc := s.pc + 2 } ∧
    exec (.orcc d) s = .next { s with
      cc := ⟨s.cc.i || d.getLsbD 4, s.cc.n || d.getLsbD 3, s.cc.z || d.getLsbD 2, s.cc.v || d.getLsbD 1,
        s.cc.c || d.getLsbD 0⟩
      pc := s.pc + 2 }

/-! ## Shift and rotate -/

/-- R210, R212, R214, R216, R218: the shifts and rotates of A. -/
def Obligations.ShiftsOfA : Prop :=
  ∀ s : State,
    (∃ t, exec .lsla s = .next t ∧ IsLeftShift s.a false t.a s t ∧ ModifiesA s t) ∧
    (∃ t, exec .rola s = .next t ∧ IsLeftShift s.a s.cc.c t.a s t ∧ ModifiesA s t) ∧
    (∃ t, exec .lsra s = .next t ∧ IsRightShift s.a false (s.a.getLsbD 7) t.a s t ∧ ModifiesA s t) ∧
    (∃ t, exec .rora s = .next t ∧ IsRightShift s.a s.cc.c (s.cc.c ^^ s.a.getLsbD 7) t.a s t ∧
      ModifiesA s t) ∧
    ∃ t, exec .asra s = .next t ∧ IsRightShift s.a (s.a.getLsbD 7) false t.a s t ∧ ModifiesA s t

/-- R211, R213, R215, R217, R219: the shifts and rotates of a memory byte. -/
def Obligations.ShiftsOfMemory : Prop :=
  ∀ (m : MemForm) (s : State) (old : Byte), m.isPlain = true → old = s.look (formAddress m s) →
    (∃ t r, exec (.lsl m) s = .next t ∧ IsLeftShift old false r s t ∧ ModifiesByte m r s t) ∧
    (∃ t r, exec (.rol m) s = .next t ∧ IsLeftShift old s.cc.c r s t ∧ ModifiesByte m r s t) ∧
    (∃ t r, exec (.lsr m) s = .next t ∧ IsRightShift old false (old.getLsbD 7) r s t ∧ ModifiesByte m r s t) ∧
    (∃ t r, exec (.ror m) s = .next t ∧ IsRightShift old s.cc.c (s.cc.c ^^ old.getLsbD 7) r s t ∧
      ModifiesByte m r s t) ∧
    ∃ t r, exec (.asr m) s = .next t ∧ IsRightShift old (old.getLsbD 7) false r s t ∧ ModifiesByte m r s t

/-- R216, R218: A and C are a ring of nine bits: nine rotations, left or right, bring both back. -/
def Obligations.NineRotationsRestore : Prop :=
  ∀ s : State,
    (∃ t, execTimes .rola 9 s = .next t ∧ t.a = s.a ∧ t.cc.c = s.cc.c ∧ t.pc = s.pc + 9) ∧
    ∃ t, execTimes .rora 9 s = .next t ∧ t.a = s.a ∧ t.cc.c = s.cc.c ∧ t.pc = s.pc + 9

/-! ## Stack -/

/-- R230 to R233: the pushes. -/
def Obligations.PushesWriteOneByte : Prop :=
  ∀ s : State, ∀ e ∈ [(Instr.psha, s.a), (Instr.pshc, s.cc.toByte), (Instr.pshx, s.x), (Instr.pshy, s.y)],
    ∃ t, exec e.1 s = .next t ∧ PushesByte e.2 s t ∧ t.pc = s.pc + 1

/-- R234 to R237: the pulls. -/
def Obligations.PullsReadOneByte : Prop :=
  ∀ s : State,
    (∃ t, exec .pula s = .next t ∧ PullsByte s t ∧ t.a = s.look s.sp ∧
      t.x = s.x ∧ t.y = s.y ∧ t.cc = s.cc ∧ t.pc = s.pc + 1) ∧
    (∃ t, exec .pulx s = .next t ∧ PullsByte s t ∧ t.x = s.look s.sp ∧
      t.a = s.a ∧ t.y = s.y ∧ t.cc = s.cc ∧ t.pc = s.pc + 1) ∧
    (∃ t, exec .puly s = .next t ∧ PullsByte s t ∧ t.y = s.look s.sp ∧
      t.a = s.a ∧ t.x = s.x ∧ t.cc = s.cc ∧ t.pc = s.pc + 1) ∧
    ∃ t, exec .pulc s = .next t ∧ PullsByte s t ∧
      t.cc = ⟨(s.look s.sp).getLsbD 4, (s.look s.sp).getLsbD 3, (s.look s.sp).getLsbD 2,
        (s.look s.sp).getLsbD 1, (s.look s.sp).getLsbD 0⟩ ∧
      t.a = s.a ∧ t.x = s.x ∧ t.y = s.y ∧ t.pc = s.pc + 1

/-- R36, R142, R144, R160, R230 to R237: a pull after a push through memory gives the value back and SP as it was: to the
same register, CC with I, or from X to Y; and an RTS after a JSR or BSR goes back to the instruction after the call, with
SP, the registers and the flags as before. -/
def Obligations.StackGivesBackWhatItTook : Prop :=
  (∀ s : State, portAt (s.sp - 1) = none →
    (∃ t u, exec .psha s = .next t ∧ exec .pula t = .next u ∧ u.a = s.a ∧ u.sp = s.sp) ∧
    (∃ t u, exec .pshx s = .next t ∧ exec .pulx t = .next u ∧ u.x = s.x ∧ u.sp = s.sp) ∧
    (∃ t u, exec .pshy s = .next t ∧ exec .puly t = .next u ∧ u.y = s.y ∧ u.sp = s.sp) ∧
    (∃ t u, exec .pshc s = .next t ∧ exec .pulc t = .next u ∧ u.cc = s.cc ∧ u.sp = s.sp) ∧
    ∃ t u, exec .pshx s = .next t ∧ exec .puly t = .next u ∧ u.y = s.x ∧ u.x = s.x ∧ u.sp = s.sp) ∧
  ∀ (s : State), portAt (s.sp - 1) = none →
    (∀ m : MemForm, m.isTarget = true → ∃ t u, exec (.jsr m) s = .next t ∧ exec .rts t = .next u ∧
      u.pc = s.pc + formLength m ∧ u.sp = s.sp ∧ u.a = s.a ∧ u.x = s.x ∧ u.y = s.y ∧ u.cc = s.cc) ∧
    ∀ off : Byte, ∃ t u, exec (.bsr off) s = .next t ∧ exec .rts t = .next u ∧
      u.pc = s.pc + 2 ∧ u.sp = s.sp ∧ u.a = s.a ∧ u.x = s.x ∧ u.y = s.y ∧ u.cc = s.cc

/-! ## NOP -/

/-- R240: NOP is opcode $00, one byte, two cycles, and only PC advances, by one. -/
def Obligations.NopOnlyAdvances : Prop :=
  (∀ rest : List Byte, decode (0x00 :: rest) = .ok (.nop, rest)) ∧ instrCycles .nop = some 2 ∧
    ∀ s : State, exec .nop s = .next { s with pc := s.pc + 1 }

/-! ## Exceptions and Reset -/

/-- R273, R274, R276: an illegal opcode at PC takes the Trap: `Entry($FE)` with the address after the opcode saved. The
frame and the setting of I are the spec's decisions D6 and D7 (log 12). -/
def Obligations.IllegalOpcodeTakesTrap : Prop :=
  ∀ (op : Byte) (s : State), ∃ t, exec (.illegal op) s = .next t ∧
    EntersThrough 0xFE (s.pc + 1) s t ∧ SameInputs s t

/-- R275, R274, R276: an accepted IRQ: `Entry($FD)` with the address of the instruction not executed saved. The frame and
the setting of I are the spec's decisions D6 and D7 (log 12); that one interrupt sample is used up and one boundary
counted (log 5), and that an entry adds no cycles (log 7), are the model's choices. -/
def Obligations.AcceptedIrqIsTaken : Prop :=
  ∀ s : State, s.resetIn = false → s.cc.i = false → s.irqSample = true →
    ∃ t, step s = .next t ∧ EntersThrough 0xFD s.pc s t ∧
      t.irqIn = s.irqIn.tail ∧ t.boundaries = s.boundaries + 1 ∧ t.resetIn = false ∧ t.resets = s.resets ∧
      t.cycles = s.cycles

/-- R278: where an accepted IRQ meets an illegal opcode at PC, the IRQ is taken, with the opcode's address saved; where
the request is masked, the Trap is taken, with the address after it. -/
def Obligations.IrqGoesBeforeTrap : Prop :=
  ∀ s : State, s.resetIn = false → s.irqSample = true → portAt s.pc = none →
    s.mem.read s.pc ∈ [0x03, 0x04, 0xDF, 0xE0, 0xEF, 0xFF] →
      ∃ t, step s = .next t ∧
        if s.cc.i then EntersThrough 0xFE (s.pc + 1) s t else EntersThrough 0xFD s.pc s t

/-- R278: after an IRQ entry and after a Trap, the next step executes the handler's first instruction, whatever the
interrupt line, unless Reset is asserted. -/
def Obligations.HandlerStartsBeforeNextIrq : Prop :=
  ∀ s t : State, s.resetIn = false →
    ((s.irqAccepted = true ∧ step s = .next t) ∨ ∃ op, exec (.illegal op) s = .next t) →
      t.executes = true

/-- R271: a masked request has no effect: with I = 1 the step does the same whatever the interrupt line is, and nothing
is remembered of it. -/
def Obligations.MaskedRequestIsIgnored : Prop :=
  ∀ (s t : State) (line : List Bool), s.resetIn = false → s.cc.i = true → step s = .next t →
    step { s with irqIn := line } = .next { t with irqIn := line.tail }

/-- R274, R280: RTI undoes an entry: executed right after an accepted IRQ or a Trap whose frame lies in memory, it
restores A, X, Y, SP, CC with I, and the saved PC. -/
def Obligations.RtiUndoesEntry : Prop :=
  ∀ s : State, frameInMemory s = true →
    (s.resetIn = false → s.irqAccepted = true →
      ∃ t u, step s = .next t ∧ exec .rti t = .next u ∧
        u.a = s.a ∧ u.x = s.x ∧ u.y = s.y ∧ u.sp = s.sp ∧ u.cc = s.cc ∧ u.pc = s.pc ∧ SamePorts s u) ∧
    ∀ op : Byte, ∃ t u, exec (.illegal op) s = .next t ∧ exec .rti t = .next u ∧
      u.a = s.a ∧ u.x = s.x ∧ u.y = s.y ∧ u.sp = s.sp ∧ u.cc = s.cc ∧ u.pc = s.pc + 1 ∧ SamePorts s u

/-- R270, R300 (log 6): a Reset asserted at a boundary is taken there, before any IRQ, and withdrawn. That it is taken
at a boundary only, and that the step withdraws it, is the model's choice. -/
def Obligations.ResetTakenAtBoundary : Prop :=
  ∀ s : State, s.resetIn = true → ∃ t, step s = .next t ∧
    t.cc.i = true ∧ t.pc = s.mem.read 0xFF ∧ t.mem = s.mem ∧ SamePorts s t ∧ t.resetIn = false

/-- R3, R300, R301: a run takes its first step with I = 1, PC from the image's byte at $FF, the image in memory, the given
registers and N, Z, V, C, and ports and line as the environment fixed them, whatever these are. R270, D15: under any `STOP`
it ends at the first boundary where `STOP` holds, if that comes within the steps watched, and else goes on. -/
def Obligations.RunStartsFromParameters : Prop :=
  (∀ (image : Memory) (a x y sp flags : Byte),
    State.boot image a x y sp flags = { State.reset with
      a := a
      x := x
      y := y
      sp := sp
      pc := image.read 0xFF
      cc := ⟨true, flags.getLsbD 3, flags.getLsbD 2, flags.getLsbD 1, flags.getLsbD 0⟩
      mem := image }) ∧
  (∀ p : Parameters, p.start = { State.boot p.image p.a p.x p.y p.sp p.flags with
      portFB := { input := p.inFB, reads := 0, output := [] }
      portFC := { input := p.inFC, reads := 0, output := [] }
      irqIn := p.irq }) ∧
  ∀ (p : Parameters) (stop : State → Bool) (n : Nat),
    (∀ (k : Nat) (t : State), run p stop n = .ended k t ↔
      k ≤ n ∧ stepTimes k p.start = .next t ∧ stop t = true ∧
        ∀ (j : Nat) (u : State), j < k → stepTimes j p.start = .next u → stop u = false) ∧
    (∀ t : State, run p stop n = .going t ↔
      stepTimes n p.start = .next t ∧
        ∀ (j : Nat) (u : State), j ≤ n → stepTimes j p.start = .next u → stop u = false) ∧
    ∃ t : State, (∃ k, run p stop n = .ended k t) ∨ run p stop n = .going t

/-! ## Whole-machine rules -/

/-- R25: I changes only by the instructions that write CC as a byte and by the Trap; the Trap and ORCC never clear it. -/
def Obligations.MaskChangesOnlyByItsWriters : Prop :=
  ∀ (i : Instr) (s t : State), exec i s = .next t →
    (i.loadsMask = false → (∀ op, i ≠ .illegal op) → t.cc.i = s.cc.i) ∧
    (s.cc.i = true → t.cc.i = false → i.loadsMask = true ∧ ∀ d, i ≠ .orcc d)

/-- R21: A, X, Y and SP are changed only by the instructions that write them. -/
def Obligations.RegistersChangeOnlyByTheirWriters : Prop :=
  ∀ (i : Instr) (s t : State), i.wellFormed = true → exec i s = .next t →
    (i.writesA = false → t.a = s.a) ∧ (i.writesX = false → t.x = s.x) ∧
    (i.writesY = false → t.y = s.y) ∧ (i.writesSP = false → t.sp = s.sp)

/-- R49: an instruction that makes no write leaves every byte of memory and both ports' output as they were; no
instruction touches the control unit's inputs. -/
def Obligations.MemoryChangesOnlyByStores : Prop :=
  ∀ (i : Instr) (s t : State), exec i s = .next t →
    (i.stores = false → SameMemory s t ∧ ∀ p : Port, (t.port p).output = (s.port p).output) ∧ SameInputs s t

/-! ## Microarchitecture and assembler -/

/-- R253 to R255, R258, R259: the ALU's rows give the flag functions of the instruction rules, under the carry in that R255
lists; each of AND, OR, XOR is one of the rows 0110, 0111, 1000, whichever order they have (a free value, log 9); and each
flag column of the instruction tables is a setting of the selectors of CC. The mapping of instructions to rows is the
spec's own inference (R255), and the model's reading of rows 1001, 1010 and 1100 is that of log 12. -/
def Obligations.AluAndSelectorsGiveTheFlags : Prop :=
  ((∀ (d e : Byte) (c : Bool),
    alu 0b0000 d e c = ⟨0, false, false⟩ ∧ alu 0b0100 d e c = ⟨e, false, false⟩ ∧
    (alu 0b0101 d e false).r = ~~~d ∧ alu 0b0101 d e true = neg8 d ∧
    (alu 0b1001 d e true).r = inc8 d ∧ (alu 0b1001 d e true).v = decide (d = 0x7F) ∧
    (alu 0b1010 d e c).r = dec8 d ∧ (alu 0b1010 d e c).v = decide (d = 0x80) ∧
    alu 0b1011 d e c = add8 d e c ∧ alu 0b1100 d e (!c) = sub8 d e c ∧
    alu 0b1101 d e c = shl8 d c ∧ alu 0b1110 d e c = shr8 d c ∧ alu 0b1111 d e c = asr8 d) ∧
  ∀ op : LogicOp, ∃ row ∈ [0b0110#4, 0b0111#4, 0b1000#4], ∀ (d e : Byte) (c : Bool),
    alu row d e c = ⟨op.apply d e, false, false⟩) ∧
  ∀ (f : CC) (o : Result) (bus : Byte),
    CC.select ⟨0b00, 0b11, 0b11, 0b11, 0b11⟩ o bus f = f ∧
    CC.select ⟨0b11, 0b00, 0b00, 0b00, 0b00⟩ (alu 0b0000 bus bus f.c) bus f = f.cleared ∧
    f.cleared = { f with n := false, z := true, v := false, c := false } ∧
    CC.select ⟨0b00, 0b10, 0b00, 0b00, 0b00⟩ o bus f =
      { f with n := false, z := decide (o.r = 0), v := o.v, c := o.c } ∧
    CC.select ⟨0b00, 0b10, 0b00, 0b00, 0b00⟩ (shr8 bus false) bus f = f.withNZVC (shr8 bus false) ∧
    CC.select ⟨0b00, 0b00, 0b00, 0b10, 0b00⟩ o bus f =
      { f with n := o.r.getLsbD 7, z := decide (o.r = 0), v := false, c := o.c } ∧
    CC.select ⟨0b00, 0b00, 0b00, 0b10, 0b00⟩ (asr8 bus) bus f = f.withNZVC (asr8 bus) ∧
    CC.select ⟨0b00, 0b00, 0b00, 0b00, 0b00⟩ o bus f = f.withNZVC o ∧
    CC.select ⟨0b00, 0b00, 0b00, 0b00, 0b11⟩ o bus f = f.withNZV o.r o.v ∧
    CC.select ⟨0b11, 0b00, 0b00, 0b10, 0b11⟩ o bus f = f.logic o.r ∧
    CC.select ⟨0b11, 0b00, 0b00, 0b10, 0b10⟩ o bus f = f.test o.r ∧
    CC.select ⟨0b01, 0b01, 0b01, 0b01, 0b01⟩ o bus f = CC.ofByte bus ∧
    CC.select ⟨0b10, 0b11, 0b11, 0b11, 0b11⟩ o bus f = { f with i := true }

/-- R64, R81, R82, R83: what the assembler emits for an instruction decodes to one instruction of that mnemonic, in the mode
and with the operand byte that the operand's notation stands for, of the length it fixes. -/
def Obligations.AssembledInstructionDecodes : Prop :=
  ∀ (syms : Symbols) (at_ : Nat) (mn : String) (o : AsmOperand) (bytes : List Byte),
    instrBytes syms at_ mn o = .ok bytes →
      bytes.length = asmLength o ∧
        ∃ (i : Instr) (mode : ModeCode), decode bytes = .ok (i, []) ∧ asmForm i = some (canonical mn, mode) ∧
          NotationGives syms at_ mode bytes.tail o

/-- R257, R258, R260, R261 (log 15): each control signal by itself. A register loaded from the bus drives the bus with the
byte, CC in bits 4..0; CLRT, DECSP and MW at SP are a push, CLRT, MR at SP and INCSP a pull, MR and INCPC a fetch; MR with
the offset in T reads at the effective address of `n,SP`, `n,X` and `n,Y`; and the ALU under f, g1 and g0 is that of
R253. -/
def Obligations.ControlSignalsGiveTheOperations : Prop :=
  ∀ (d : DataPath) (w : ControlWord) (v : Byte) (out : Result),
    (∀ e ∈ [(Signal.ldA, Signal.oeA), (.ldX, .oeX), (.ldY, .oeY), (.ldPC, .oePC), (.ldSP, .oeSP), (.ldR, .oeR)],
      (d.clock w v out e.1).drives w e.2 = some v) ∧
    (w.g.extractLsb' 2 10 = 0b0101010101 → (d.clock w v out .ldCC).drives w .oeCC = some (v &&& 0x1F)) ∧
    (w.addressCode = 0b000 →
      d.drives w .mr = some (d.machine.look d.machine.pc) ∧
        ((d.clock w v out .mr).clock w v out .incPC).machine = (d.machine.touch d.machine.pc).advance 1) ∧
    (w.addressCode = 0b001 →
      (((d.clock w v out .decSP).clock w v out .clrT).clock w v out .mw).machine = d.machine.push v ∧
        (d.clock w v out .clrT).drives w .mr = some d.machine.pull.value ∧
        (((d.clock w v out .clrT).clock w v out .mr).clock w v out .incSP).machine = d.machine.pull.state ∧
        (d.clock w v out .ldT).drives w .mr = some (d.machine.look (formAddress (.ns v) d.machine))) ∧
    (w.addressCode = 0b010 →
      (d.clock w v out .ldT).drives w .mr = some (d.machine.look (formAddress (.ny v) d.machine))) ∧
    (w.addressCode = 0b011 →
      (d.clock w v out .ldT).drives w .mr = some (d.machine.look (formAddress (.nx v) d.machine))) ∧
    (w.addressCode.getLsbD 2 = true →
      (d.clock w v out .ldTA).drives w .mr = some (d.machine.look v)) ∧
    ∀ (a b : Byte), d.aluOut w a b =
      alu w.f a b (if w.g.getLsbD 1 then d.machine.cc.c ^^ w.g.getLsbD 0 else w.g.getLsbD 0)
end

