-- ==== Sys2Proof/Laws/Control.lean ====
section
/-! SUPPORT. The selectors of the control unit, code by code (50_microarchitecture.md R260, R261). -/

namespace Sys2Proof.Machine

variable {d : DataPath} {w : ControlWord}

theorem DataPath.address_pc (h : w.addressCode = 0b000) : d.address w = d.machine.pc := by
  simp [DataPath.address, addressSelect, h]

theorem DataPath.address_sp (h : w.addressCode = 0b001) : d.address w = d.t + d.machine.sp := by
  simp [DataPath.address, addressSelect, h]

theorem DataPath.address_y (h : w.addressCode = 0b010) : d.address w = d.t + d.machine.y := by
  simp [DataPath.address, addressSelect, h]

theorem DataPath.address_x (h : w.addressCode = 0b011) : d.address w = d.t + d.machine.x := by
  simp [DataPath.address, addressSelect, h]

theorem addressSelect_ta {code : BitVec 3} (h : code.getLsbD 2 = true) (t ta : Byte) (s : State) :
    addressSelect code t ta s = ta := by
  have : code = 4 ∨ code = 5 ∨ code = 6 ∨ code = 7 := by revert code; decide
  rcases this with rfl | rfl | rfl | rfl <;> rfl

theorem DataPath.address_ta (h : w.addressCode.getLsbD 2 = true) : d.address w = d.ta :=
  addressSelect_ta h _ _ _

/-- The carry in to the ALU: a constant, or C, under g1, each inverted under g0 (R261). -/
theorem carrySelect_eq (code : BitVec 2) (c : Bool) :
    carrySelect code c = if code.getLsbD 1 then c ^^ code.getLsbD 0 else code.getLsbD 0 := by
  revert code c; decide

end Sys2Proof.Machine
end

