-- ==== Sys2Proof/Laws/Exec.lean ====
section
/-! SUPPORT. What `exec` answers for each instruction, over the shared operations: cite these, never unfold `exec`. -/

namespace Sys2Proof.Machine

theorem exec_lda (o : Operand) (s : State) :
    exec (.lda o) s =
      .next ({ (readOperand o s).state with
          a := (readOperand o s).value,
          cc := (readOperand o s).state.cc.logic (readOperand o s).value }.advance (operandLength o)) := rfl
theorem exec_ldx (o : Operand) (s : State) :
    exec (.ldx o) s =
      .next ({ (readOperand o s).state with
          x := (readOperand o s).value,
          cc := (readOperand o s).state.cc.logic (readOperand o s).value }.advance (operandLength o)) := rfl
theorem exec_ldy (o : Operand) (s : State) :
    exec (.ldy o) s =
      .next ({ (readOperand o s).state with
          y := (readOperand o s).value,
          cc := (readOperand o s).state.cc.logic (readOperand o s).value }.advance (operandLength o)) := rfl
theorem exec_ldsp (o : Operand) (s : State) :
    exec (.ldsp o) s =
      .next ({ (readOperand o s).state with
          sp := (readOperand o s).value,
          cc := (readOperand o s).state.cc.logic (readOperand o s).value }.advance (operandLength o)) := rfl
theorem exec_leax (m : MemForm) (s : State) :
    exec (.leax m) s = .next ({ s with x := formAddress m s }.advance (formLength m)) := rfl
theorem exec_leay (m : MemForm) (s : State) :
    exec (.leay m) s = .next ({ s with y := formAddress m s }.advance (formLength m)) := rfl
theorem exec_leasp (m : MemForm) (s : State) :
    exec (.leasp m) s = .next ({ s with sp := formAddress m s }.advance (formLength m)) := rfl
theorem exec_sta (m : MemForm) (s : State) :
    exec (.sta m) s = .next ((writeForm m s.a s).advance (formLength m)) := rfl
theorem exec_stx (m : MemForm) (s : State) :
    exec (.stx m) s = .next ((writeForm m s.x s).advance (formLength m)) := rfl
theorem exec_sty (m : MemForm) (s : State) :
    exec (.sty m) s = .next ((writeForm m s.y s).advance (formLength m)) := rfl
theorem exec_stsp (m : MemForm) (s : State) :
    exec (.stsp m) s = .next ((writeForm m s.sp s).advance (formLength m)) := rfl
theorem exec_tfrACC (s : State) :
    exec .tfrACC s = .next ({ s with cc := CC.ofByte s.a }.advance 1) := rfl
theorem exec_tfrCCA (s : State) :
    exec .tfrCCA s = .next ({ s with a := s.cc.toByte }.advance 1) := rfl
theorem exec_tfrXY (s : State) :
    exec .tfrXY s = .next ({ s with y := s.x }.advance 1) := rfl
theorem exec_tfrYX (s : State) :
    exec .tfrYX s = .next ({ s with x := s.y }.advance 1) := rfl
theorem exec_tfrXSP (s : State) :
    exec .tfrXSP s = .next ({ s with sp := s.x }.advance 1) := rfl
theorem exec_tfrSPX (s : State) :
    exec .tfrSPX s = .next ({ s with x := s.sp }.advance 1) := rfl
theorem exec_tfrYSP (s : State) :
    exec .tfrYSP s = .next ({ s with sp := s.y }.advance 1) := rfl
theorem exec_tfrSPY (s : State) :
    exec .tfrSPY s = .next ({ s with y := s.sp }.advance 1) := rfl
theorem exec_exgACC (s : State) :
    exec .exgACC s = .next ({ s with a := s.cc.toByte, cc := CC.ofByte s.a }.advance 1) := rfl
theorem exec_exgXY (s : State) :
    exec .exgXY s = .next ({ s with x := s.y, y := s.x }.advance 1) := rfl
theorem exec_exgXSP (s : State) :
    exec .exgXSP s = .next ({ s with x := s.sp, sp := s.x }.advance 1) := rfl
theorem exec_exgYSP (s : State) :
    exec .exgYSP s = .next ({ s with y := s.sp, sp := s.y }.advance 1) := rfl
theorem exec_jmp (m : MemForm) (s : State) :
    exec (.jmp m) s = .next { s with pc := formAddress m s } := rfl
theorem exec_jsr (m : MemForm) (s : State) :
    exec (.jsr m) s = .next (callTo (formLength m) (formAddress m s) s) := rfl
theorem exec_bra (off : Byte) (s : State) :
    exec (.bra off) s = .next (branchIf true off s) := rfl
theorem exec_bsr (off : Byte) (s : State) :
    exec (.bsr off) s = .next (callTo 2 (s.pcNext 2 + off) s) := rfl
theorem exec_bmi (off : Byte) (s : State) :
    exec (.bmi off) s = .next (branchIf (s.cc.n) off s) := rfl
theorem exec_bpl (off : Byte) (s : State) :
    exec (.bpl off) s = .next (branchIf (!s.cc.n) off s) := rfl
theorem exec_beq (off : Byte) (s : State) :
    exec (.beq off) s = .next (branchIf (s.cc.z) off s) := rfl
theorem exec_bne (off : Byte) (s : State) :
    exec (.bne off) s = .next (branchIf (!s.cc.z) off s) := rfl
theorem exec_bvs (off : Byte) (s : State) :
    exec (.bvs off) s = .next (branchIf (s.cc.v) off s) := rfl
theorem exec_bvc (off : Byte) (s : State) :
    exec (.bvc off) s = .next (branchIf (!s.cc.v) off s) := rfl
theorem exec_bcs (off : Byte) (s : State) :
    exec (.bcs off) s = .next (branchIf (s.cc.c) off s) := rfl
theorem exec_bcc (off : Byte) (s : State) :
    exec (.bcc off) s = .next (branchIf (!s.cc.c) off s) := rfl
theorem exec_bhi (off : Byte) (s : State) :
    exec (.bhi off) s = .next (branchIf (!(s.cc.c || s.cc.z)) off s) := rfl
theorem exec_bls (off : Byte) (s : State) :
    exec (.bls off) s = .next (branchIf (s.cc.c || s.cc.z) off s) := rfl
theorem exec_bgt (off : Byte) (s : State) :
    exec (.bgt off) s = .next (branchIf (!((s.cc.n ^^ s.cc.v) || s.cc.z)) off s) := rfl
theorem exec_bge (off : Byte) (s : State) :
    exec (.bge off) s = .next (branchIf (!(s.cc.n ^^ s.cc.v)) off s) := rfl
theorem exec_ble (off : Byte) (s : State) :
    exec (.ble off) s = .next (branchIf ((s.cc.n ^^ s.cc.v) || s.cc.z) off s) := rfl
theorem exec_blt (off : Byte) (s : State) :
    exec (.blt off) s = .next (branchIf (s.cc.n ^^ s.cc.v) off s) := rfl
theorem exec_rts (s : State) :
    exec .rts s = .next { s.pull.state with pc := s.pull.value } := rfl
theorem exec_rti (s : State) :
    exec .rti s = .next s.leave := rfl
theorem exec_adda (o : Operand) (s : State) :
    exec (.adda o) s = .next (combineA addEffect o s) := rfl
theorem exec_adca (o : Operand) (s : State) :
    exec (.adca o) s = .next (combineA adcEffect o s) := rfl
theorem exec_suba (o : Operand) (s : State) :
    exec (.suba o) s = .next (combineA subEffect o s) := rfl
theorem exec_sbca (o : Operand) (s : State) :
    exec (.sbca o) s = .next (combineA sbcEffect o s) := rfl
theorem exec_clra (s : State) :
    exec .clra s = .next (modifyA clrEffect s) := rfl
theorem exec_clr (m : MemForm) (s : State) :
    exec (.clr m) s =
      .next ({ writeForm m 0 s with cc := (writeForm m 0 s).cc.cleared }.advance (formLength m)) := rfl
theorem exec_nega (s : State) :
    exec .nega s = .next (modifyA negEffect s) := rfl
theorem exec_neg (m : MemForm) (s : State) :
    exec (.neg m) s = .next (modifyMem negEffect m s) := rfl
theorem exec_deca (s : State) :
    exec .deca s = .next (modifyA decEffect s) := rfl
theorem exec_dec (m : MemForm) (s : State) :
    exec (.dec m) s = .next (modifyMem decEffect m s) := rfl
theorem exec_inca (s : State) :
    exec .inca s = .next (modifyA incEffect s) := rfl
theorem exec_inc (m : MemForm) (s : State) :
    exec (.inc m) s = .next (modifyMem incEffect m s) := rfl
theorem exec_cmpa (o : Operand) (s : State) :
    exec (.cmpa o) s = .next (flagsOnly subEffect s.a o s) := rfl
theorem exec_cmpx (o : Operand) (s : State) :
    exec (.cmpx o) s = .next (flagsOnly subEffect s.x o s) := rfl
theorem exec_cmpy (o : Operand) (s : State) :
    exec (.cmpy o) s = .next (flagsOnly subEffect s.y o s) := rfl
theorem exec_cmpsp (o : Operand) (s : State) :
    exec (.cmpsp o) s = .next (flagsOnly subEffect s.sp o s) := rfl
theorem exec_bita (o : Operand) (s : State) :
    exec (.bita o) s = .next (flagsOnly andEffect s.a o s) := rfl
theorem exec_tsta (s : State) :
    exec .tsta s = .next ({ s with cc := s.cc.test s.a }.advance 1) := rfl
theorem exec_tst (m : MemForm) (s : State) :
    exec (.tst m) s =
      .next ({ (readForm m s).state with
          cc := (readForm m s).state.cc.test (readForm m s).value }.advance (formLength m)) := rfl
theorem exec_anda (o : Operand) (s : State) :
    exec (.anda o) s = .next (combineA andEffect o s) := rfl
theorem exec_ora (o : Operand) (s : State) :
    exec (.ora o) s = .next (combineA orEffect o s) := rfl
theorem exec_eora (o : Operand) (s : State) :
    exec (.eora o) s = .next (combineA eorEffect o s) := rfl
theorem exec_andcc (data : Byte) (s : State) :
    exec (.andcc data) s = .next ({ s with cc := s.cc.andByte data }.advance 2) := rfl
theorem exec_orcc (data : Byte) (s : State) :
    exec (.orcc data) s = .next ({ s with cc := s.cc.orByte data }.advance 2) := rfl
theorem exec_coma (s : State) :
    exec .coma s = .next (modifyA comEffect s) := rfl
theorem exec_com (m : MemForm) (s : State) :
    exec (.com m) s = .next (modifyMem comEffect m s) := rfl
theorem exec_asra (s : State) :
    exec .asra s = .next (modifyA asrEffect s) := rfl
theorem exec_asr (m : MemForm) (s : State) :
    exec (.asr m) s = .next (modifyMem asrEffect m s) := rfl
theorem exec_lsla (s : State) :
    exec .lsla s = .next (modifyA lslEffect s) := rfl
theorem exec_lsl (m : MemForm) (s : State) :
    exec (.lsl m) s = .next (modifyMem lslEffect m s) := rfl
theorem exec_lsra (s : State) :
    exec .lsra s = .next (modifyA lsrEffect s) := rfl
theorem exec_lsr (m : MemForm) (s : State) :
    exec (.lsr m) s = .next (modifyMem lsrEffect m s) := rfl
theorem exec_rola (s : State) :
    exec .rola s = .next (modifyA rolEffect s) := rfl
theorem exec_rol (m : MemForm) (s : State) :
    exec (.rol m) s = .next (modifyMem rolEffect m s) := rfl
theorem exec_rora (s : State) :
    exec .rora s = .next (modifyA rorEffect s) := rfl
theorem exec_ror (m : MemForm) (s : State) :
    exec (.ror m) s = .next (modifyMem rorEffect m s) := rfl
theorem exec_psha (s : State) :
    exec .psha s = .next ((s.push s.a).advance 1) := rfl
theorem exec_pshc (s : State) :
    exec .pshc s = .next ((s.push s.cc.toByte).advance 1) := rfl
theorem exec_pshx (s : State) :
    exec .pshx s = .next ((s.push s.x).advance 1) := rfl
theorem exec_pshy (s : State) :
    exec .pshy s = .next ((s.push s.y).advance 1) := rfl
theorem exec_pula (s : State) :
    exec .pula s = .next ({ s.pull.state with a := s.pull.value }.advance 1) := rfl
theorem exec_pulc (s : State) :
    exec .pulc s = .next ({ s.pull.state with cc := CC.ofByte s.pull.value }.advance 1) := rfl
theorem exec_pulx (s : State) :
    exec .pulx s = .next ({ s.pull.state with x := s.pull.value }.advance 1) := rfl
theorem exec_puly (s : State) :
    exec .puly s = .next ({ s.pull.state with y := s.pull.value }.advance 1) := rfl
theorem exec_nop (s : State) :
    exec .nop s = .next (s.advance 1) := rfl
theorem exec_illegal (opcode : Byte) (s : State) :
    exec (.illegal opcode) s = .next s.trapEntry := rfl

end Sys2Proof.Machine
end

