-- ==== Sys2Proof/Laws/Memory.lean ====
section
/-! SUPPORT. Memory: a read after a write, and every operation keeps the canonical form. -/

namespace Sys2Proof.Machine

@[simp] theorem Memory.readNat_nil (a : Nat) : Memory.readNat [] a = unlistedByte := rfl

theorem Memory.readNat_cons (k : Nat) (v : Byte) (m : Memory) (a : Nat) :
    Memory.readNat ((k, v) :: m) a = if k = a then v else Memory.readNat m a := rfl

theorem Memory.readNat_erase (m : Memory) (a b : Nat) :
    Memory.readNat (Memory.erase m a) b = if b = a then unlistedByte else Memory.readNat m b := by
  induction m with
  | nil => simp [Memory.erase]
  | cons kv rest ih =>
    obtain ⟨k, v⟩ := kv
    by_cases hk : k = a
    · simp only [Memory.erase, hk, ↓reduceIte, ih, Memory.readNat_cons]
      split <;> simp_all [eq_comm]
    · simp only [Memory.erase, hk, ↓reduceIte, Memory.readNat_cons, ih]
      split <;> simp_all

/-- No listed cell has the address. -/
theorem Memory.fst_ne_of_mem_erase {m : Memory} {a : Nat} {e : Host.Cell}
    (h : e ∈ Memory.erase m a) : e.1 ≠ a := by
  induction m with
  | nil => simp [Memory.erase] at h
  | cons kv rest ih =>
    obtain ⟨k, v⟩ := kv
    by_cases hk : k = a
    · exact ih (by simpa [Memory.erase, hk] using h)
    · simp only [Memory.erase, hk, ↓reduceIte, List.mem_cons] at h
      rcases h with rfl | h
      · exact hk
      · exact ih h

theorem Memory.readNat_insert {m : Memory} {a : Nat} (v : Byte) (hm : ∀ e ∈ m, e.1 ≠ a) (b : Nat) :
    Memory.readNat (Memory.insert m a v) b = if b = a then v else Memory.readNat m b := by
  induction m with
  | nil => simp only [Memory.insert, Memory.readNat_cons]; split <;> simp_all [eq_comm]
  | cons kv rest ih =>
    obtain ⟨k, w⟩ := kv
    have hk : k ≠ a := hm (k, w) (by simp)
    have ih := ih fun e he => hm e (by simp [he])
    by_cases hb : b = a
    · subst hb
      unfold Memory.insert
      split <;> simp [Memory.readNat_cons, ih, hk]
    · unfold Memory.insert
      split <;> simp [Memory.readNat_cons, ih, hb, Ne.symm hb]

theorem Memory.readNat_write (m : Memory) (a : Byte) (v : Byte) (b : Nat) :
    Memory.readNat (Memory.write m a v) b = if b = a.toNat then v else Memory.readNat m b := by
  unfold Memory.write
  split
  · rw [Memory.readNat_erase]; split <;> simp_all
  · rw [Memory.readNat_insert v (fun _ => Memory.fst_ne_of_mem_erase), Memory.readNat_erase]
    split <;> simp_all

/-- A read after a write: the byte written at its address, the old byte everywhere else. -/
@[simp] theorem Memory.read_write (m : Memory) (a v b : Byte) :
    Memory.read (Memory.write m a v) b = if b = a then v else Memory.read m b := by
  unfold Memory.read
  rw [Memory.readNat_write]
  simp only [BitVec.toNat_inj]

/-! ## The canonical form -/

theorem Memory.wfFrom_mono {m : Memory} {lo lo' : Nat} (h : lo' ≤ lo) (hm : Memory.wfFrom lo m = true) :
    Memory.wfFrom lo' m = true := by
  cases m with
  | nil => rfl
  | cons kv rest =>
    obtain ⟨k, v⟩ := kv
    simp only [Memory.wfFrom, Bool.and_eq_true, decide_eq_true_eq] at hm ⊢
    exact ⟨⟨⟨⟨h.trans hm.1.1.1.1, hm.1.1.1.2⟩, hm.1.1.2⟩, hm.1.2⟩, hm.2⟩

theorem Memory.wfFrom_erase {m : Memory} {lo : Nat} (a : Nat) (hm : Memory.wfFrom lo m = true) :
    Memory.wfFrom lo (Memory.erase m a) = true := by
  induction m generalizing lo with
  | nil => exact hm
  | cons kv rest ih =>
    obtain ⟨k, v⟩ := kv
    have hm' := hm
    simp only [Memory.wfFrom, Bool.and_eq_true, decide_eq_true_eq] at hm
    by_cases hk : k = a
    · simp only [Memory.erase, hk, ↓reduceIte]
      exact Memory.wfFrom_mono (by omega) (ih hm.2)
    · simp only [Memory.erase, hk, ↓reduceIte, Memory.wfFrom, Bool.and_eq_true, decide_eq_true_eq]
      exact ⟨hm.1, ih hm.2⟩

theorem Memory.wfFrom_insert {m : Memory} {lo a : Nat} {v : Byte} (hm : Memory.wfFrom lo m = true)
    (hlo : lo ≤ a) (ha : a < 256) (hp : isPortAddress a = false) (hv : v ≠ unlistedByte)
    (hne : ∀ e ∈ m, e.1 ≠ a) : Memory.wfFrom lo (Memory.insert m a v) = true := by
  induction m generalizing lo with
  | nil => simp [Memory.insert, Memory.wfFrom, hlo, ha, hp, hv]
  | cons kv rest ih =>
    obtain ⟨k, w⟩ := kv
    simp only [Memory.wfFrom, Bool.and_eq_true, decide_eq_true_eq] at hm
    have hk : k ≠ a := hne (k, w) (by simp)
    unfold Memory.insert
    split
    · rename_i h
      simp only [Memory.wfFrom, Bool.and_eq_true, decide_eq_true_eq, Bool.not_eq_true']
      exact ⟨⟨⟨⟨hlo, ha⟩, hp⟩, hv⟩, ⟨⟨⟨by omega, hm.1.1.1.2⟩, by simpa using hm.1.1.2⟩, hm.1.2⟩, hm.2⟩
    · simp only [Memory.wfFrom, Bool.and_eq_true, decide_eq_true_eq]
      exact ⟨hm.1, ih hm.2 (by omega) fun e he => hne e (by simp [he])⟩

/-- A write at an address that is no port keeps the canonical form. -/
theorem Memory.wf_write {m : Memory} {a : Byte} (v : Byte) (hm : Memory.wf m = true)
    (hp : isPortAddress a.toNat = false) : Memory.wf (Memory.write m a v) = true := by
  unfold Memory.write
  split
  · exact Memory.wfFrom_erase _ hm
  · rename_i hv
    exact Memory.wfFrom_insert (Memory.wfFrom_erase _ hm) (Nat.zero_le _) a.isLt hp hv
      fun _ => Memory.fst_ne_of_mem_erase

/-- Below `lo` a canonical list holds nothing. -/
theorem Memory.readNat_of_lt {m : Memory} {lo a : Nat} (hm : Memory.wfFrom lo m = true) (h : a < lo) :
    Memory.readNat m a = unlistedByte := by
  induction m generalizing lo with
  | nil => rfl
  | cons kv rest ih =>
    obtain ⟨k, v⟩ := kv
    simp only [Memory.wfFrom, Bool.and_eq_true, decide_eq_true_eq] at hm
    rw [Memory.readNat_cons, if_neg (by omega)]
    exact ih hm.2 (by omega)

/-- Nor does it hold anything above $FF. -/
theorem Memory.readNat_of_ge {m : Memory} {lo a : Nat} (hm : Memory.wfFrom lo m = true) (h : 256 ≤ a) :
    Memory.readNat m a = unlistedByte := by
  induction m generalizing lo with
  | nil => rfl
  | cons kv rest ih =>
    obtain ⟨k, v⟩ := kv
    simp only [Memory.wfFrom, Bool.and_eq_true, decide_eq_true_eq] at hm
    rw [Memory.readNat_cons, if_neg (by omega)]
    exact ih hm.2

end Sys2Proof.Machine
end

