-- ==== Sys2Proof/Laws/State.lean ====
section
/-! SUPPORT. What each update of State does to each field: one lemma per field. -/

namespace Sys2Proof.Machine

/-! `advance` -/

@[simp] theorem State.advance_a (s : State) (len : Byte) : (s.advance len).a = s.a := rfl
@[simp] theorem State.advance_x (s : State) (len : Byte) : (s.advance len).x = s.x := rfl
@[simp] theorem State.advance_y (s : State) (len : Byte) : (s.advance len).y = s.y := rfl
@[simp] theorem State.advance_sp (s : State) (len : Byte) : (s.advance len).sp = s.sp := rfl
@[simp] theorem State.advance_pc (s : State) (len : Byte) : (s.advance len).pc = s.pc + len := rfl
@[simp] theorem State.advance_cc (s : State) (len : Byte) : (s.advance len).cc = s.cc := rfl
@[simp] theorem State.advance_mem (s : State) (len : Byte) : (s.advance len).mem = s.mem := rfl
@[simp] theorem State.advance_portFB (s : State) (len : Byte) : (s.advance len).portFB = s.portFB := rfl
@[simp] theorem State.advance_portFC (s : State) (len : Byte) : (s.advance len).portFC = s.portFC := rfl
@[simp] theorem State.advance_irqIn (s : State) (len : Byte) : (s.advance len).irqIn = s.irqIn := rfl
@[simp] theorem State.advance_resetIn (s : State) (len : Byte) : (s.advance len).resetIn = s.resetIn := rfl
@[simp] theorem State.advance_boundaries (s : State) (len : Byte) : (s.advance len).boundaries = s.boundaries := rfl
@[simp] theorem State.advance_resets (s : State) (len : Byte) : (s.advance len).resets = s.resets := rfl
@[simp] theorem State.advance_cycles (s : State) (len : Byte) : (s.advance len).cycles = s.cycles := rfl

/-! `passBoundary` -/

@[simp] theorem State.passBoundary_a (s : State) : (s.passBoundary).a = s.a := rfl
@[simp] theorem State.passBoundary_x (s : State) : (s.passBoundary).x = s.x := rfl
@[simp] theorem State.passBoundary_y (s : State) : (s.passBoundary).y = s.y := rfl
@[simp] theorem State.passBoundary_sp (s : State) : (s.passBoundary).sp = s.sp := rfl
@[simp] theorem State.passBoundary_pc (s : State) : (s.passBoundary).pc = s.pc := rfl
@[simp] theorem State.passBoundary_cc (s : State) : (s.passBoundary).cc = s.cc := rfl
@[simp] theorem State.passBoundary_mem (s : State) : (s.passBoundary).mem = s.mem := rfl
@[simp] theorem State.passBoundary_portFB (s : State) : (s.passBoundary).portFB = s.portFB := rfl
@[simp] theorem State.passBoundary_portFC (s : State) : (s.passBoundary).portFC = s.portFC := rfl
@[simp] theorem State.passBoundary_irqIn (s : State) : (s.passBoundary).irqIn = s.irqIn.tail := rfl
@[simp] theorem State.passBoundary_resetIn (s : State) : (s.passBoundary).resetIn = s.resetIn := rfl
@[simp] theorem State.passBoundary_boundaries (s : State) : (s.passBoundary).boundaries = s.boundaries + 1 := rfl
@[simp] theorem State.passBoundary_resets (s : State) : (s.passBoundary).resets = s.resets := rfl
@[simp] theorem State.passBoundary_cycles (s : State) : (s.passBoundary).cycles = s.cycles := rfl

/-! `countCycles` -/

@[simp] theorem State.countCycles_a (s : State) (i : Instr) : (s.countCycles i).a = s.a := rfl
@[simp] theorem State.countCycles_x (s : State) (i : Instr) : (s.countCycles i).x = s.x := rfl
@[simp] theorem State.countCycles_y (s : State) (i : Instr) : (s.countCycles i).y = s.y := rfl
@[simp] theorem State.countCycles_sp (s : State) (i : Instr) : (s.countCycles i).sp = s.sp := rfl
@[simp] theorem State.countCycles_pc (s : State) (i : Instr) : (s.countCycles i).pc = s.pc := rfl
@[simp] theorem State.countCycles_cc (s : State) (i : Instr) : (s.countCycles i).cc = s.cc := rfl
@[simp] theorem State.countCycles_mem (s : State) (i : Instr) : (s.countCycles i).mem = s.mem := rfl
@[simp] theorem State.countCycles_portFB (s : State) (i : Instr) : (s.countCycles i).portFB = s.portFB := rfl
@[simp] theorem State.countCycles_portFC (s : State) (i : Instr) : (s.countCycles i).portFC = s.portFC := rfl
@[simp] theorem State.countCycles_irqIn (s : State) (i : Instr) : (s.countCycles i).irqIn = s.irqIn := rfl
@[simp] theorem State.countCycles_resetIn (s : State) (i : Instr) : (s.countCycles i).resetIn = s.resetIn := rfl
@[simp] theorem State.countCycles_boundaries (s : State) (i : Instr) : (s.countCycles i).boundaries = s.boundaries := rfl
@[simp] theorem State.countCycles_resets (s : State) (i : Instr) : (s.countCycles i).resets = s.resets := rfl
@[simp] theorem State.countCycles_cycles (s : State) (i : Instr) : (s.countCycles i).cycles = s.cycles + (instrCycles i).getD 0 := rfl

/-! `setPort` -/

@[simp] theorem State.setPort_a (s : State) (p : Port) (ch : Channel) : (s.setPort p ch).a = s.a := by cases p <;> rfl
@[simp] theorem State.setPort_x (s : State) (p : Port) (ch : Channel) : (s.setPort p ch).x = s.x := by cases p <;> rfl
@[simp] theorem State.setPort_y (s : State) (p : Port) (ch : Channel) : (s.setPort p ch).y = s.y := by cases p <;> rfl
@[simp] theorem State.setPort_sp (s : State) (p : Port) (ch : Channel) : (s.setPort p ch).sp = s.sp := by cases p <;> rfl
@[simp] theorem State.setPort_pc (s : State) (p : Port) (ch : Channel) : (s.setPort p ch).pc = s.pc := by cases p <;> rfl
@[simp] theorem State.setPort_cc (s : State) (p : Port) (ch : Channel) : (s.setPort p ch).cc = s.cc := by cases p <;> rfl
@[simp] theorem State.setPort_mem (s : State) (p : Port) (ch : Channel) : (s.setPort p ch).mem = s.mem := by cases p <;> rfl
@[simp] theorem State.setPort_irqIn (s : State) (p : Port) (ch : Channel) : (s.setPort p ch).irqIn = s.irqIn := by cases p <;> rfl
@[simp] theorem State.setPort_resetIn (s : State) (p : Port) (ch : Channel) : (s.setPort p ch).resetIn = s.resetIn := by cases p <;> rfl
@[simp] theorem State.setPort_boundaries (s : State) (p : Port) (ch : Channel) : (s.setPort p ch).boundaries = s.boundaries := by cases p <;> rfl
@[simp] theorem State.setPort_resets (s : State) (p : Port) (ch : Channel) : (s.setPort p ch).resets = s.resets := by cases p <;> rfl
@[simp] theorem State.setPort_cycles (s : State) (p : Port) (ch : Channel) : (s.setPort p ch).cycles = s.cycles := by cases p <;> rfl

@[simp] theorem State.setPort_port (s : State) (p q : Port) (ch : Channel) :
    (s.setPort p ch).port q = if q = p then ch else s.port q := by
  cases p <;> cases q <;> rfl

/-! The ports under the updates that leave them alone -/

@[simp] theorem State.advance_port (s : State) (len : Byte) (p : Port) : (s.advance len).port p = s.port p := by
  cases p <;> rfl
@[simp] theorem State.passBoundary_port (s : State) (p : Port) : (s.passBoundary).port p = s.port p := by
  cases p <;> rfl
@[simp] theorem State.countCycles_port (s : State) (i : Instr) (p : Port) : (s.countCycles i).port p = s.port p := by
  cases p <;> rfl

/-! `preIndex` and `postIndex`: only X and Y -/

@[simp] theorem preIndex_a (m : MemForm) (s : State) : (preIndex m s).a = s.a := by
  cases m <;> rfl
@[simp] theorem preIndex_sp (m : MemForm) (s : State) : (preIndex m s).sp = s.sp := by
  cases m <;> rfl
@[simp] theorem preIndex_pc (m : MemForm) (s : State) : (preIndex m s).pc = s.pc := by
  cases m <;> rfl
@[simp] theorem preIndex_cc (m : MemForm) (s : State) : (preIndex m s).cc = s.cc := by
  cases m <;> rfl
@[simp] theorem preIndex_mem (m : MemForm) (s : State) : (preIndex m s).mem = s.mem := by
  cases m <;> rfl
@[simp] theorem preIndex_portFB (m : MemForm) (s : State) : (preIndex m s).portFB = s.portFB := by
  cases m <;> rfl
@[simp] theorem preIndex_portFC (m : MemForm) (s : State) : (preIndex m s).portFC = s.portFC := by
  cases m <;> rfl
@[simp] theorem preIndex_irqIn (m : MemForm) (s : State) : (preIndex m s).irqIn = s.irqIn := by
  cases m <;> rfl
@[simp] theorem preIndex_resetIn (m : MemForm) (s : State) : (preIndex m s).resetIn = s.resetIn := by
  cases m <;> rfl
@[simp] theorem preIndex_boundaries (m : MemForm) (s : State) : (preIndex m s).boundaries = s.boundaries := by
  cases m <;> rfl
@[simp] theorem preIndex_resets (m : MemForm) (s : State) : (preIndex m s).resets = s.resets := by
  cases m <;> rfl
@[simp] theorem preIndex_cycles (m : MemForm) (s : State) : (preIndex m s).cycles = s.cycles := by
  cases m <;> rfl
@[simp] theorem preIndex_port (m : MemForm) (s : State) (p : Port) : (preIndex m s).port p = s.port p := by
  cases m <;> cases p <;> rfl

@[simp] theorem postIndex_a (m : MemForm) (s : State) : (postIndex m s).a = s.a := by
  cases m <;> rfl
@[simp] theorem postIndex_sp (m : MemForm) (s : State) : (postIndex m s).sp = s.sp := by
  cases m <;> rfl
@[simp] theorem postIndex_pc (m : MemForm) (s : State) : (postIndex m s).pc = s.pc := by
  cases m <;> rfl
@[simp] theorem postIndex_cc (m : MemForm) (s : State) : (postIndex m s).cc = s.cc := by
  cases m <;> rfl
@[simp] theorem postIndex_mem (m : MemForm) (s : State) : (postIndex m s).mem = s.mem := by
  cases m <;> rfl
@[simp] theorem postIndex_portFB (m : MemForm) (s : State) : (postIndex m s).portFB = s.portFB := by
  cases m <;> rfl
@[simp] theorem postIndex_portFC (m : MemForm) (s : State) : (postIndex m s).portFC = s.portFC := by
  cases m <;> rfl
@[simp] theorem postIndex_irqIn (m : MemForm) (s : State) : (postIndex m s).irqIn = s.irqIn := by
  cases m <;> rfl
@[simp] theorem postIndex_resetIn (m : MemForm) (s : State) : (postIndex m s).resetIn = s.resetIn := by
  cases m <;> rfl
@[simp] theorem postIndex_boundaries (m : MemForm) (s : State) : (postIndex m s).boundaries = s.boundaries := by
  cases m <;> rfl
@[simp] theorem postIndex_resets (m : MemForm) (s : State) : (postIndex m s).resets = s.resets := by
  cases m <;> rfl
@[simp] theorem postIndex_cycles (m : MemForm) (s : State) : (postIndex m s).cycles = s.cycles := by
  cases m <;> rfl
@[simp] theorem postIndex_port (m : MemForm) (s : State) (p : Port) : (postIndex m s).port p = s.port p := by
  cases m <;> cases p <;> rfl

/-! The flag functions: one lemma per flag -/

@[simp] theorem CC.withNZ_i (f : CC) (r : Byte) : (f.withNZ r).i = f.i := rfl
@[simp] theorem CC.withNZ_n (f : CC) (r : Byte) : (f.withNZ r).n = r.getLsbD 7 := rfl
@[simp] theorem CC.withNZ_z (f : CC) (r : Byte) : (f.withNZ r).z = decide (r = 0) := rfl
@[simp] theorem CC.withNZ_v (f : CC) (r : Byte) : (f.withNZ r).v = f.v := rfl
@[simp] theorem CC.withNZ_c (f : CC) (r : Byte) : (f.withNZ r).c = f.c := rfl
@[simp] theorem CC.withNZVC_i (f : CC) (o : Result) : (f.withNZVC o).i = f.i := rfl
@[simp] theorem CC.withNZVC_n (f : CC) (o : Result) : (f.withNZVC o).n = o.r.getLsbD 7 := rfl
@[simp] theorem CC.withNZVC_z (f : CC) (o : Result) : (f.withNZVC o).z = decide (o.r = 0) := rfl
@[simp] theorem CC.withNZVC_v (f : CC) (o : Result) : (f.withNZVC o).v = o.v := rfl
@[simp] theorem CC.withNZVC_c (f : CC) (o : Result) : (f.withNZVC o).c = o.c := rfl
@[simp] theorem CC.withNZV_i (f : CC) (r : Byte) (v : Bool) : (f.withNZV r v).i = f.i := rfl
@[simp] theorem CC.withNZV_n (f : CC) (r : Byte) (v : Bool) : (f.withNZV r v).n = r.getLsbD 7 := rfl
@[simp] theorem CC.withNZV_z (f : CC) (r : Byte) (v : Bool) : (f.withNZV r v).z = decide (r = 0) := rfl
@[simp] theorem CC.withNZV_v (f : CC) (r : Byte) (v : Bool) : (f.withNZV r v).v = v := rfl
@[simp] theorem CC.withNZV_c (f : CC) (r : Byte) (v : Bool) : (f.withNZV r v).c = f.c := rfl
@[simp] theorem CC.logic_i (f : CC) (r : Byte) : (f.logic r).i = f.i := rfl
@[simp] theorem CC.logic_n (f : CC) (r : Byte) : (f.logic r).n = r.getLsbD 7 := rfl
@[simp] theorem CC.logic_z (f : CC) (r : Byte) : (f.logic r).z = decide (r = 0) := rfl
@[simp] theorem CC.logic_v (f : CC) (r : Byte) : (f.logic r).v = false := rfl
@[simp] theorem CC.logic_c (f : CC) (r : Byte) : (f.logic r).c = f.c := rfl
@[simp] theorem CC.test_i (f : CC) (r : Byte) : (f.test r).i = f.i := rfl
@[simp] theorem CC.test_n (f : CC) (r : Byte) : (f.test r).n = r.getLsbD 7 := rfl
@[simp] theorem CC.test_z (f : CC) (r : Byte) : (f.test r).z = decide (r = 0) := rfl
@[simp] theorem CC.test_v (f : CC) (r : Byte) : (f.test r).v = false := rfl
@[simp] theorem CC.test_c (f : CC) (r : Byte) : (f.test r).c = false := rfl
@[simp] theorem CC.cleared_i (f : CC) : (f.cleared).i = f.i := rfl
@[simp] theorem CC.cleared_n (f : CC) : (f.cleared).n = false := rfl
@[simp] theorem CC.cleared_z (f : CC) : (f.cleared).z = true := rfl
@[simp] theorem CC.cleared_v (f : CC) : (f.cleared).v = false := rfl
@[simp] theorem CC.cleared_c (f : CC) : (f.cleared).c = false := rfl
@[simp] theorem CC.ofByte_i (b : Byte) : (CC.ofByte b).i = b.getLsbD 4 := rfl
@[simp] theorem CC.ofByte_n (b : Byte) : (CC.ofByte b).n = b.getLsbD 3 := rfl
@[simp] theorem CC.ofByte_z (b : Byte) : (CC.ofByte b).z = b.getLsbD 2 := rfl
@[simp] theorem CC.ofByte_v (b : Byte) : (CC.ofByte b).v = b.getLsbD 1 := rfl
@[simp] theorem CC.ofByte_c (b : Byte) : (CC.ofByte b).c = b.getLsbD 0 := rfl

/-! The parts of an effect, as the rule of the instruction has them -/

@[simp] theorem negEffect_r (f : CC) (m : Byte) : (negEffect f m).r = (neg8 m).r := rfl
@[simp] theorem negEffect_cc (f : CC) (m : Byte) : (negEffect f m).cc = f.withNZVC (neg8 m) := rfl
@[simp] theorem decEffect_r (f : CC) (m : Byte) : (decEffect f m).r = dec8 m := rfl
@[simp] theorem decEffect_cc (f : CC) (m : Byte) : (decEffect f m).cc = f.withNZV (dec8 m) (decide (m = 0x80)) := rfl
@[simp] theorem incEffect_r (f : CC) (m : Byte) : (incEffect f m).r = inc8 m := rfl
@[simp] theorem incEffect_cc (f : CC) (m : Byte) : (incEffect f m).cc = f.withNZV (inc8 m) (decide (m = 0x7F)) := rfl
@[simp] theorem comEffect_r (f : CC) (m : Byte) : (comEffect f m).r = ~~~m := rfl
@[simp] theorem comEffect_cc (f : CC) (m : Byte) : (comEffect f m).cc = f.logic (~~~m) := rfl
@[simp] theorem asrEffect_r (f : CC) (m : Byte) : (asrEffect f m).r = (asr8 m).r := rfl
@[simp] theorem asrEffect_cc (f : CC) (m : Byte) : (asrEffect f m).cc = f.withNZVC (asr8 m) := rfl
@[simp] theorem lslEffect_r (f : CC) (m : Byte) : (lslEffect f m).r = (shl8 m false).r := rfl
@[simp] theorem lslEffect_cc (f : CC) (m : Byte) : (lslEffect f m).cc = f.withNZVC (shl8 m false) := rfl
@[simp] theorem lsrEffect_r (f : CC) (m : Byte) : (lsrEffect f m).r = (shr8 m false).r := rfl
@[simp] theorem lsrEffect_cc (f : CC) (m : Byte) : (lsrEffect f m).cc = f.withNZVC (shr8 m false) := rfl
@[simp] theorem rolEffect_r (f : CC) (m : Byte) : (rolEffect f m).r = (shl8 m f.c).r := rfl
@[simp] theorem rolEffect_cc (f : CC) (m : Byte) : (rolEffect f m).cc = f.withNZVC (shl8 m f.c) := rfl
@[simp] theorem rorEffect_r (f : CC) (m : Byte) : (rorEffect f m).r = (shr8 m f.c).r := rfl
@[simp] theorem rorEffect_cc (f : CC) (m : Byte) : (rorEffect f m).cc = f.withNZVC (shr8 m f.c) := rfl
@[simp] theorem clrEffect_r (f : CC) (m : Byte) : (clrEffect f m).r = 0 := rfl
@[simp] theorem clrEffect_cc (f : CC) (m : Byte) : (clrEffect f m).cc = f.cleared := rfl
@[simp] theorem addEffect_r (f : CC) (a m : Byte) : (addEffect f a m).r = (add8 a m false).r := rfl
@[simp] theorem addEffect_cc (f : CC) (a m : Byte) : (addEffect f a m).cc = f.withNZVC (add8 a m false) := rfl
@[simp] theorem adcEffect_r (f : CC) (a m : Byte) : (adcEffect f a m).r = (add8 a m f.c).r := rfl
@[simp] theorem adcEffect_cc (f : CC) (a m : Byte) : (adcEffect f a m).cc = f.withNZVC (add8 a m f.c) := rfl
@[simp] theorem subEffect_r (f : CC) (a m : Byte) : (subEffect f a m).r = (sub8 a m false).r := rfl
@[simp] theorem subEffect_cc (f : CC) (a m : Byte) : (subEffect f a m).cc = f.withNZVC (sub8 a m false) := rfl
@[simp] theorem sbcEffect_r (f : CC) (a m : Byte) : (sbcEffect f a m).r = (sub8 a m f.c).r := rfl
@[simp] theorem sbcEffect_cc (f : CC) (a m : Byte) : (sbcEffect f a m).cc = f.withNZVC (sub8 a m f.c) := rfl
@[simp] theorem andEffect_r (f : CC) (a m : Byte) : (andEffect f a m).r = a &&& m := rfl
@[simp] theorem andEffect_cc (f : CC) (a m : Byte) : (andEffect f a m).cc = f.logic (a &&& m) := rfl
@[simp] theorem orEffect_r (f : CC) (a m : Byte) : (orEffect f a m).r = a ||| m := rfl
@[simp] theorem orEffect_cc (f : CC) (a m : Byte) : (orEffect f a m).cc = f.logic (a ||| m) := rfl
@[simp] theorem eorEffect_r (f : CC) (a m : Byte) : (eorEffect f a m).r = a ^^^ m := rfl
@[simp] theorem eorEffect_cc (f : CC) (a m : Byte) : (eorEffect f a m).cc = f.logic (a ^^^ m) := rfl

end Sys2Proof.Machine
end

