-- ==== Sys2Proof/Laws/Ops.lean ====
section
/-! SUPPORT. The shared operations: one lemma for each that says everything it does, and that each keeps the
invariant. -/

namespace Sys2Proof.Machine

/-! ## The ports -/

theorem portAt_eq_some {a : Byte} {p : Port} : portAt a = some p ↔ a = p.address := by
  unfold portAt
  cases p <;> simp only [Port.address] <;> split <;> (try split) <;> simp_all

theorem portAt_eq_none {a : Byte} : portAt a = none ↔ ∀ p : Port, a ≠ p.address := by
  simp only [Option.eq_none_iff_forall_ne_some, ne_eq, portAt_eq_some]

@[simp] theorem portAt_address (p : Port) : portAt p.address = some p := portAt_eq_some.2 rfl

theorem isPortAddress_toNat {a : Byte} : isPortAddress a.toNat = (portAt a).isSome := by
  revert a; decide

@[simp] theorem Port.address_inj {p q : Port} : p.address = q.address ↔ p = q := by
  cases p <;> cases q <;> decide

/-- A state is its fields and its ports. -/
theorem State.eq_of_port {s t : State} (ha : t.a = s.a) (hx : t.x = s.x) (hy : t.y = s.y) (hsp : t.sp = s.sp)
    (hpc : t.pc = s.pc) (hcc : t.cc = s.cc) (hm : t.mem = s.mem) (hport : ∀ p, t.port p = s.port p)
    (hi : SameInputs s t) : t = s := by
  obtain ⟨h1, h2, h3, h4, h5⟩ := hi
  have hb := hport .fb
  have hc := hport .fc
  cases s; cases t; simp_all [State.port]

/-! ## One access -/

@[simp] theorem State.touch_a (s : State) (addr : Byte) : (s.touch addr).a = s.a := by
  unfold State.touch; split <;> simp
@[simp] theorem State.touch_x (s : State) (addr : Byte) : (s.touch addr).x = s.x := by
  unfold State.touch; split <;> simp
@[simp] theorem State.touch_y (s : State) (addr : Byte) : (s.touch addr).y = s.y := by
  unfold State.touch; split <;> simp
@[simp] theorem State.touch_sp (s : State) (addr : Byte) : (s.touch addr).sp = s.sp := by
  unfold State.touch; split <;> simp
@[simp] theorem State.touch_pc (s : State) (addr : Byte) : (s.touch addr).pc = s.pc := by
  unfold State.touch; split <;> simp
@[simp] theorem State.touch_cc (s : State) (addr : Byte) : (s.touch addr).cc = s.cc := by
  unfold State.touch; split <;> simp
@[simp] theorem State.touch_mem (s : State) (addr : Byte) : (s.touch addr).mem = s.mem := by
  unfold State.touch; split <;> simp
@[simp] theorem State.touch_irqIn (s : State) (addr : Byte) : (s.touch addr).irqIn = s.irqIn := by
  unfold State.touch; split <;> simp
@[simp] theorem State.touch_resetIn (s : State) (addr : Byte) : (s.touch addr).resetIn = s.resetIn := by
  unfold State.touch; split <;> simp
@[simp] theorem State.touch_boundaries (s : State) (addr : Byte) : (s.touch addr).boundaries = s.boundaries := by
  unfold State.touch; split <;> simp
@[simp] theorem State.touch_resets (s : State) (addr : Byte) : (s.touch addr).resets = s.resets := by
  unfold State.touch; split <;> simp
@[simp] theorem State.touch_cycles (s : State) (addr : Byte) : (s.touch addr).cycles = s.cycles := by
  unfold State.touch; split <;> simp
@[simp] theorem State.store_a (s : State) (addr v : Byte) : (s.store addr v).a = s.a := by
  unfold State.store; split <;> simp
@[simp] theorem State.store_x (s : State) (addr v : Byte) : (s.store addr v).x = s.x := by
  unfold State.store; split <;> simp
@[simp] theorem State.store_y (s : State) (addr v : Byte) : (s.store addr v).y = s.y := by
  unfold State.store; split <;> simp
@[simp] theorem State.store_sp (s : State) (addr v : Byte) : (s.store addr v).sp = s.sp := by
  unfold State.store; split <;> simp
@[simp] theorem State.store_pc (s : State) (addr v : Byte) : (s.store addr v).pc = s.pc := by
  unfold State.store; split <;> simp
@[simp] theorem State.store_cc (s : State) (addr v : Byte) : (s.store addr v).cc = s.cc := by
  unfold State.store; split <;> simp
@[simp] theorem State.store_irqIn (s : State) (addr v : Byte) : (s.store addr v).irqIn = s.irqIn := by
  unfold State.store; split <;> simp
@[simp] theorem State.store_resetIn (s : State) (addr v : Byte) : (s.store addr v).resetIn = s.resetIn := by
  unfold State.store; split <;> simp
@[simp] theorem State.store_boundaries (s : State) (addr v : Byte) : (s.store addr v).boundaries = s.boundaries := by
  unfold State.store; split <;> simp
@[simp] theorem State.store_resets (s : State) (addr v : Byte) : (s.store addr v).resets = s.resets := by
  unfold State.store; split <;> simp
@[simp] theorem State.store_cycles (s : State) (addr v : Byte) : (s.store addr v).cycles = s.cycles := by
  unfold State.store; split <;> simp

theorem State.look_eq_read {s : State} {addr : Byte} (h : portAt addr = none) : s.look addr = s.mem.read addr := by
  simp [State.look, h]

theorem State.look_port (s : State) (p : Port) : s.look p.address = (s.port p).next p := by
  simp [State.look]

theorem State.touch_eq_self {s : State} {addr : Byte} (h : portAt addr = none) : s.touch addr = s := by
  simp [State.touch, h]

/-- A read uses up one input value of the port at its address (20_memory.md R46). -/
@[simp] theorem State.touch_port (s : State) (addr : Byte) (p : Port) :
    (s.touch addr).port p = if addr = p.address then (s.port p).afterRead else s.port p := by
  unfold State.touch
  split
  · rename_i q h
    rw [portAt_eq_some] at h
    subst h
    simp only [State.setPort_port, Port.address_inj, eq_comm (a := p)]
    split <;> simp_all
  · rename_i h
    rw [if_neg (portAt_eq_none.1 h p)]

/-- A write is sent to the port at its address (R45, R46). -/
@[simp] theorem State.store_port (s : State) (addr v : Byte) (p : Port) :
    (s.store addr v).port p = if addr = p.address then (s.port p).afterWrite v else s.port p := by
  unfold State.store
  split
  · rename_i q h
    rw [portAt_eq_some] at h
    subst h
    simp only [State.setPort_port, Port.address_inj, eq_comm (a := p)]
    split <;> simp_all
  · rename_i h
    rw [if_neg (portAt_eq_none.1 h p)]
    cases p <;> rfl

/-- A write changes the byte at its address, if that is memory, and no other (R45). -/
@[simp] theorem State.store_read (s : State) (addr v b : Byte) :
    (s.store addr v).mem.read b = if portAt addr = none ∧ b = addr then v else s.mem.read b := by
  unfold State.store
  split
  · rename_i h; simp [h]
  · rename_i h; simp [h]

theorem State.store_mem_of_port {s : State} {addr v : Byte} (h : portAt addr ≠ none) :
    (s.store addr v).mem = s.mem := by
  unfold State.store
  split
  · simp
  · contradiction

/-- What a read of memory returns does not depend on the registers. -/
theorem State.look_congr {s t : State} {addr : Byte} (hm : ∀ b, t.mem.read b = s.mem.read b)
    (hp : ∀ p, t.port p = s.port p) : t.look addr = s.look addr := by
  unfold State.look
  split
  · rw [hp]
  · rw [hm]

/-! ## Memory stays canonical -/

theorem State.inv_congr {s t : State} (h : t.mem = s.mem) : t.inv = s.inv := by
  simp [State.inv, h]

theorem State.store_inv {s : State} (addr v : Byte) (h : s.inv = true) : (s.store addr v).inv = true := by
  unfold State.inv State.store at *
  split
  · simpa using h
  · rename_i hp
    exact Memory.wf_write v h (by rw [isPortAddress_toNat, hp]; rfl)

@[simp] theorem State.touch_inv (s : State) (addr : Byte) : (s.touch addr).inv = s.inv :=
  State.inv_congr (by simp)

/-! ## Push and pull -/

@[simp] theorem State.push_sp (s : State) (v : Byte) : (s.push v).sp = s.sp - 1 := by simp [State.push]
@[simp] theorem State.push_a (s : State) (v : Byte) : (s.push v).a = s.a := by simp [State.push]
@[simp] theorem State.push_x (s : State) (v : Byte) : (s.push v).x = s.x := by simp [State.push]
@[simp] theorem State.push_y (s : State) (v : Byte) : (s.push v).y = s.y := by simp [State.push]
@[simp] theorem State.push_pc (s : State) (v : Byte) : (s.push v).pc = s.pc := by simp [State.push]
@[simp] theorem State.push_cc (s : State) (v : Byte) : (s.push v).cc = s.cc := by simp [State.push]
@[simp] theorem State.push_irqIn (s : State) (v : Byte) : (s.push v).irqIn = s.irqIn := by simp [State.push]
@[simp] theorem State.push_resetIn (s : State) (v : Byte) : (s.push v).resetIn = s.resetIn := by simp [State.push]
@[simp] theorem State.push_boundaries (s : State) (v : Byte) : (s.push v).boundaries = s.boundaries := by simp [State.push]
@[simp] theorem State.push_resets (s : State) (v : Byte) : (s.push v).resets = s.resets := by simp [State.push]
@[simp] theorem State.push_cycles (s : State) (v : Byte) : (s.push v).cycles = s.cycles := by simp [State.push]

@[simp] theorem State.push_port (s : State) (v : Byte) (p : Port) :
    (s.push v).port p = if s.sp - 1 = p.address then (s.port p).afterWrite v else s.port p := by
  simp only [State.push, State.store_port]
  cases p <;> rfl

@[simp] theorem State.push_read (s : State) (v b : Byte) :
    (s.push v).mem.read b = if portAt (s.sp - 1) = none ∧ b = s.sp - 1 then v else s.mem.read b := by
  simp [State.push]

theorem State.push_inv {s : State} (v : Byte) (h : s.inv = true) : (s.push v).inv = true :=
  State.store_inv _ _ h

@[simp] theorem State.pull_value (s : State) : s.pull.value = s.look s.sp := rfl
@[simp] theorem State.pull_state_sp (s : State) : s.pull.state.sp = s.sp + 1 := by
  simp [State.pull, State.readByte]
@[simp] theorem State.pull_state_a (s : State) : s.pull.state.a = s.a := by
  simp [State.pull, State.readByte]
@[simp] theorem State.pull_state_x (s : State) : s.pull.state.x = s.x := by
  simp [State.pull, State.readByte]
@[simp] theorem State.pull_state_y (s : State) : s.pull.state.y = s.y := by
  simp [State.pull, State.readByte]
@[simp] theorem State.pull_state_pc (s : State) : s.pull.state.pc = s.pc := by
  simp [State.pull, State.readByte]
@[simp] theorem State.pull_state_cc (s : State) : s.pull.state.cc = s.cc := by
  simp [State.pull, State.readByte]
@[simp] theorem State.pull_state_mem (s : State) : s.pull.state.mem = s.mem := by
  simp [State.pull, State.readByte]
@[simp] theorem State.pull_state_irqIn (s : State) : s.pull.state.irqIn = s.irqIn := by
  simp [State.pull, State.readByte]
@[simp] theorem State.pull_state_resetIn (s : State) : s.pull.state.resetIn = s.resetIn := by
  simp [State.pull, State.readByte]
@[simp] theorem State.pull_state_boundaries (s : State) : s.pull.state.boundaries = s.boundaries := by
  simp [State.pull, State.readByte]
@[simp] theorem State.pull_state_resets (s : State) : s.pull.state.resets = s.resets := by
  simp [State.pull, State.readByte]
@[simp] theorem State.pull_state_cycles (s : State) : s.pull.state.cycles = s.cycles := by
  simp [State.pull, State.readByte]

@[simp] theorem State.pull_state_port (s : State) (p : Port) :
    s.pull.state.port p = if s.sp = p.address then (s.port p).afterRead else s.port p := by
  rw [← State.touch_port]
  cases p <;> rfl

@[simp] theorem State.pull_state_inv (s : State) : s.pull.state.inv = s.inv := State.inv_congr (by simp)

/-! ## Exceptions -/

@[simp] theorem State.pushFrame_sp (s : State) : s.pushFrame.sp = s.sp - 5 := by
  simp only [State.pushFrame, State.push_sp]; bv_omega
@[simp] theorem State.pushFrame_a (s : State) : s.pushFrame.a = s.a := by simp [State.pushFrame]
@[simp] theorem State.pushFrame_x (s : State) : s.pushFrame.x = s.x := by simp [State.pushFrame]
@[simp] theorem State.pushFrame_y (s : State) : s.pushFrame.y = s.y := by simp [State.pushFrame]
@[simp] theorem State.pushFrame_pc (s : State) : s.pushFrame.pc = s.pc := by simp [State.pushFrame]
@[simp] theorem State.pushFrame_cc (s : State) : s.pushFrame.cc = s.cc := by simp [State.pushFrame]
@[simp] theorem State.pushFrame_irqIn (s : State) : s.pushFrame.irqIn = s.irqIn := by simp [State.pushFrame]
@[simp] theorem State.pushFrame_resetIn (s : State) : s.pushFrame.resetIn = s.resetIn := by simp [State.pushFrame]
@[simp] theorem State.pushFrame_boundaries (s : State) : s.pushFrame.boundaries = s.boundaries := by simp [State.pushFrame]
@[simp] theorem State.pushFrame_resets (s : State) : s.pushFrame.resets = s.resets := by simp [State.pushFrame]
@[simp] theorem State.pushFrame_cycles (s : State) : s.pushFrame.cycles = s.cycles := by simp [State.pushFrame]

theorem State.pushFrame_inv {s : State} (h : s.inv = true) : s.pushFrame.inv = true :=
  State.push_inv _ (State.push_inv _ (State.push_inv _ (State.push_inv _ (State.push_inv _ h))))

/-- The five bytes of a frame are at five addresses: those of the pushes, one by one. -/
theorem frame_addresses (a : Byte) :
    a - 1 - 1 = a - 2 ∧ a - 2 - 1 = a - 3 ∧ a - 3 - 1 = a - 4 ∧ a - 4 - 1 = a - 5 := by
  refine ⟨?_, ?_, ?_, ?_⟩ <;> bv_omega

theorem frame_distinct (a : Byte) :
    a - 1 ≠ a - 2 ∧ a - 1 ≠ a - 3 ∧ a - 1 ≠ a - 4 ∧ a - 1 ≠ a - 5 ∧ a - 2 ≠ a - 3 ∧ a - 2 ≠ a - 4 ∧
      a - 2 ≠ a - 5 ∧ a - 3 ≠ a - 4 ∧ a - 3 ≠ a - 5 ∧ a - 4 ≠ a - 5 := by
  refine ⟨?_, ?_, ?_, ?_, ?_, ?_, ?_, ?_, ?_, ?_⟩ <;> bv_omega

/-- The frame's bytes are at their addresses, but for those that are ports (R274). -/
theorem State.pushFrame_read_frame (s : State) :
    ∀ e ∈ entryFrame s.pc s, portAt e.1 = none → s.pushFrame.mem.read e.1 = e.2 := by
  obtain ⟨e1, e2, e3, e4⟩ := frame_addresses s.sp
  obtain ⟨d1, d2, d3, d4, d5, d6, d7, d8, d9, d10⟩ := frame_distinct s.sp
  simp only [entryFrame, List.forall_mem_cons, State.pushFrame, State.push_read, State.push_sp, e1, e2, e3, e4]
  generalize s.sp - 1 = a1, s.sp - 2 = a2, s.sp - 3 = a3, s.sp - 4 = a4, s.sp - 5 = a5 at *
  refine ⟨?_, ?_, ?_, ?_, ?_, by simp⟩ <;> intro h <;> simp [*]

/-- Every other byte is as before (R274). -/
theorem State.pushFrame_read_other (s : State) (b : Byte)
    (h : portAt b ≠ none ∨ ∀ e ∈ entryFrame s.pc s, e.1 ≠ b) : s.pushFrame.mem.read b = s.mem.read b := by
  obtain ⟨e1, e2, e3, e4⟩ := frame_addresses s.sp
  simp only [State.pushFrame, State.push_read, State.push_sp, e1, e2, e3, e4]
  have key : ∀ c : Byte, c ∈ (entryFrame s.pc s).map Prod.fst → ¬(portAt c = none ∧ b = c) := by
    rintro c hc ⟨hp, rfl⟩
    rcases h with h | h
    · exact h hp
    · obtain ⟨e, he, rfl⟩ := List.mem_map.1 hc
      exact h e he rfl
  simp only [entryFrame, List.map_cons, List.map_nil] at key
  rw [if_neg (key _ (by simp)), if_neg (key _ (by simp)), if_neg (key _ (by simp)),
    if_neg (key _ (by simp)), if_neg (key _ (by simp))]

/-- A frame byte whose address is a port is sent there (R274). -/
theorem State.pushFrame_port (s : State) (p : Port) :
    s.pushFrame.port p =
      match (entryFrame s.pc s).find? (fun e => e.1 == p.address) with
      | some e => (s.port p).afterWrite e.2
      | none => s.port p := by
  obtain ⟨e1, e2, e3, e4⟩ := frame_addresses s.sp
  obtain ⟨d1, d2, d3, d4, d5, d6, d7, d8, d9, d10⟩ := frame_distinct s.sp
  simp only [State.pushFrame, State.push_port, State.push_sp, e1, e2, e3, e4, entryFrame]
  generalize s.sp - 1 = a1, s.sp - 2 = a2, s.sp - 3 = a3, s.sp - 4 = a4, s.sp - 5 = a5 at *
  generalize p.address = c
  by_cases h1 : a1 = c
  · subst h1; simp [d1.symm, d2.symm, d3.symm, d4.symm]
  by_cases h2 : a2 = c
  · subst h2; simp [h1, d5.symm, d6.symm, d7.symm]
  by_cases h3 : a3 = c
  · subst h3; simp [h1, h2, d8.symm, d9.symm]
  by_cases h4 : a4 = c
  · subst h4; simp [h1, h2, h3, d10.symm]
  by_cases h5 : a5 = c <;> simp [h1, h2, h3, h4, h5, beq_eq_false_iff_ne.2]

/-- `Entry(vec)` (60_exceptions.md R274, R276): everything it does, for a vector that is no port. -/
theorem State.enter_spec {vec : Byte} (s : State) (hv : portAt vec = none) :
    EntersThrough vec s.pc s (s.enter vec) ∧ SameInputs s (s.enter vec) := by
  have hm : (s.enter vec).mem = s.pushFrame.mem := by simp [State.enter, State.readByte]
  have hp : ∀ p, (s.enter vec).port p = s.pushFrame.port p := by
    intro p
    simp only [State.enter, State.readByte, State.touch_eq_self hv]
    cases p <;> simp only [State.port]
  unfold EntersThrough SameInputs
  refine ⟨⟨?_, ?_, ?_, ?_, ?_, ?_, ?_, ?_, ?_⟩, ?_⟩
  · simp [State.enter, State.readByte]
  · simp [State.enter, State.readByte]
  · simp [State.enter, State.readByte]
  · simp [State.enter, State.readByte]
  · simp [State.enter, State.readByte]
  · rw [hm]; simp [State.enter, State.readByte, State.look, hv]
  · intro e he hp; rw [hm]; exact s.pushFrame_read_frame e he hp
  · intro b hb; rw [hm]; exact s.pushFrame_read_other b hb
  · intro p; exact (hp p).trans (s.pushFrame_port p)
  · simp [State.enter, State.readByte]

/-- An entry is the same from any state with the same registers, memory and ports. -/
theorem EntersThrough.of_eq {vec pc : Byte} {s u t : State} (h : EntersThrough vec pc u t) (ha : u.a = s.a)
    (hx : u.x = s.x) (hy : u.y = s.y) (hsp : u.sp = s.sp) (hcc : u.cc = s.cc) (hm : u.mem = s.mem)
    (hp : ∀ p, u.port p = s.port p) : EntersThrough vec pc s t := by
  unfold EntersThrough entryFrame at *
  simpa only [ha, hx, hy, hsp, hcc, hm, hp] using h

theorem State.enter_inv {s : State} (vec : Byte) (h : s.inv = true) : (s.enter vec).inv = true := by
  rw [← State.pushFrame_inv h]
  exact State.inv_congr (by simp [State.enter, State.readByte])

/-- A read does not change what a read at another address returns. -/
theorem State.look_touch {s : State} {addr b : Byte} (h : addr ≠ b) : (s.touch addr).look b = s.look b := by
  by_cases hp : portAt b = none
  · rw [State.look_eq_read hp, State.look_eq_read hp, State.touch_mem]
  · obtain ⟨p, hp⟩ := Option.ne_none_iff_exists'.1 hp
    rw [portAt_eq_some] at hp
    subst hp
    rw [State.look_port, State.look_port, State.touch_port, if_neg h]

/-- A write does not change what a read at another address returns. -/
theorem State.look_store {s : State} {addr v b : Byte} (h : b ≠ addr) : (s.store addr v).look b = s.look b := by
  by_cases hp : portAt b = none
  · rw [State.look_eq_read hp, State.look_eq_read hp, State.store_read, if_neg (fun hb => h hb.2)]
  · obtain ⟨p, hp⟩ := Option.ne_none_iff_exists'.1 hp
    rw [portAt_eq_some] at hp
    subst hp
    rw [State.look_port, State.look_port, State.store_port, if_neg h.symm]

/-- A byte written to memory is read back (20_memory.md R40, R45). -/
theorem State.look_store_self {s : State} {addr v : Byte} (h : portAt addr = none) : (s.store addr v).look addr = v := by
  rw [State.look_eq_read h, State.store_read, if_pos ⟨h, rfl⟩]

/-- After one write to memory, the byte written is read at its address, and every other address reads as before. -/
theorem State.look_of_write {s t : State} {ea v : Byte} (hp : portAt ea = none)
    (hm : ∀ b, t.mem.read b = if portAt ea = none ∧ b = ea then v else s.mem.read b)
    (hq : ∀ p, t.port p = s.port p) : t.look ea = v ∧ ∀ b, b ≠ ea → t.look b = s.look b := by
  refine ⟨by rw [State.look_eq_read hp, hm, if_pos ⟨hp, rfl⟩], fun b hb => ?_⟩
  cases hb' : portAt b with
  | none => rw [State.look_eq_read hb', State.look_eq_read hb', hm, if_neg fun h => hb h.2]
  | some p => rw [portAt_eq_some.1 hb', State.look_port, State.look_port, hq]

/-- What the second pull returns: the byte above, as it was. -/
theorem State.look_pull {s : State} {b : Byte} (h : s.sp ≠ b) : s.pull.state.look b = s.look b := by
  have : s.pull.state.look b = (s.touch s.sp).look b := State.look_congr (by simp) (by simp)
  rw [this, State.look_touch h]

/-- What a read returns depends on memory and ports only. -/
theorem State.look_eq_of {s t : State} {b : Byte} (hm : t.mem = s.mem) (hp : ∀ p, t.port p = s.port p) :
    t.look b = s.look b :=
  State.look_congr (by simp [hm]) hp

theorem pull_addresses (a : Byte) :
    a + 1 + 1 = a + 2 ∧ a + 2 + 1 = a + 3 ∧ a + 3 + 1 = a + 4 ∧ a + 4 + 1 = a + 5 := by
  refine ⟨?_, ?_, ?_, ?_⟩ <;> bv_omega

theorem pull_distinct (a : Byte) :
    a ≠ a + 1 ∧ a ≠ a + 2 ∧ a ≠ a + 3 ∧ a ≠ a + 4 ∧ a + 1 ≠ a + 2 ∧ a + 1 ≠ a + 3 ∧ a + 1 ≠ a + 4 ∧
      a + 2 ≠ a + 3 ∧ a + 2 ≠ a + 4 ∧ a + 3 ≠ a + 4 := by
  refine ⟨?_, ?_, ?_, ?_, ?_, ?_, ?_, ?_, ?_, ?_⟩ <;> bv_omega

/-- The state's registers do not matter to `touch`. -/
theorem State.touch_with (s : State) (a x y sp pc addr : Byte) (cc : CC) :
    { s with a := a, x := x, y := y, sp := sp, pc := pc, cc := cc }.touch addr =
      { s.touch addr with a := a, x := x, y := y, sp := sp, pc := pc, cc := cc } := by
  simp only [State.touch]
  split
  · rename_i p _; cases p <;> rfl
  · rfl

/-- Nor to `look`. -/
theorem State.look_with (s : State) (a x y sp pc addr : Byte) (cc : CC) :
    { s with a := a, x := x, y := y, sp := sp, pc := pc, cc := cc }.look addr = s.look addr := by
  simp only [State.look]
  split
  · rename_i p _; cases p <;> rfl
  · rfl

/-- The five pulls of the return: what they load and what they read (42_flow_control.md R161). -/
theorem State.leave_spec (s : State) :
    s.leave.cc = CC.ofByte (s.look s.sp) ∧ s.leave.a = s.look (s.sp + 1) ∧ s.leave.x = s.look (s.sp + 2) ∧
      s.leave.y = s.look (s.sp + 3) ∧ s.leave.pc = s.look (s.sp + 4) ∧ s.leave.sp = s.sp + 5 ∧
      s.leave.mem = s.mem ∧ SameInputs s s.leave ∧
      ∀ p : Port, s.leave.port p =
        if p.address ∈ [s.sp, s.sp + 1, s.sp + 2, s.sp + 3, s.sp + 4] then (s.port p).afterRead
        else s.port p := by
  obtain ⟨e1, e2, e3, e4⟩ := pull_addresses s.sp
  obtain ⟨d1, d2, d3, d4, d5, d6, d7, d8, d9, d10⟩ := pull_distinct s.sp
  have key : s.leave =
      { ((((s.touch s.sp).touch (s.sp + 1)).touch (s.sp + 2)).touch (s.sp + 3)).touch (s.sp + 4) with
        cc := CC.ofByte (s.look s.sp)
        a := s.look (s.sp + 1)
        x := s.look (s.sp + 2)
        y := s.look (s.sp + 3)
        pc := s.look (s.sp + 4)
        sp := s.sp + 5 } := by
    simp only [State.leave, State.pull, State.readByte, State.touch_sp, State.touch_with, State.look_with, e1, e2,
      e3, e4]
    simp only [State.look_touch, d1, d2, d3, d4, d5, d6, d7, d8, d9, d10, ne_eq, not_false_eq_true]
  have hport : ∀ p : Port, s.leave.port p =
      (((((s.touch s.sp).touch (s.sp + 1)).touch (s.sp + 2)).touch (s.sp + 3)).touch (s.sp + 4)).port p := by
    intro p; rw [key]; cases p <;> simp only [State.port]
  refine ⟨by rw [key], by rw [key], by rw [key], by rw [key], by rw [key], by rw [key], by rw [key]; simp,
    by rw [key]; simp [SameInputs], fun p => ?_⟩
  rw [hport]
  simp only [State.touch_port, List.mem_cons, List.not_mem_nil, or_false]
  clear key hport e1 e2 e3 e4
  generalize s.sp + 1 = a1, s.sp + 2 = a2, s.sp + 3 = a3, s.sp + 4 = a4 at *
  generalize s.sp = a0 at *
  generalize p.address = c
  by_cases h0 : a0 = c
  · subst h0; simp [d1.symm, d2.symm, d3.symm, d4.symm]
  by_cases h1 : a1 = c
  · subst h1; simp [h0, d5.symm, d6.symm, d7.symm]
  by_cases h2 : a2 = c
  · subst h2; simp [h0, h1, d8.symm, d9.symm]
  by_cases h3 : a3 = c
  · subst h3; simp [h0, h1, h2, d10.symm]
  by_cases h4 : a4 = c <;> simp [h0, h1, h2, h3, h4, Ne.symm]

end Sys2Proof.Machine
end

