-- ==== Sys2Proof/Laws/Operands.lean ====
section
/-! SUPPORT. The operand forms: what reading, writing and modifying an operand does to each field. -/

namespace Sys2Proof.Machine

/-! ## The address of each form (30_encoding.md R72 to R78) -/

@[simp] theorem formAddress_ab (s : State) (b : Byte) : formAddress (.ab b) s = b := rfl
@[simp] theorem formAddress_ns (s : State) (b : Byte) : formAddress (.ns b) s = s.sp + b := rfl
@[simp] theorem formAddress_nx (s : State) (b : Byte) : formAddress (.nx b) s = s.x + b := rfl
@[simp] theorem formAddress_ny (s : State) (b : Byte) : formAddress (.ny b) s = s.y + b := rfl
@[simp] theorem formAddress_ax (s : State) : formAddress .ax s = s.x + s.a := rfl
@[simp] theorem formAddress_ay (s : State) : formAddress .ay s = s.y + s.a := rfl
@[simp] theorem formAddress_preIncX (s : State) : formAddress .preIncX s = s.x + 1 := rfl
@[simp] theorem formAddress_preDecX (s : State) : formAddress .preDecX s = s.x - 1 := rfl
@[simp] theorem formAddress_postIncX (s : State) : formAddress .postIncX s = s.x := rfl
@[simp] theorem formAddress_postDecX (s : State) : formAddress .postDecX s = s.x := rfl
@[simp] theorem formAddress_preIncY (s : State) : formAddress .preIncY s = s.y + 1 := rfl
@[simp] theorem formAddress_preDecY (s : State) : formAddress .preDecY s = s.y - 1 := rfl
@[simp] theorem formAddress_postIncY (s : State) : formAddress .postIncY s = s.y := rfl
@[simp] theorem formAddress_postDecY (s : State) : formAddress .postDecY s = s.y := rfl

@[simp] theorem preIndex_x (m : MemForm) (s : State) :
    (preIndex m s).x = match m with
      | .preIncX => s.x + 1
      | .preDecX => s.x - 1
      | _ => s.x := by
  cases m <;> rfl

@[simp] theorem preIndex_y (m : MemForm) (s : State) :
    (preIndex m s).y = match m with
      | .preIncY => s.y + 1
      | .preDecY => s.y - 1
      | _ => s.y := by
  cases m <;> rfl

@[simp] theorem preIndex_look (m : MemForm) (s : State) (b : Byte) : (preIndex m s).look b = s.look b :=
  State.look_eq_of (by simp) (by simp)

/-- The index registers after both updates: those of `formX` and `formY`, whatever was accessed between them. -/
theorem postIndex_x_of {m : MemForm} {s t : State} (h : t.x = (preIndex m s).x) :
    (postIndex m t).x = formX m s.x := by
  rw [preIndex_x] at h
  cases m <;> simp_all [postIndex, formX]

theorem postIndex_y_of {m : MemForm} {s t : State} (h : t.y = (preIndex m s).y) :
    (postIndex m t).y = formY m s.y := by
  rw [preIndex_y] at h
  cases m <;> simp_all [postIndex, formY]

/-- The plain forms, the targets and the forms of LEA change no index register (30_encoding.md R72 to R76). -/
theorem formX_of_plain {m : MemForm} (h : m.isPlain = true) (x : Byte) : formX m x = x := by
  cases m <;> simp_all [MemForm.isPlain, formX]

theorem formY_of_plain {m : MemForm} (h : m.isPlain = true) (y : Byte) : formY m y = y := by
  cases m <;> simp_all [MemForm.isPlain, formY]

theorem formX_of_data {m : MemForm} (h : Operand.isData (.mem m) = true) (x : Byte) : formX m x = x := by
  cases m <;> simp_all [Operand.isData, formX]

theorem formY_of_data {m : MemForm} (h : Operand.isData (.mem m) = true) (y : Byte) : formY m y = y := by
  cases m <;> simp_all [Operand.isData, formY]

theorem Operand.isData_of_isCmpXY {o : Operand} (h : o.isCmpXY = true) : o.isData = true := by
  rcases o with _ | m
  · rfl
  · cases m <;> simp_all [Operand.isCmpXY, Operand.isData]

theorem Operand.isData_of_isCmpSP {o : Operand} (h : o.isCmpSP = true) : o.isData = true := by
  rcases o with _ | m
  · rfl
  · cases m <;> simp_all [Operand.isCmpSP, Operand.isData]

/-! ## Reading an operand -/

@[simp] theorem readForm_value (m : MemForm) (s : State) : (readForm m s).value = s.look (formAddress m s) := by
  simp [readForm, State.readByte, formAddress]

@[simp] theorem readForm_x (m : MemForm) (s : State) : (readForm m s).state.x = formX m s.x :=
  postIndex_x_of (by simp only [State.readByte, State.touch_x])

@[simp] theorem readForm_y (m : MemForm) (s : State) : (readForm m s).state.y = formY m s.y :=
  postIndex_y_of (by simp only [State.readByte, State.touch_y])

@[simp] theorem readForm_a (m : MemForm) (s : State) : (readForm m s).state.a = s.a := by
  simp [readForm, State.readByte]
@[simp] theorem readForm_sp (m : MemForm) (s : State) : (readForm m s).state.sp = s.sp := by
  simp [readForm, State.readByte]
@[simp] theorem readForm_pc (m : MemForm) (s : State) : (readForm m s).state.pc = s.pc := by
  simp [readForm, State.readByte]
@[simp] theorem readForm_cc (m : MemForm) (s : State) : (readForm m s).state.cc = s.cc := by
  simp [readForm, State.readByte]
@[simp] theorem readForm_irqIn (m : MemForm) (s : State) : (readForm m s).state.irqIn = s.irqIn := by
  simp [readForm, State.readByte]
@[simp] theorem readForm_resetIn (m : MemForm) (s : State) : (readForm m s).state.resetIn = s.resetIn := by
  simp [readForm, State.readByte]
@[simp] theorem readForm_boundaries (m : MemForm) (s : State) : (readForm m s).state.boundaries = s.boundaries := by
  simp [readForm, State.readByte]
@[simp] theorem readForm_resets (m : MemForm) (s : State) : (readForm m s).state.resets = s.resets := by
  simp [readForm, State.readByte]
@[simp] theorem readForm_cycles (m : MemForm) (s : State) : (readForm m s).state.cycles = s.cycles := by
  simp [readForm, State.readByte]
@[simp] theorem readForm_mem (m : MemForm) (s : State) : (readForm m s).state.mem = s.mem := by
  simp [readForm, State.readByte]

@[simp] theorem readForm_port (m : MemForm) (s : State) (p : Port) :
    (readForm m s).state.port p = if formAddress m s = p.address then (s.port p).afterRead else s.port p := by
  simp only [readForm, State.readByte, postIndex_port, State.touch_port, preIndex_port]
  rfl

@[simp] theorem readOperand_value (o : Operand) (s : State) : (readOperand o s).value = operandValue o s := by
  cases o <;> simp [readOperand, operandValue]

@[simp] theorem readOperand_a (o : Operand) (s : State) : (readOperand o s).state.a = s.a := by
  cases o <;> simp [readOperand]
@[simp] theorem readOperand_sp (o : Operand) (s : State) : (readOperand o s).state.sp = s.sp := by
  cases o <;> simp [readOperand]
@[simp] theorem readOperand_pc (o : Operand) (s : State) : (readOperand o s).state.pc = s.pc := by
  cases o <;> simp [readOperand]
@[simp] theorem readOperand_cc (o : Operand) (s : State) : (readOperand o s).state.cc = s.cc := by
  cases o <;> simp [readOperand]
@[simp] theorem readOperand_irqIn (o : Operand) (s : State) : (readOperand o s).state.irqIn = s.irqIn := by
  cases o <;> simp [readOperand]
@[simp] theorem readOperand_resetIn (o : Operand) (s : State) : (readOperand o s).state.resetIn = s.resetIn := by
  cases o <;> simp [readOperand]
@[simp] theorem readOperand_boundaries (o : Operand) (s : State) : (readOperand o s).state.boundaries = s.boundaries := by
  cases o <;> simp [readOperand]
@[simp] theorem readOperand_resets (o : Operand) (s : State) : (readOperand o s).state.resets = s.resets := by
  cases o <;> simp [readOperand]
@[simp] theorem readOperand_cycles (o : Operand) (s : State) : (readOperand o s).state.cycles = s.cycles := by
  cases o <;> simp [readOperand]
@[simp] theorem readOperand_mem (o : Operand) (s : State) : (readOperand o s).state.mem = s.mem := by
  cases o <;> simp [readOperand]

@[simp] theorem readOperand_port (o : Operand) (s : State) (p : Port) :
    (readOperand o s).state.port p =
      if operandAddress o s = some p.address then (s.port p).afterRead else s.port p := by
  cases o <;> simp [readOperand, operandAddress]

/-- X after a source operand is read. -/
theorem readOperand_x (o : Operand) (s : State) :
    (readOperand o s).state.x = match o with
      | .im _ => s.x
      | .mem m => formX m s.x := by
  cases o <;> simp [readOperand]

/-- Y after a source operand is read. -/
theorem readOperand_y (o : Operand) (s : State) :
    (readOperand o s).state.y = match o with
      | .im _ => s.y
      | .mem m => formY m s.y := by
  cases o <;> simp [readOperand]

theorem readOperand_x_of_data {o : Operand} (h : o.isData = true) (s : State) : (readOperand o s).state.x = s.x := by
  rw [readOperand_x]
  cases o with
  | im d => rfl
  | mem m => exact formX_of_data h _

theorem readOperand_y_of_data {o : Operand} (h : o.isData = true) (s : State) : (readOperand o s).state.y = s.y := by
  rw [readOperand_y]
  cases o with
  | im d => rfl
  | mem m => exact formY_of_data h _

/-! ## Writing an operand -/

@[simp] theorem writeForm_x (m : MemForm) (v : Byte) (s : State) : (writeForm m v s).x = formX m s.x :=
  postIndex_x_of (by simp only [State.store_x])

@[simp] theorem writeForm_y (m : MemForm) (v : Byte) (s : State) : (writeForm m v s).y = formY m s.y :=
  postIndex_y_of (by simp only [State.store_y])

@[simp] theorem writeForm_a (m : MemForm) (v : Byte) (s : State) : (writeForm m v s).a = s.a := by
  simp [writeForm]
@[simp] theorem writeForm_sp (m : MemForm) (v : Byte) (s : State) : (writeForm m v s).sp = s.sp := by
  simp [writeForm]
@[simp] theorem writeForm_pc (m : MemForm) (v : Byte) (s : State) : (writeForm m v s).pc = s.pc := by
  simp [writeForm]
@[simp] theorem writeForm_cc (m : MemForm) (v : Byte) (s : State) : (writeForm m v s).cc = s.cc := by
  simp [writeForm]
@[simp] theorem writeForm_irqIn (m : MemForm) (v : Byte) (s : State) : (writeForm m v s).irqIn = s.irqIn := by
  simp [writeForm]
@[simp] theorem writeForm_resetIn (m : MemForm) (v : Byte) (s : State) : (writeForm m v s).resetIn = s.resetIn := by
  simp [writeForm]
@[simp] theorem writeForm_boundaries (m : MemForm) (v : Byte) (s : State) : (writeForm m v s).boundaries = s.boundaries := by
  simp [writeForm]
@[simp] theorem writeForm_resets (m : MemForm) (v : Byte) (s : State) : (writeForm m v s).resets = s.resets := by
  simp [writeForm]
@[simp] theorem writeForm_cycles (m : MemForm) (v : Byte) (s : State) : (writeForm m v s).cycles = s.cycles := by
  simp [writeForm]

@[simp] theorem writeForm_port (m : MemForm) (v : Byte) (s : State) (p : Port) :
    (writeForm m v s).port p = if formAddress m s = p.address then (s.port p).afterWrite v else s.port p := by
  simp only [writeForm, postIndex_port, State.store_port, preIndex_port]
  rfl

@[simp] theorem writeForm_read (m : MemForm) (v : Byte) (s : State) (b : Byte) :
    (writeForm m v s).mem.read b =
      if portAt (formAddress m s) = none ∧ b = formAddress m s then v else s.mem.read b := by
  simp only [writeForm, postIndex_mem, State.store_read, preIndex_mem]
  rfl

theorem writeForm_inv {m : MemForm} {s : State} (v : Byte) (h : s.inv = true) : (writeForm m v s).inv = true := by
  have h1 : (preIndex m s).inv = true := by rw [State.inv_congr (preIndex_mem m s)]; exact h
  exact (State.inv_congr (postIndex_mem m _)).trans (State.store_inv _ _ h1)

/-! ## Modifying an operand -/

/-- What a read-modify-write computes, from the state before it. -/
theorem modifyForm_eq (op : CC → Byte → Effect) (m : MemForm) (s : State) :
    modifyForm op m s =
      postIndex m
        { ((preIndex m s).touch (formAddress m s)).store (formAddress m s) (op s.cc (s.look (formAddress m s))).r with
          cc := (op s.cc (s.look (formAddress m s))).cc } := by
  simp only [modifyForm, State.readByte, preIndex_look, preIndex_cc, formAddress]

@[simp] theorem modifyForm_cc (op : CC → Byte → Effect) (m : MemForm) (s : State) :
    (modifyForm op m s).cc = (op s.cc (s.look (formAddress m s))).cc := by
  rw [modifyForm_eq, postIndex_cc]

@[simp] theorem modifyForm_x (op : CC → Byte → Effect) (m : MemForm) (s : State) :
    (modifyForm op m s).x = formX m s.x := by
  rw [modifyForm_eq]
  exact postIndex_x_of (by simp only [State.store_x, State.touch_x])

@[simp] theorem modifyForm_y (op : CC → Byte → Effect) (m : MemForm) (s : State) :
    (modifyForm op m s).y = formY m s.y := by
  rw [modifyForm_eq]
  exact postIndex_y_of (by simp only [State.store_y, State.touch_y])

@[simp] theorem modifyForm_a (op : CC → Byte → Effect) (m : MemForm) (s : State) :
    (modifyForm op m s).a = s.a := by
  simp [modifyForm_eq]
@[simp] theorem modifyForm_sp (op : CC → Byte → Effect) (m : MemForm) (s : State) :
    (modifyForm op m s).sp = s.sp := by
  simp [modifyForm_eq]
@[simp] theorem modifyForm_pc (op : CC → Byte → Effect) (m : MemForm) (s : State) :
    (modifyForm op m s).pc = s.pc := by
  simp [modifyForm_eq]
@[simp] theorem modifyForm_irqIn (op : CC → Byte → Effect) (m : MemForm) (s : State) :
    (modifyForm op m s).irqIn = s.irqIn := by
  simp [modifyForm_eq]
@[simp] theorem modifyForm_resetIn (op : CC → Byte → Effect) (m : MemForm) (s : State) :
    (modifyForm op m s).resetIn = s.resetIn := by
  simp [modifyForm_eq]
@[simp] theorem modifyForm_boundaries (op : CC → Byte → Effect) (m : MemForm) (s : State) :
    (modifyForm op m s).boundaries = s.boundaries := by
  simp [modifyForm_eq]
@[simp] theorem modifyForm_resets (op : CC → Byte → Effect) (m : MemForm) (s : State) :
    (modifyForm op m s).resets = s.resets := by
  simp [modifyForm_eq]
@[simp] theorem modifyForm_cycles (op : CC → Byte → Effect) (m : MemForm) (s : State) :
    (modifyForm op m s).cycles = s.cycles := by
  simp [modifyForm_eq]

@[simp] theorem modifyForm_port (op : CC → Byte → Effect) (m : MemForm) (s : State) (p : Port) :
    (modifyForm op m s).port p =
      if formAddress m s = p.address then
        (s.port p).afterRead.afterWrite (op s.cc (s.look (formAddress m s))).r
      else s.port p := by
  rw [modifyForm_eq, postIndex_port]
  have h : ∀ (t : State) (c : CC), State.port { t with cc := c } p = t.port p := by
    intro t c; cases p <;> rfl
  rw [h, State.store_port, State.touch_port, preIndex_port]
  split <;> rfl

@[simp] theorem modifyForm_read (op : CC → Byte → Effect) (m : MemForm) (s : State) (b : Byte) :
    (modifyForm op m s).mem.read b =
      if portAt (formAddress m s) = none ∧ b = formAddress m s then (op s.cc (s.look (formAddress m s))).r
      else s.mem.read b := by
  simp [modifyForm_eq]

theorem modifyForm_inv {op : CC → Byte → Effect} {m : MemForm} {s : State} (h : s.inv = true) :
    (modifyForm op m s).inv = true := by
  have h1 : ((preIndex m s).touch (formAddress m s)).inv = true := by
    rw [State.touch_inv, State.inv_congr (preIndex_mem m s)]; exact h
  rw [modifyForm_eq, State.inv_congr (postIndex_mem m _)]
  exact State.store_inv _ _ h1

/-! ## The whole instructions that share an operation -/

@[simp] theorem modifyA_a (op : CC → Byte → Effect) (s : State) : (modifyA op s).a = (op s.cc s.a).r := rfl
@[simp] theorem modifyA_x (op : CC → Byte → Effect) (s : State) : (modifyA op s).x = s.x := rfl
@[simp] theorem modifyA_y (op : CC → Byte → Effect) (s : State) : (modifyA op s).y = s.y := rfl
@[simp] theorem modifyA_sp (op : CC → Byte → Effect) (s : State) : (modifyA op s).sp = s.sp := rfl
@[simp] theorem modifyA_pc (op : CC → Byte → Effect) (s : State) : (modifyA op s).pc = s.pc + 1 := rfl
@[simp] theorem modifyA_cc (op : CC → Byte → Effect) (s : State) : (modifyA op s).cc = (op s.cc s.a).cc := rfl
@[simp] theorem modifyA_mem (op : CC → Byte → Effect) (s : State) : (modifyA op s).mem = s.mem := rfl
@[simp] theorem modifyA_portFB (op : CC → Byte → Effect) (s : State) : (modifyA op s).portFB = s.portFB := rfl
@[simp] theorem modifyA_portFC (op : CC → Byte → Effect) (s : State) : (modifyA op s).portFC = s.portFC := rfl
@[simp] theorem modifyA_irqIn (op : CC → Byte → Effect) (s : State) : (modifyA op s).irqIn = s.irqIn := rfl
@[simp] theorem modifyA_resetIn (op : CC → Byte → Effect) (s : State) : (modifyA op s).resetIn = s.resetIn := rfl
@[simp] theorem modifyA_boundaries (op : CC → Byte → Effect) (s : State) :
    (modifyA op s).boundaries = s.boundaries := rfl
@[simp] theorem modifyA_resets (op : CC → Byte → Effect) (s : State) : (modifyA op s).resets = s.resets := rfl
@[simp] theorem modifyA_cycles (op : CC → Byte → Effect) (s : State) : (modifyA op s).cycles = s.cycles := rfl
@[simp] theorem modifyA_port (op : CC → Byte → Effect) (s : State) (p : Port) :
    (modifyA op s).port p = s.port p := by
  cases p <;> rfl

@[simp] theorem modifyMem_a (op : CC → Byte → Effect) (m : MemForm) (s : State) :
    (modifyMem op m s).a = s.a :=
  modifyForm_a op m s
@[simp] theorem modifyMem_sp (op : CC → Byte → Effect) (m : MemForm) (s : State) :
    (modifyMem op m s).sp = s.sp :=
  modifyForm_sp op m s
@[simp] theorem modifyMem_irqIn (op : CC → Byte → Effect) (m : MemForm) (s : State) :
    (modifyMem op m s).irqIn = s.irqIn :=
  modifyForm_irqIn op m s
@[simp] theorem modifyMem_resetIn (op : CC → Byte → Effect) (m : MemForm) (s : State) :
    (modifyMem op m s).resetIn = s.resetIn :=
  modifyForm_resetIn op m s
@[simp] theorem modifyMem_boundaries (op : CC → Byte → Effect) (m : MemForm) (s : State) :
    (modifyMem op m s).boundaries = s.boundaries :=
  modifyForm_boundaries op m s
@[simp] theorem modifyMem_resets (op : CC → Byte → Effect) (m : MemForm) (s : State) :
    (modifyMem op m s).resets = s.resets :=
  modifyForm_resets op m s
@[simp] theorem modifyMem_cycles (op : CC → Byte → Effect) (m : MemForm) (s : State) :
    (modifyMem op m s).cycles = s.cycles :=
  modifyForm_cycles op m s
@[simp] theorem modifyMem_x (op : CC → Byte → Effect) (m : MemForm) (s : State) :
    (modifyMem op m s).x = formX m s.x :=
  modifyForm_x op m s
@[simp] theorem modifyMem_y (op : CC → Byte → Effect) (m : MemForm) (s : State) :
    (modifyMem op m s).y = formY m s.y :=
  modifyForm_y op m s
@[simp] theorem modifyMem_pc (op : CC → Byte → Effect) (m : MemForm) (s : State) :
    (modifyMem op m s).pc = s.pc + formLength m := by
  simp [modifyMem]
@[simp] theorem modifyMem_cc (op : CC → Byte → Effect) (m : MemForm) (s : State) :
    (modifyMem op m s).cc = (op s.cc (s.look (formAddress m s))).cc :=
  modifyForm_cc op m s
@[simp] theorem modifyMem_port (op : CC → Byte → Effect) (m : MemForm) (s : State) (p : Port) :
    (modifyMem op m s).port p =
      if formAddress m s = p.address then
        (s.port p).afterRead.afterWrite (op s.cc (s.look (formAddress m s))).r
      else s.port p := by
  rw [modifyMem, State.advance_port, modifyForm_port]
@[simp] theorem modifyMem_read (op : CC → Byte → Effect) (m : MemForm) (s : State) (b : Byte) :
    (modifyMem op m s).mem.read b =
      if portAt (formAddress m s) = none ∧ b = formAddress m s then (op s.cc (s.look (formAddress m s))).r
      else s.mem.read b :=
  modifyForm_read op m s b

theorem modifyMem_inv {op : CC → Byte → Effect} {m : MemForm} {s : State} (h : s.inv = true) :
    (modifyMem op m s).inv = true :=
  modifyForm_inv h

@[simp] theorem combineA_sp (op : CC → Byte → Byte → Effect) (o : Operand) (s : State) :
    (combineA op o s).sp = s.sp :=
  readOperand_sp o s
@[simp] theorem combineA_mem (op : CC → Byte → Byte → Effect) (o : Operand) (s : State) :
    (combineA op o s).mem = s.mem :=
  readOperand_mem o s
@[simp] theorem combineA_irqIn (op : CC → Byte → Byte → Effect) (o : Operand) (s : State) :
    (combineA op o s).irqIn = s.irqIn :=
  readOperand_irqIn o s
@[simp] theorem combineA_resetIn (op : CC → Byte → Byte → Effect) (o : Operand) (s : State) :
    (combineA op o s).resetIn = s.resetIn :=
  readOperand_resetIn o s
@[simp] theorem combineA_boundaries (op : CC → Byte → Byte → Effect) (o : Operand) (s : State) :
    (combineA op o s).boundaries = s.boundaries :=
  readOperand_boundaries o s
@[simp] theorem combineA_resets (op : CC → Byte → Byte → Effect) (o : Operand) (s : State) :
    (combineA op o s).resets = s.resets :=
  readOperand_resets o s
@[simp] theorem combineA_cycles (op : CC → Byte → Byte → Effect) (o : Operand) (s : State) :
    (combineA op o s).cycles = s.cycles :=
  readOperand_cycles o s
@[simp] theorem combineA_pc (op : CC → Byte → Byte → Effect) (o : Operand) (s : State) :
    (combineA op o s).pc = s.pc + operandLength o := by
  simp [combineA]
@[simp] theorem combineA_x (op : CC → Byte → Byte → Effect) (o : Operand) (s : State) :
    (combineA op o s).x = operandX o s.x := by
  cases o <;> simp [combineA, operandX, readOperand_x]
@[simp] theorem combineA_y (op : CC → Byte → Byte → Effect) (o : Operand) (s : State) :
    (combineA op o s).y = operandY o s.y := by
  cases o <;> simp [combineA, operandY, readOperand_y]
@[simp] theorem combineA_port (op : CC → Byte → Byte → Effect) (o : Operand) (s : State) (p : Port) :
    (combineA op o s).port p =
      if operandAddress o s = some p.address then (s.port p).afterRead else s.port p := by
  rw [← readOperand_port]
  cases p <;> rfl
@[simp] theorem combineA_a (op : CC → Byte → Byte → Effect) (o : Operand) (s : State) :
    (combineA op o s).a = (op s.cc s.a (operandValue o s)).r := by
  simp [combineA]
@[simp] theorem combineA_cc (op : CC → Byte → Byte → Effect) (o : Operand) (s : State) :
    (combineA op o s).cc = (op s.cc s.a (operandValue o s)).cc := by
  simp [combineA]

@[simp] theorem flagsOnly_sp (op : CC → Byte → Byte → Effect) (reg : Byte) (o : Operand) (s : State) :
    (flagsOnly op reg o s).sp = s.sp :=
  readOperand_sp o s
@[simp] theorem flagsOnly_mem (op : CC → Byte → Byte → Effect) (reg : Byte) (o : Operand) (s : State) :
    (flagsOnly op reg o s).mem = s.mem :=
  readOperand_mem o s
@[simp] theorem flagsOnly_irqIn (op : CC → Byte → Byte → Effect) (reg : Byte) (o : Operand) (s : State) :
    (flagsOnly op reg o s).irqIn = s.irqIn :=
  readOperand_irqIn o s
@[simp] theorem flagsOnly_resetIn (op : CC → Byte → Byte → Effect) (reg : Byte) (o : Operand) (s : State) :
    (flagsOnly op reg o s).resetIn = s.resetIn :=
  readOperand_resetIn o s
@[simp] theorem flagsOnly_boundaries (op : CC → Byte → Byte → Effect) (reg : Byte) (o : Operand) (s : State) :
    (flagsOnly op reg o s).boundaries = s.boundaries :=
  readOperand_boundaries o s
@[simp] theorem flagsOnly_resets (op : CC → Byte → Byte → Effect) (reg : Byte) (o : Operand) (s : State) :
    (flagsOnly op reg o s).resets = s.resets :=
  readOperand_resets o s
@[simp] theorem flagsOnly_cycles (op : CC → Byte → Byte → Effect) (reg : Byte) (o : Operand) (s : State) :
    (flagsOnly op reg o s).cycles = s.cycles :=
  readOperand_cycles o s
@[simp] theorem flagsOnly_a (op : CC → Byte → Byte → Effect) (reg : Byte) (o : Operand) (s : State) :
    (flagsOnly op reg o s).a = s.a :=
  readOperand_a o s
@[simp] theorem flagsOnly_pc (op : CC → Byte → Byte → Effect) (reg : Byte) (o : Operand) (s : State) :
    (flagsOnly op reg o s).pc = s.pc + operandLength o := by
  simp [flagsOnly]
@[simp] theorem flagsOnly_x (op : CC → Byte → Byte → Effect) (reg : Byte) (o : Operand) (s : State) :
    (flagsOnly op reg o s).x = operandX o s.x := by
  cases o <;> simp [flagsOnly, operandX, readOperand_x]
@[simp] theorem flagsOnly_y (op : CC → Byte → Byte → Effect) (reg : Byte) (o : Operand) (s : State) :
    (flagsOnly op reg o s).y = operandY o s.y := by
  cases o <;> simp [flagsOnly, operandY, readOperand_y]
@[simp] theorem flagsOnly_port (op : CC → Byte → Byte → Effect) (reg : Byte) (o : Operand) (s : State) (p : Port) :
    (flagsOnly op reg o s).port p =
      if operandAddress o s = some p.address then (s.port p).afterRead else s.port p := by
  rw [← readOperand_port]
  cases p <;> rfl
@[simp] theorem flagsOnly_cc (op : CC → Byte → Byte → Effect) (reg : Byte) (o : Operand) (s : State) :
    (flagsOnly op reg o s).cc = (op s.cc reg (operandValue o s)).cc := by
  simp [flagsOnly]

theorem operandX_of_data {o : Operand} (h : o.isData = true) (x : Byte) : operandX o x = x := by
  cases o with
  | im d => rfl
  | mem m => exact formX_of_data h x

theorem operandY_of_data {o : Operand} (h : o.isData = true) (y : Byte) : operandY o y = y := by
  cases o with
  | im d => rfl
  | mem m => exact formY_of_data h y

/-- A branch changes PC only (42_flow_control.md R145). -/
theorem branchIf_eq (cond : Bool) (off : Byte) (s : State) :
    branchIf cond off s = { s with pc := if cond then s.pc + 2 + off else s.pc + 2 } := by
  cases cond <;> rfl

/-- A call pushes the address after it and changes PC (R142, R144). -/
theorem callTo_eq (len target : Byte) (s : State) :
    callTo len target s = { s.push (s.pc + len) with pc := target } := rfl

@[simp] theorem callTo_read (len target : Byte) (s : State) (b : Byte) :
    (callTo len target s).mem.read b =
      if portAt (s.sp - 1) = none ∧ b = s.sp - 1 then s.pc + len else s.mem.read b :=
  State.push_read s _ b

@[simp] theorem callTo_port (len target : Byte) (s : State) (p : Port) :
    (callTo len target s).port p =
      if s.sp - 1 = p.address then (s.port p).afterWrite (s.pc + len) else s.port p := by
  rw [← State.push_port]
  cases p <;> rfl

@[simp] theorem callTo_a (len target : Byte) (s : State) : (callTo len target s).a = s.a :=
  State.push_a s _
@[simp] theorem callTo_x (len target : Byte) (s : State) : (callTo len target s).x = s.x :=
  State.push_x s _
@[simp] theorem callTo_y (len target : Byte) (s : State) : (callTo len target s).y = s.y :=
  State.push_y s _
@[simp] theorem callTo_cc (len target : Byte) (s : State) : (callTo len target s).cc = s.cc :=
  State.push_cc s _
@[simp] theorem callTo_irqIn (len target : Byte) (s : State) : (callTo len target s).irqIn = s.irqIn :=
  State.push_irqIn s _
@[simp] theorem callTo_resetIn (len target : Byte) (s : State) : (callTo len target s).resetIn = s.resetIn :=
  State.push_resetIn s _
@[simp] theorem callTo_boundaries (len target : Byte) (s : State) : (callTo len target s).boundaries = s.boundaries :=
  State.push_boundaries s _
@[simp] theorem callTo_resets (len target : Byte) (s : State) : (callTo len target s).resets = s.resets :=
  State.push_resets s _
@[simp] theorem callTo_cycles (len target : Byte) (s : State) : (callTo len target s).cycles = s.cycles :=
  State.push_cycles s _
@[simp] theorem callTo_sp (len target : Byte) (s : State) : (callTo len target s).sp = s.sp - 1 :=
  State.push_sp s _
@[simp] theorem callTo_pc (len target : Byte) (s : State) : (callTo len target s).pc = target := rfl

theorem callTo_inv {s : State} (len target : Byte) (h : s.inv = true) : (callTo len target s).inv = true :=
  State.push_inv _ h

end Sys2Proof.Machine
end

