-- ==== Sys2Proof/Laws/PerInstr.lean ====
section
/-! SUPPORT. The family HasBytes: an instruction has an encoding exactly if it is well formed, one lemma for each
constructor. -/

namespace Sys2Proof.Laws.HasBytes

/-- The encoder gives bytes to the instruction exactly if it exists (30_encoding.md R79). -/
def Statement (i : Instr) : Prop := encode i ≠ [] ↔ i.wellFormed = true

theorem full {m : MemForm} {ab ns nx ax xi xd ix dx ny ay yi yd iy dy : Byte} :
    encodeFull ab ns nx ax xi xd ix dx ny ay yi yd iy dy m ≠ [] := by
  cases m <;> simp [encodeFull]

theorem plain {m : MemForm} {ab ns nx ax ny ay : Byte} :
    encodePlain ab ns nx ax ny ay m ≠ [] ↔ m.isPlain = true := by
  cases m <;> simp [encodePlain, MemForm.isPlain]

theorem target {m : MemForm} {ab nx ax ny ay : Byte} :
    encodeTarget ab nx ax ny ay m ≠ [] ↔ m.isTarget = true := by
  cases m <;> simp [encodeTarget, MemForm.isTarget]

theorem data {o : Operand} {im ab ns nx ny : Byte} :
    encodeData im ab ns nx ny o ≠ [] ↔ o.isData = true := by
  rcases o with d | m
  · simp [encodeData, Operand.isData]
  · cases m <;> simp [encodeData, Operand.isData]

theorem cmpXY {o : Operand} {im ab ns : Byte} : encodeCmpXY im ab ns o ≠ [] ↔ o.isCmpXY = true := by
  rcases o with d | m
  · simp [encodeCmpXY, Operand.isCmpXY]
  · cases m <;> simp [encodeCmpXY, Operand.isCmpXY]

theorem cmpSP {o : Operand} : encodeCmpSP o ≠ [] ↔ o.isCmpSP = true := by
  rcases o with d | m
  · simp [encodeCmpSP, Operand.isCmpSP]
  · cases m <;> simp [encodeCmpSP, Operand.isCmpSP]

theorem leaX {m : MemForm} : encodeLeax m ≠ [] ↔ m.isLeax = true := by
  cases m <;> simp [encodeLeax, MemForm.isLeax]

theorem leaY {m : MemForm} : encodeLeay m ≠ [] ↔ m.isLeay = true := by
  cases m <;> simp [encodeLeay, MemForm.isLeay]

theorem leaSP {m : MemForm} : encodeLeasp m ≠ [] ↔ m.isLeasp = true := by
  cases m <;> simp [encodeLeasp, MemForm.isLeasp]

/-- An instruction with one opcode. -/
theorem fixed {b : Byte} {bs : List Byte} : b :: bs ≠ [] ↔ true = true :=
  iff_of_true (List.cons_ne_nil b bs) rfl

theorem lda (o : Operand) : Statement (.lda o) :=
  match o with
  | .im _ => fixed
  | .mem _ => iff_of_true full rfl
theorem ldx (o : Operand) : Statement (.ldx o) := data
theorem ldy (o : Operand) : Statement (.ldy o) := data
theorem ldsp (o : Operand) : Statement (.ldsp o) := data
theorem leax (m : MemForm) : Statement (.leax m) := leaX
theorem leay (m : MemForm) : Statement (.leay m) := leaY
theorem leasp (m : MemForm) : Statement (.leasp m) := leaSP
theorem sta (m : MemForm) : Statement (.sta m) := iff_of_true full rfl
theorem stx (m : MemForm) : Statement (.stx m) := plain
theorem sty (m : MemForm) : Statement (.sty m) := plain
theorem stsp (m : MemForm) : Statement (.stsp m) := plain
theorem tfrACC : Statement .tfrACC := fixed
theorem tfrCCA : Statement .tfrCCA := fixed
theorem tfrXY : Statement .tfrXY := fixed
theorem tfrYX : Statement .tfrYX := fixed
theorem tfrXSP : Statement .tfrXSP := fixed
theorem tfrSPX : Statement .tfrSPX := fixed
theorem tfrYSP : Statement .tfrYSP := fixed
theorem tfrSPY : Statement .tfrSPY := fixed
theorem exgACC : Statement .exgACC := fixed
theorem exgXY : Statement .exgXY := fixed
theorem exgXSP : Statement .exgXSP := fixed
theorem exgYSP : Statement .exgYSP := fixed
theorem jmp (m : MemForm) : Statement (.jmp m) := target
theorem jsr (m : MemForm) : Statement (.jsr m) := target
theorem bra (off : Byte) : Statement (.bra off) := fixed
theorem bsr (off : Byte) : Statement (.bsr off) := fixed
theorem bmi (off : Byte) : Statement (.bmi off) := fixed
theorem bpl (off : Byte) : Statement (.bpl off) := fixed
theorem beq (off : Byte) : Statement (.beq off) := fixed
theorem bne (off : Byte) : Statement (.bne off) := fixed
theorem bvs (off : Byte) : Statement (.bvs off) := fixed
theorem bvc (off : Byte) : Statement (.bvc off) := fixed
theorem bcs (off : Byte) : Statement (.bcs off) := fixed
theorem bcc (off : Byte) : Statement (.bcc off) := fixed
theorem bhi (off : Byte) : Statement (.bhi off) := fixed
theorem bls (off : Byte) : Statement (.bls off) := fixed
theorem bgt (off : Byte) : Statement (.bgt off) := fixed
theorem bge (off : Byte) : Statement (.bge off) := fixed
theorem ble (off : Byte) : Statement (.ble off) := fixed
theorem blt (off : Byte) : Statement (.blt off) := fixed
theorem rts : Statement .rts := fixed
theorem rti : Statement .rti := fixed
theorem adda (o : Operand) : Statement (.adda o) := data
theorem adca (o : Operand) : Statement (.adca o) := data
theorem suba (o : Operand) : Statement (.suba o) := data
theorem sbca (o : Operand) : Statement (.sbca o) := data
theorem clra : Statement .clra := fixed
theorem clr (m : MemForm) : Statement (.clr m) := plain
theorem nega : Statement .nega := fixed
theorem neg (m : MemForm) : Statement (.neg m) := plain
theorem deca : Statement .deca := fixed
theorem dec (m : MemForm) : Statement (.dec m) := plain
theorem inca : Statement .inca := fixed
theorem inc (m : MemForm) : Statement (.inc m) := plain
theorem cmpa (o : Operand) : Statement (.cmpa o) := data
theorem cmpx (o : Operand) : Statement (.cmpx o) := cmpXY
theorem cmpy (o : Operand) : Statement (.cmpy o) := cmpXY
theorem cmpsp (o : Operand) : Statement (.cmpsp o) := cmpSP
theorem bita (o : Operand) : Statement (.bita o) := data
theorem tsta : Statement .tsta := fixed
theorem tst (m : MemForm) : Statement (.tst m) := plain
theorem anda (o : Operand) : Statement (.anda o) := data
theorem ora (o : Operand) : Statement (.ora o) := data
theorem eora (o : Operand) : Statement (.eora o) := data
theorem andcc (data : Byte) : Statement (.andcc data) := fixed
theorem orcc (data : Byte) : Statement (.orcc data) := fixed
theorem coma : Statement .coma := fixed
theorem com (m : MemForm) : Statement (.com m) := plain
theorem asra : Statement .asra := fixed
theorem asr (m : MemForm) : Statement (.asr m) := plain
theorem lsla : Statement .lsla := fixed
theorem lsl (m : MemForm) : Statement (.lsl m) := plain
theorem lsra : Statement .lsra := fixed
theorem lsr (m : MemForm) : Statement (.lsr m) := plain
theorem rola : Statement .rola := fixed
theorem rol (m : MemForm) : Statement (.rol m) := plain
theorem rora : Statement .rora := fixed
theorem ror (m : MemForm) : Statement (.ror m) := plain
theorem psha : Statement .psha := fixed
theorem pshc : Statement .pshc := fixed
theorem pshx : Statement .pshx := fixed
theorem pshy : Statement .pshy := fixed
theorem pula : Statement .pula := fixed
theorem pulc : Statement .pulc := fixed
theorem pulx : Statement .pulx := fixed
theorem puly : Statement .puly := fixed
theorem nop : Statement .nop := fixed
theorem illegal (opcode : Byte) : Statement (.illegal opcode) := by
  change (if illegalOpcodes.contains opcode then [opcode] else []) ≠ [] ↔ illegalOpcodes.contains opcode = true
  split <;> simp_all

end Sys2Proof.Laws.HasBytes
end

