-- ==== Sys2Proof/Laws/Run.lean ====
section
/-! SUPPORT. What a run does at one boundary, under any `STOP`. -/

namespace Sys2Proof.Machine

theorem runUntil_of_stop {stop : State → Bool} {s : State} (h : stop s = true) (n : Nat) :
    runUntil stop n s = .ended 0 s := by
  cases n <;> simp [runUntil, h]

theorem runUntil_zero {stop : State → Bool} {s : State} (h : stop s = false) : runUntil stop 0 s = .going s := by
  simp [runUntil, h]

theorem runUntil_succ {stop : State → Bool} {s t : State} (h : stop s = false) (hs : step s = .next t) (n : Nat) :
    runUntil stop (n + 1) s = (runUntil stop n t).afterStep := by
  simp [runUntil, h, hs]

theorem stepTimes_succ {s t : State} (hs : step s = .next t) (n : Nat) : stepTimes (n + 1) s = stepTimes n t := by
  simp [stepTimes, hs]

@[simp] theorem Progress.afterStep_eq_ended {r : Progress} {k : Nat} {t : State} :
    r.afterStep = .ended k t ↔ ∃ j, k = j + 1 ∧ r = .ended j t := by
  cases r <;> simp [Progress.afterStep, eq_comm]

@[simp] theorem Progress.afterStep_eq_going {r : Progress} {t : State} : r.afterStep = .going t ↔ r = .going t := by
  cases r <;> simp [Progress.afterStep]

end Sys2Proof.Machine
end

