-- ==== Sys2Proof/Laws/Step.lean ====
section
/-! SUPPORT. The fetch and the step: what each of the three cases of a boundary gives. -/

namespace Sys2Proof.Machine

/-- A one-byte instruction: one read (30_encoding.md R62). -/
theorem State.fetch_op {s : State} {i : Instr} (h : decodeOpcode (s.look s.pc) = .op i) :
    s.fetch = ⟨i, s.touch s.pc⟩ := by
  simp only [State.fetch, State.readByte, h]

/-- A two-byte instruction: the opcode's read, then the operand byte's (R62). -/
theorem State.fetch_op8 {s : State} {f : Byte → Instr} (h : decodeOpcode (s.look s.pc) = .op8 f) :
    s.fetch = ⟨f (s.look (s.pc + 1)), (s.touch s.pc).touch (s.pc + 1)⟩ := by
  have hne : s.pc ≠ s.pc + 1 := by bv_omega
  simp only [State.fetch, State.readByte, h, State.look_touch hne]

/-- A fetch changes nothing but the input side of the ports (20_memory.md R46). -/
theorem State.fetch_state (s : State) :
    s.fetch.state = s.touch s.pc ∨ s.fetch.state = (s.touch s.pc).touch (s.pc + 1) := by
  rcases h : decodeOpcode (s.look s.pc) with i | f
  · rw [State.fetch_op h]; exact .inl rfl
  · rw [State.fetch_op8 h]; exact .inr rfl

/-- What the decoder reads from the two bytes at PC is what the fetch gives. -/
theorem State.fetch_instr (s : State) :
    ∃ rest, decode [s.look s.pc, s.look (s.pc + 1)] = .ok (s.fetch.instr, rest) := by
  rcases h : decodeOpcode (s.look s.pc) with i | f
  · rw [State.fetch_op h]; exact ⟨[s.look (s.pc + 1)], by simp only [decode, h]⟩
  · rw [State.fetch_op8 h]; exact ⟨[], by simp only [decode, h]⟩

@[simp] theorem State.fetch_inv (s : State) : s.fetch.state.inv = s.inv := by
  rcases s.fetch_state with h | h <;> rw [h] <;> simp

/-! ## The three cases of a boundary (60_exceptions.md R270) -/

theorem step_of_reset {s : State} (h : s.resetIn = true) : step s = .next s.passBoundary.resetEntry := by
  simp [step, h]

theorem step_of_irq {s : State} (h : s.resetIn = false) (hi : s.irqAccepted = true) :
    step s = .next s.passBoundary.irqEntry := by
  simp [step, h, hi]

theorem step_of_executes {s : State} (h : s.executes = true) :
    step s = exec s.passBoundary.fetch.instr
      (s.passBoundary.fetch.state.countCycles s.passBoundary.fetch.instr) := by
  simp only [State.executes, Bool.and_eq_true, Bool.not_eq_true'] at h
  simp [step, h.1, h.2]

/-- What a step can be: Reset, an IRQ entry, or one instruction. -/
theorem step_cases {s t : State} (h : step s = .next t) :
    (s.resetIn = true ∧ t = s.passBoundary.resetEntry) ∨
      (s.resetIn = false ∧ s.irqAccepted = true ∧ t = s.passBoundary.irqEntry) ∨
      (s.executes = true ∧ exec s.passBoundary.fetch.instr
        (s.passBoundary.fetch.state.countCycles s.passBoundary.fetch.instr) = .next t) := by
  by_cases hr : s.resetIn = true
  · rw [step_of_reset hr, Host.Outcome.next.injEq] at h
    exact .inl ⟨hr, h.symm⟩
  · simp only [Bool.not_eq_true] at hr
    by_cases hi : s.irqAccepted = true
    · rw [step_of_irq hr hi, Host.Outcome.next.injEq] at h
      exact .inr (.inl ⟨hr, hi, h.symm⟩)
    · simp only [Bool.not_eq_true] at hi
      have hx : s.executes = true := by simp [State.executes, hr, hi]
      rw [step_of_executes hx] at h
      exact .inr (.inr ⟨hx, h⟩)

@[simp] theorem State.resetEvent_inv (s : State) : s.resetEvent.inv = s.inv :=
  State.inv_congr (by simp [State.resetEvent, State.readByte])

@[simp] theorem State.passBoundary_inv (s : State) : s.passBoundary.inv = s.inv := State.inv_congr rfl

@[simp] theorem State.countCycles_inv (s : State) (i : Instr) : (s.countCycles i).inv = s.inv := State.inv_congr rfl

@[simp] theorem State.advance_inv (s : State) (len : Byte) : (s.advance len).inv = s.inv := State.inv_congr rfl

end Sys2Proof.Machine
end

