-- ==== Sys2Proof/Tests/Slice0.lean ====
section
/-! SUPPORT. Tests of single steps, from 95_test_vectors.md; decoding, from the opcode map of 30_encoding.md R66; the
ill-formed terms; and a witness for the hypotheses of every statement that has some. -/

namespace Sys2Proof.Tests

open Sys2Proof Sys2Proof.Machine

/-! ## Helpers -/

/-- Memory with some bytes. -/
def image (cells : List (Byte × Byte)) : Memory := cells.foldl (fun m c => m.write c.1 c.2) []

/-- A boundary with the interrupt line low, given A, X, Y, SP, PC, CC and some bytes of memory. -/
def bd (a x y sp pc flags : Byte) (cells : List (Byte × Byte)) : State :=
  { State.reset with
    a := a
    x := x
    y := y
    sp := sp
    pc := pc
    cc := CC.ofByte flags
    mem := image cells
    irqIn := [false] }

/-- The state has these registers and these bytes of memory. -/
def holds (t : State) (a x y sp pc flags : Byte) (cells : List (Byte × Byte)) : Bool :=
  t.a == a && t.x == x && t.y == y && t.sp == sp && t.pc == pc && t.cc.toByte == flags &&
    cells.all fun c => t.mem.read c.1 == c.2

/-- One step goes to a state of which `p` holds. -/
def next (s : State) (p : State → Bool) : Bool :=
  match step s with
  | .next t => p t
  | _ => false

/-- One step gives these registers and these bytes of memory. -/
def ends (s : State) (a x y sp pc flags : Byte) (cells : List (Byte × Byte)) : Bool :=
  next s fun t => holds t a x y sp pc flags cells

/-- A row of the opcode map: mnemonic, mode code, bytes, cycles; none for an illegal cell. -/
def cell (mn : String) (mode : ModeCode) (bytes cycles : Nat) :
    Option (String × ModeCode) × Nat × Option Nat := (some (mn, mode), bytes, some cycles)

/-- What the decoder, the encoder and the cycle counts make of the sixteen opcodes from `high` on. -/
def mapColumn (high : Nat) : List (Option (String × ModeCode) × Nat × Option Nat) :=
  (List.range 16).map fun low =>
    let i := opcodeInstr (BitVec.ofNat 8 (high + low))
    (asmForm i, (encode i).length, instrCycles i)

/-- An illegal cell: one byte, no name, no cycle count. -/
def blank : Option (String × ModeCode) × Nat × Option Nat := (none, 1, none)

/-- The start state of 95_test_vectors.md section 2.2: M(i) = $A0 + i but for the instruction at $00. -/
def formsStart (code : List Byte) : State :=
  { bd 0x10 0x30 0xFF 0x80 0x00 0x01 [] with
    mem := code.zipIdx.map (fun p => (p.2, p.1)) ++
      (List.range' code.length (256 - code.length)).map fun i => (i, BitVec.ofNat 8 (0xA0 + i)) }

/-- A row of LDA: the bytes, and A, X, Y and the flags after. -/
def ldaForm (code after : List Byte) : Bool :=
  next (formsStart code) fun t => [t.a, t.x, t.y, t.cc.toByte] == after

/-- A row of STA: the bytes, and the address written, X and Y after. -/
def staForm (code after : List Byte) : Bool :=
  next (formsStart code) fun t => [t.mem.read (after.getD 0 0), t.x, t.y] == 0x10 :: after.tail

/-- For which of the sixteen values of N, Z, V, C the branch of an opcode at $20, to $20 + 2 + $40, is taken. -/
def takenMask (op : Byte) : Nat :=
  ((List.range 16).map fun k =>
    if next (bd 0 0 0 0 0x20 (BitVec.ofNat 8 k) [(0x20, op), (0x21, 0x40)]) (fun t => t.pc == 0x62)
    then 2 ^ k else 0).sum

/-- The boundary of the vectors of section 2.6: `PORT_IN($FC, k)` = $11, $22, $33, `PORT_IN($FB, k)` = $80, $7F. -/
def ports (a sp flags : Byte) (cells : List (Byte × Byte)) : State :=
  { bd a 0 0 sp 0x20 flags cells with
    portFB := { Channel.idle with input := [0x80, 0x7F] }
    portFC := { Channel.idle with input := [0x11, 0x22, 0x33] } }

/-- A boundary of the scenarios of section 2.5: vectors $FD = $40 and $FE = $60. -/
def vectored (a x y sp pc flags : Byte) (irq : List Bool) (cells : List (Byte × Byte)) : State :=
  { bd a x y sp pc flags ([(0xFD, 0x40), (0xFE, 0x60)] ++ cells) with irqIn := irq }

/-! ## Terms that are no instruction (30_encoding.md R67, R79) -/

theorem test_illformed_loads :
    (Instr.ldx (.mem .postIncX)).wellFormed = false ∧ (Instr.ldy (.mem .ay)).wellFormed = false ∧
    (Instr.ldsp (.mem .ax)).wellFormed = false := by decide

theorem test_illformed_lea :
    (Instr.leax (.ab 0x40)).wellFormed = false ∧ (Instr.leax (.ny 0)).wellFormed = false ∧
    (Instr.leay (.nx 0)).wellFormed = false ∧ (Instr.leasp (.ab 0)).wellFormed = false := by decide

theorem test_illformed_stores :
    (Instr.stx .preIncX).wellFormed = false ∧ (Instr.sty .postDecY).wellFormed = false ∧
    (Instr.stsp .preDecX).wellFormed = false := by decide

theorem test_illformed_targets :
    (Instr.jmp (.ns 0)).wellFormed = false ∧ (Instr.jsr (.ns 0)).wellFormed = false ∧
    (Instr.jsr .postIncY).wellFormed = false := by decide

theorem test_illformed_data_operands :
    (Instr.adda (.mem .ax)).wellFormed = false ∧ (Instr.adca (.mem .ay)).wellFormed = false ∧
    (Instr.suba (.mem .postIncX)).wellFormed = false ∧ (Instr.sbca (.mem .preDecY)).wellFormed = false ∧
    (Instr.cmpa (.mem .ax)).wellFormed = false ∧ (Instr.bita (.mem .ay)).wellFormed = false ∧
    (Instr.anda (.mem .ax)).wellFormed = false ∧ (Instr.ora (.mem .ax)).wellFormed = false ∧
    (Instr.eora (.mem .preIncY)).wellFormed = false := by decide

theorem test_illformed_compares :
    (Instr.cmpx (.mem (.nx 0))).wellFormed = false ∧ (Instr.cmpy (.mem (.ny 0))).wellFormed = false ∧
    (Instr.cmpsp (.mem (.ns 0))).wellFormed = false := by decide

theorem test_illformed_memory_operands :
    ([Instr.clr, .neg, .inc, .dec, .tst, .com, .lsl, .lsr, .rol, .ror, .asr].all fun f =>
      !(f .postIncX).wellFormed) = true := by decide

theorem test_illformed_illegal : (Instr.illegal 0x05).wellFormed = false := by decide

/-! ## Words written out from the encodings of 40_load_store.md to 48_misc.md -/

/-- The words are read as the instructions beside them; a word below 256 here is one of one byte. -/
def reads (rows : List (Nat × Instr)) : Bool :=
  rows.all fun r => decodeTableWord (if r.1 < 256 then 8 else 16) r.1 == some r.2

theorem test_decode_load_store : reads
    [(0b1000000011110000, .lda (.im 0x80)), (0b0100000010100000, .ldx (.mem (.ab 0x40))),
      (0b0000000111010001, .ldy (.mem (.ny 0x01))), (0b1111111110110010, .ldsp (.mem (.ns 0xFF))),
      (0b1111111111001100, .leax (.nx 0xFF)), (0b0000010111011101, .leay (.ns 0x05)),
      (0b0001000011011110, .leasp (.ny 0x10)), (0b11101110, .sta .preDecY), (0b01100000, .stx .ax),
      (0b10000001, .sty .ay), (0b0000000101000010, .stsp (.ns 0x01))] = true := by decide

theorem test_decode_data_movement : reads
    [(0b00011000, .tfrACC), (0b00011001, .tfrCCA), (0b00011010, .tfrXY), (0b00011011, .tfrYX),
      (0b00011100, .tfrXSP), (0b00011101, .tfrSPX), (0b00011110, .tfrYSP), (0b00011111, .tfrSPY),
      (0b10011111, .exgACC), (0b10101111, .exgXY), (0b10111111, .exgXSP), (0b11001111, .exgYSP)] = true := by
  decide

theorem test_decode_flow_control : reads
    [(0b1111111100110011, .jmp (.ab 0xFF)), (0b10000100, .jsr .ay), (0b1111111000100001, .bra 0xFE),
      (0b0111111100100000, .bsr 0x7F), (0b0000000100100010, .bmi 1), (0b0000000100100011, .bpl 1),
      (0b0000000100100100, .beq 1), (0b1111101100100101, .bne 0xFB), (0b0000000100100110, .bvs 1),
      (0b0000000100100111, .bvc 1), (0b0000000100101000, .bcs 1), (0b0000000100101001, .bcc 1),
      (0b0000000100101010, .bhi 1), (0b0000000100101011, .bls 1), (0b0000000100101100, .bgt 1),
      (0b0000000100101101, .bge 1), (0b0000000100101110, .ble 1), (0b0000000100101111, .blt 1),
      (0b01000011, .rts), (0b01000100, .rti)] = true := by decide

theorem test_decode_arithmetic : reads
    [(0b0000001010110110, .adda (.mem (.ns 2))), (0b0100000010100101, .adca (.mem (.ab 0x40))),
      (0b0000001011000100, .suba (.mem (.nx 2))), (0b0001000011010011, .sbca (.mem (.ny 0x10))),
      (0b00000101, .clra), (0b01100101, .clr .ax), (0b00000110, .nega), (0b0000000101110110, .neg (.ny 1)),
      (0b00001000, .deca), (0b0100000000111000, .dec (.ab 0x40)), (0b00000111, .inca),
      (0b10000111, .inc .ay)] = true := by decide

theorem test_decode_test : reads
    [(0b1000000010010111, .cmpa (.im 0x80)), (0b0000001010111100, .cmpx (.mem (.ns 2))),
      (0b0100000010011101, .cmpy (.im 0x40)), (0b0100000010101110, .cmpsp (.mem (.ab 0x40))),
      (0b0100000010101000, .bita (.mem (.ab 0x40))), (0b00001001, .tsta),
      (0b0000000101011001, .tst (.nx 1))] = true := by decide

theorem test_decode_logical : reads
    [(0b0100000010101001, .anda (.mem (.ab 0x40))), (0b0000000111011010, .ora (.mem (.ny 1))),
      (0b1000000010011011, .eora (.im 0x80)), (0b1110111100000001, .andcc 0xEF), (0b0001000000000010, .orcc 0x10),
      (0b00001010, .coma), (0b0000000101001010, .com (.ns 1))] = true := by decide

theorem test_decode_shift_rotate : reads
    [(0b00001111, .asra), (0b01101111, .asr .ax), (0b00001011, .lsla), (0b0100000000111011, .lsl (.ab 0x40)),
      (0b00001100, .lsra), (0b0000000101001100, .lsr (.ns 1)), (0b00001101, .rola),
      (0b0000000101111101, .rol (.ny 1)), (0b00001110, .rora), (0b0100000000111110, .ror (.ab 0x40))] = true := by
  decide

theorem test_decode_stack_misc : reads
    [(0b00010000, .psha), (0b00010011, .pshc), (0b00010001, .pshx), (0b00010010, .pshy), (0b00010100, .pula),
      (0b00010111, .pulc), (0b00010101, .pulx), (0b00010110, .puly), (0b00000000, .nop),
      (0b00000011, .illegal 0x03), (0b11101111, .illegal 0xEF)] = true := by decide

/-- A two-byte opcode with nothing after it is no instruction, and is refused as too short. -/
theorem test_decode_short :
    (match decode [0xF0] with | .ok _ => false | .error _ => true) = true ∧
    (match decode [] with | .ok _ => false | .error _ => true) = true := by decide

/-! The opcode map of 30_encoding.md R66, column by column: mnemonic, mode, bytes and cycles. -/

theorem test_map_column_0 : mapColumn 0x00 =
    [cell "NOP" .ih 1 2, cell "ANDCC" .im 2 4, cell "ORCC" .im 2 4, blank,
      blank, cell "CLRA" .ih 1 3, cell "NEGA" .ih 1 3, cell "INCA" .ih 1 3,
      cell "DECA" .ih 1 3, cell "TSTA" .ih 1 2, cell "COMA" .ih 1 3, cell "LSLA" .ih 1 3,
      cell "LSRA" .ih 1 3, cell "ROLA" .ih 1 3, cell "RORA" .ih 1 3, cell "ASRA" .ih 1 3] := by decide

theorem test_map_column_1 : mapColumn 0x10 =
    [cell "PSHA" .ih 1 3, cell "PSHX" .ih 1 3, cell "PSHY" .ih 1 3, cell "PSHC" .ih 1 3,
      cell "PULA" .ih 1 3, cell "PULX" .ih 1 3, cell "PULY" .ih 1 3, cell "PULC" .ih 1 3,
      cell "TFR A,CC" .ih 1 2, cell "TFR CC,A" .ih 1 2, cell "TFR X,Y" .ih 1 2, cell "TFR Y,X" .ih 1 2,
      cell "TFR X,SP" .ih 1 2, cell "TFR SP,X" .ih 1 2, cell "TFR Y,SP" .ih 1 2, cell "TFR SP,Y" .ih 1 2] := by decide

theorem test_map_column_2 : mapColumn 0x20 =
    [cell "BSR" .pc 2 5, cell "BRA" .pc 2 4, cell "BMI" .pc 2 4, cell "BPL" .pc 2 4,
      cell "BEQ" .pc 2 4, cell "BNE" .pc 2 4, cell "BVS" .pc 2 4, cell "BVC" .pc 2 4,
      cell "BCS" .pc 2 4, cell "BCC" .pc 2 4, cell "BHI" .pc 2 4, cell "BLS" .pc 2 4,
      cell "BGT" .pc 2 4, cell "BGE" .pc 2 4, cell "BLE" .pc 2 4, cell "BLT" .pc 2 4] := by decide

theorem test_map_column_3 : mapColumn 0x30 =
    [cell "STX" .ab 2 3, cell "STY" .ab 2 3, cell "STSP" .ab 2 3, cell "JMP" .ab 2 2,
      cell "JSR" .ab 2 4, cell "CLR" .ab 2 3, cell "NEG" .ab 2 4, cell "INC" .ab 2 4,
      cell "DEC" .ab 2 4, cell "TST" .ab 2 3, cell "COM" .ab 2 4, cell "LSL" .ab 2 4,
      cell "LSR" .ab 2 4, cell "ROL" .ab 2 4, cell "ROR" .ab 2 4, cell "ASR" .ab 2 4] := by decide

theorem test_map_column_4 : mapColumn 0x40 =
    [cell "STX" .ns 2 3, cell "STY" .ns 2 3, cell "STSP" .ns 2 3, cell "RTS" .ih 1 2,
      cell "RTI" .ih 1 6, cell "CLR" .ns 2 3, cell "NEG" .ns 2 4, cell "INC" .ns 2 4,
      cell "DEC" .ns 2 4, cell "TST" .ns 2 3, cell "COM" .ns 2 4, cell "LSL" .ns 2 4,
      cell "LSR" .ns 2 4, cell "ROL" .ns 2 4, cell "ROR" .ns 2 4, cell "ASR" .ns 2 4] := by decide

theorem test_map_column_5 : mapColumn 0x50 =
    [cell "STX" .nx 2 3, cell "STY" .nx 2 3, cell "STSP" .nx 2 3, cell "JMP" .nx 2 4,
      cell "JSR" .nx 2 5, cell "CLR" .nx 2 3, cell "NEG" .nx 2 4, cell "INC" .nx 2 4,
      cell "DEC" .nx 2 4, cell "TST" .nx 2 3, cell "COM" .nx 2 4, cell "LSL" .nx 2 4,
      cell "LSR" .nx 2 4, cell "ROL" .nx 2 4, cell "ROR" .nx 2 4, cell "ASR" .nx 2 4] := by decide

theorem test_map_column_6 : mapColumn 0x60 =
    [cell "STX" .ax 1 3, cell "STY" .ax 1 3, cell "STSP" .ax 1 3, cell "JMP" .ax 1 4,
      cell "JSR" .ax 1 5, cell "CLR" .ax 1 3, cell "NEG" .ax 1 4, cell "INC" .ax 1 4,
      cell "DEC" .ax 1 4, cell "TST" .ax 1 3, cell "COM" .ax 1 4, cell "LSL" .ax 1 4,
      cell "LSR" .ax 1 4, cell "ROL" .ax 1 4, cell "ROR" .ax 1 4, cell "ASR" .ax 1 4] := by decide

theorem test_map_column_7 : mapColumn 0x70 =
    [cell "STX" .ny 2 3, cell "STY" .ny 2 3, cell "STSP" .ny 2 3, cell "JMP" .ny 2 4,
      cell "JSR" .ny 2 5, cell "CLR" .ny 2 3, cell "NEG" .ny 2 4, cell "INC" .ny 2 4,
      cell "DEC" .ny 2 4, cell "TST" .ny 2 3, cell "COM" .ny 2 4, cell "LSL" .ny 2 4,
      cell "LSR" .ny 2 4, cell "ROL" .ny 2 4, cell "ROR" .ny 2 4, cell "ASR" .ny 2 4] := by decide

theorem test_map_column_8 : mapColumn 0x80 =
    [cell "STX" .ay 1 3, cell "STY" .ay 1 3, cell "STSP" .ay 1 3, cell "JMP" .ay 1 4,
      cell "JSR" .ay 1 5, cell "CLR" .ay 1 3, cell "NEG" .ay 1 4, cell "INC" .ay 1 4,
      cell "DEC" .ay 1 4, cell "TST" .ay 1 3, cell "COM" .ay 1 4, cell "LSL" .ay 1 4,
      cell "LSR" .ay 1 4, cell "ROL" .ay 1 4, cell "ROR" .ay 1 4, cell "ASR" .ay 1 4] := by decide

theorem test_map_column_9 : mapColumn 0x90 =
    [cell "LDX" .im 2 2, cell "LDY" .im 2 2, cell "LDSP" .im 2 2, cell "SBCA" .im 2 4,
      cell "SUBA" .im 2 4, cell "ADCA" .im 2 4, cell "ADDA" .im 2 4, cell "CMPA" .im 2 3,
      cell "BITA" .im 2 3, cell "ANDA" .im 2 4, cell "ORA" .im 2 4, cell "EORA" .im 2 4,
      cell "CMPX" .im 2 3, cell "CMPY" .im 2 3, cell "CMPSP" .im 2 3, cell "EXG A,CC" .ih 1 4] := by decide

theorem test_map_column_A : mapColumn 0xA0 =
    [cell "LDX" .ab 2 3, cell "LDY" .ab 2 3, cell "LDSP" .ab 2 3, cell "SBCA" .ab 2 5,
      cell "SUBA" .ab 2 5, cell "ADCA" .ab 2 5, cell "ADDA" .ab 2 5, cell "CMPA" .ab 2 4,
      cell "BITA" .ab 2 4, cell "ANDA" .ab 2 5, cell "ORA" .ab 2 5, cell "EORA" .ab 2 5,
      cell "CMPX" .ab 2 4, cell "CMPY" .ab 2 4, cell "CMPSP" .ab 2 4, cell "EXG X,Y" .ih 1 4] := by decide

theorem test_map_column_B : mapColumn 0xB0 =
    [cell "LDX" .ns 2 3, cell "LDY" .ns 2 3, cell "LDSP" .ns 2 3, cell "SBCA" .ns 2 5,
      cell "SUBA" .ns 2 5, cell "ADCA" .ns 2 5, cell "ADDA" .ns 2 5, cell "CMPA" .ns 2 4,
      cell "BITA" .ns 2 4, cell "ANDA" .ns 2 5, cell "ORA" .ns 2 5, cell "EORA" .ns 2 5,
      cell "CMPX" .ns 2 4, cell "CMPY" .ns 2 4, cell "LEASP" .ns 2 4, cell "EXG X,SP" .ih 1 4] := by decide

theorem test_map_column_C : mapColumn 0xC0 =
    [cell "LDX" .nx 2 3, cell "LDY" .nx 2 3, cell "LDSP" .nx 2 3, cell "SBCA" .nx 2 5,
      cell "SUBA" .nx 2 5, cell "ADCA" .nx 2 5, cell "ADDA" .nx 2 5, cell "CMPA" .nx 2 4,
      cell "BITA" .nx 2 4, cell "ANDA" .nx 2 5, cell "ORA" .nx 2 5, cell "EORA" .nx 2 5,
      cell "LEAX" .nx 2 4, cell "LEAY" .ny 2 4, cell "LEASP" .nx 2 4, cell "EXG Y,SP" .ih 1 4] := by decide

theorem test_map_column_D : mapColumn 0xD0 =
    [cell "LDX" .ny 2 3, cell "LDY" .ny 2 3, cell "LDSP" .ny 2 3, cell "SBCA" .ny 2 5,
      cell "SUBA" .ny 2 5, cell "ADCA" .ny 2 5, cell "ADDA" .ny 2 5, cell "CMPA" .ny 2 4,
      cell "BITA" .ny 2 4, cell "ANDA" .ny 2 5, cell "ORA" .ny 2 5, cell "EORA" .ny 2 5,
      cell "LEAX" .ns 2 4, cell "LEAY" .ns 2 4, cell "LEASP" .ny 2 4, blank] := by decide

theorem test_map_column_E : mapColumn 0xE0 =
    [blank, cell "STA" .ab 2 3, cell "STA" .ns 2 3, cell "STA" .nx 2 3,
      cell "STA" .ax 1 3, cell "STA" .postIncX 1 4, cell "STA" .postDecX 1 4, cell "STA" .preIncX 1 4,
      cell "STA" .preDecX 1 4, cell "STA" .ny 2 3, cell "STA" .ay 1 3, cell "STA" .postIncY 1 4,
      cell "STA" .postDecY 1 4, cell "STA" .preIncY 1 4, cell "STA" .preDecY 1 4, blank] := by decide

theorem test_map_column_F : mapColumn 0xF0 =
    [cell "LDA" .im 2 2, cell "LDA" .ab 2 3, cell "LDA" .ns 2 3, cell "LDA" .nx 2 3,
      cell "LDA" .ax 1 3, cell "LDA" .postIncX 1 4, cell "LDA" .postDecX 1 4, cell "LDA" .preIncX 1 4,
      cell "LDA" .preDecX 1 4, cell "LDA" .ny 2 3, cell "LDA" .ay 1 3, cell "LDA" .postIncY 1 4,
      cell "LDA" .postDecY 1 4, cell "LDA" .preIncY 1 4, cell "LDA" .preDecY 1 4, blank] := by decide

/-! ## One step of each instruction -/

/-! 95_test_vectors.md section 2.3, the rows of 40_load_store.md. -/

theorem test_lda :
    ends (bd 0x55 0xE2 0xE3 0xE4 0x20 0b01001 [(0x20, 0xF0), (0x21, 0x00)])
      0x00 0xE2 0xE3 0xE4 0x22 0b00101 [] ∧
    ends (bd 0x00 0xE2 0xE3 0xE4 0x20 0b00010 [(0x20, 0xF0), (0x21, 0xFF)])
      0xFF 0xE2 0xE3 0xE4 0x22 0b01000 [] := by decide

theorem test_ldx :
    ends (bd 0xE1 0x01 0xE3 0xE4 0x20 0b00011 [(0x20, 0xA0), (0x21, 0x40), (0x40, 0x80)])
      0xE1 0x80 0xE3 0xE4 0x22 0b01001 [] ∧
    ends (bd 0xE1 0xE2 0xE3 0xFE 0x20 0b00000 [(0x20, 0xB0), (0x21, 0x02), (0x00, 0x33)])
      0xE1 0x33 0xE3 0xFE 0x22 0b00000 [] := by decide

theorem test_ldy :
    ends (bd 0xE1 0xE2 0x09 0xE4 0x20 0b01000 [(0x20, 0x91), (0x21, 0x00)])
      0xE1 0xE2 0x00 0xE4 0x22 0b00100 [] ∧
    ends (bd 0xE1 0xF8 0xE3 0xE4 0x20 0b00000 [(0x20, 0xC1), (0x21, 0x10), (0x08, 0x7F)])
      0xE1 0xF8 0x7F 0xE4 0x22 0b00000 [] := by decide

theorem test_ldsp :
    ends (bd 0xE1 0xE2 0x4F 0x00 0x20 0b00000 [(0x20, 0xD2), (0x21, 0x01), (0x50, 0xF0)])
      0xE1 0xE2 0x4F 0xF0 0x22 0b01000 [] := by decide

theorem test_leax :
    ends (bd 0xE1 0x00 0xE3 0xE4 0x20 0b00000 [(0x20, 0xCC), (0x21, 0xFF)])
      0xE1 0xFF 0xE3 0xE4 0x22 0b00000 [] ∧
    ends (bd 0xE1 0x00 0xE3 0xE0 0x20 0b00000 [(0x20, 0xDC), (0x21, 0x00)])
      0xE1 0xE0 0xE3 0xE0 0x22 0b00000 [] := by decide

theorem test_leay :
    ends (bd 0xE1 0xE2 0x80 0xE4 0x20 0b00000 [(0x20, 0xCD), (0x21, 0x80)])
      0xE1 0xE2 0x00 0xE4 0x22 0b00000 [] ∧
    ends (bd 0xE1 0xE2 0x00 0xFE 0x20 0b00000 [(0x20, 0xDD), (0x21, 0x05)])
      0xE1 0xE2 0x03 0xFE 0x22 0b00000 [] := by decide

theorem test_leasp :
    ends (bd 0xE1 0xE2 0xE3 0xF0 0x20 0b00000 [(0x20, 0xBE), (0x21, 0xFB)])
      0xE1 0xE2 0xE3 0xEB 0x22 0b00000 [] ∧
    ends (bd 0xE1 0x77 0xE3 0x00 0x20 0b00000 [(0x20, 0xCE), (0x21, 0x00)])
      0xE1 0x77 0xE3 0x77 0x22 0b00000 [] ∧
    ends (bd 0xE1 0xE2 0xF8 0x00 0x20 0b00000 [(0x20, 0xDE), (0x21, 0x10)])
      0xE1 0xE2 0xF8 0x08 0x22 0b00000 [] := by decide

theorem test_sta :
    ends (bd 0x90 0x90 0xE3 0xE4 0x20 0b01100 [(0x20, 0xE4)])
      0x90 0x90 0xE3 0xE4 0x21 0b01100 [(0x20, 0x90)] := by decide

theorem test_stx :
    ends (bd 0x02 0xAB 0x60 0xE4 0x20 0b00000 [(0x20, 0x80)])
      0x02 0xAB 0x60 0xE4 0x21 0b00000 [(0x62, 0xAB)] ∧
    ends (bd 0xE1 0x5C 0xE3 0xE4 0x20 0b00000 [(0x20, 0x30), (0x21, 0x41)])
      0xE1 0x5C 0xE3 0xE4 0x22 0b00000 [(0x41, 0x5C)] := by decide

theorem test_sty :
    ends (bd 0xE1 0xE2 0x66 0xFF 0x20 0b00000 [(0x20, 0x41), (0x21, 0x01)])
      0xE1 0xE2 0x66 0xFF 0x22 0b00000 [(0x00, 0x66)] ∧
    ends (bd 0x01 0x70 0x12 0xE4 0x20 0b00000 [(0x20, 0x61)])
      0x01 0x70 0x12 0xE4 0x21 0b00000 [(0x71, 0x12)] := by decide

theorem test_stsp :
    ends (bd 0xE1 0x44 0xE3 0xEE 0x20 0b00000 [(0x20, 0x52), (0x21, 0x00)])
      0xE1 0x44 0xE3 0xEE 0x22 0b00000 [(0x44, 0xEE)] ∧
    ends (bd 0xE1 0xE2 0xE3 0xEE 0x20 0b00000 [(0x20, 0x42), (0x21, 0x00)])
      0xE1 0xE2 0xE3 0xEE 0x22 0b00000 [(0xEE, 0xEE)] := by decide

/-! 95_test_vectors.md section 2.3, the rows of 41_data_movement.md. -/

theorem test_tfr_a_cc :
    ends (bd 0xFF 0xE2 0xE3 0xE4 0x20 0b00000 [(0x20, 0x18)])
      0xFF 0xE2 0xE3 0xE4 0x21 0b11111 [] ∧
    ends (bd 0x00 0xE2 0xE3 0xE4 0x20 0b11111 [(0x20, 0x18)])
      0x00 0xE2 0xE3 0xE4 0x21 0b00000 [] := by decide

theorem test_tfr_cc_a :
    ends (bd 0xFF 0xE2 0xE3 0xE4 0x20 0b00000 [(0x20, 0x19)])
      0x00 0xE2 0xE3 0xE4 0x21 0b00000 [] ∧
    ends (bd 0x00 0xE2 0xE3 0xE4 0x20 0b11111 [(0x20, 0x19)])
      0x1F 0xE2 0xE3 0xE4 0x21 0b11111 [] := by decide

theorem test_tfr_x_sp :
    ends (bd 0xE1 0x00 0xE3 0xF0 0x20 0b00000 [(0x20, 0x1C)])
      0xE1 0x00 0xE3 0x00 0x21 0b00000 [] := by decide

theorem test_tfr_sp_y :
    ends (bd 0xE1 0xE2 0x01 0x80 0x20 0b00000 [(0x20, 0x1F)])
      0xE1 0xE2 0x80 0x80 0x21 0b00000 [] := by decide

theorem test_exg_a_cc :
    ends (bd 0xFF 0xE2 0xE3 0xE4 0x20 0b00000 [(0x20, 0x9F)])
      0x00 0xE2 0xE3 0xE4 0x21 0b11111 [] ∧
    ends (bd 0x0A 0xE2 0xE3 0xE4 0x20 0b10101 [(0x20, 0x9F)])
      0x15 0xE2 0xE3 0xE4 0x21 0b01010 [] := by decide

theorem test_exg_x_y :
    ends (bd 0xE1 0xFF 0x00 0xE4 0x20 0b00000 [(0x20, 0xAF)])
      0xE1 0x00 0xFF 0xE4 0x21 0b00000 [] := by decide

theorem test_exg_x_sp :
    ends (bd 0xE1 0x40 0xE3 0xF0 0x20 0b00000 [(0x20, 0xBF)])
      0xE1 0xF0 0xE3 0x40 0x21 0b00000 [] := by decide

theorem test_exg_y_sp :
    ends (bd 0xE1 0xE2 0xF0 0xF0 0x20 0b00000 [(0x20, 0xCF)])
      0xE1 0xE2 0xF0 0xF0 0x21 0b00000 [] := by decide

/-! 95_test_vectors.md section 2.3, the rows of 42_flow_control.md. -/

theorem test_jmp :
    ends (bd 0xE1 0xE2 0xE3 0xE4 0x20 0b00000 [(0x20, 0x33), (0x21, 0xFF)])
      0xE1 0xE2 0xE3 0xE4 0xFF 0b00000 [] ∧
    ends (bd 0xE1 0x20 0xE3 0xE4 0x20 0b00000 [(0x20, 0x53), (0x21, 0xF0)])
      0xE1 0x20 0xE3 0xE4 0x10 0b00000 [] ∧
    ends (bd 0xFF 0xE2 0x01 0xE4 0x20 0b00000 [(0x20, 0x83)])
      0xFF 0xE2 0x01 0xE4 0x00 0b00000 [] ∧
    ends (bd 0xE1 0xE2 0x20 0xE4 0x20 0b00000 [(0x20, 0x73), (0x21, 0x00)])
      0xE1 0xE2 0x20 0xE4 0x20 0b00000 [] := by decide

theorem test_jsr :
    ends (bd 0xE1 0xE2 0xE3 0x00 0x20 0b00000 [(0x20, 0x34), (0x21, 0x40)])
      0xE1 0xE2 0xE3 0xFF 0x40 0b00000 [(0xFF, 0x22)] ∧
    ends (bd 0xE1 0x50 0xE3 0xF0 0x20 0b00000 [(0x20, 0x54), (0x21, 0x02)])
      0xE1 0x50 0xE3 0xEF 0x52 0b00000 [(0xEF, 0x22)] ∧
    ends (bd 0x03 0xE2 0x60 0xF0 0x20 0b00000 [(0x20, 0x84)])
      0x03 0xE2 0x60 0xEF 0x63 0b00000 [(0xEF, 0x21)] := by decide

theorem test_bsr :
    ends (bd 0xE1 0xE2 0xE3 0xF0 0x20 0b00000 [(0x20, 0x20), (0x21, 0xFE)])
      0xE1 0xE2 0xE3 0xEF 0x20 0b00000 [(0xEF, 0x22)] ∧
    ends (bd 0xE1 0xE2 0xE3 0x80 0xF0 0b00000 [(0xF0, 0x20), (0xF1, 0x7F)])
      0xE1 0xE2 0xE3 0x7F 0x71 0b00000 [(0x7F, 0xF2)] := by decide

theorem test_bra :
    ends (bd 0xE1 0xE2 0xE3 0xE4 0x20 0b00000 [(0x20, 0x21), (0x21, 0x00)])
      0xE1 0xE2 0xE3 0xE4 0x22 0b00000 [] ∧
    ends (bd 0xE1 0xE2 0xE3 0xE4 0x20 0b00000 [(0x20, 0x21), (0x21, 0x80)])
      0xE1 0xE2 0xE3 0xE4 0xA2 0b00000 [] ∧
    ends (bd 0xE1 0xE2 0xE3 0xE4 0x20 0b00000 [(0x20, 0x21), (0x21, 0x7F)])
      0xE1 0xE2 0xE3 0xE4 0xA1 0b00000 [] := by decide

theorem test_rts :
    ends (bd 0xE1 0xE2 0xE3 0xFF 0x20 0b00000 [(0x20, 0x43), (0xFF, 0x20)])
      0xE1 0xE2 0xE3 0x00 0x20 0b00000 [] := by decide

theorem test_rti :
    ends (bd 0xE1 0xE2 0xE3 0xFD 0x20 0b00000
        [(0x20, 0x44), (0xFD, 0xFF), (0xFE, 0x20), (0xFF, 0x21), (0x00, 0x22), (0x01, 0x23)])
      0x20 0x21 0x22 0x02 0x23 0b11111 [] ∧
    ends (bd 0xE1 0xE2 0xE3 0x80 0x20 0b11111
        [(0x20, 0x44), (0x80, 0x00), (0x81, 0x01), (0x82, 0x02), (0x83, 0x03), (0x84, 0x04)])
      0x01 0x02 0x03 0x85 0x04 0b00000 [] := by decide

/-! 95_test_vectors.md section 2.3, the rows of 43_arithmetic.md. -/

theorem test_adda :
    ends (bd 0x80 0xE2 0xE3 0xE4 0x20 0b00000 [(0x20, 0x96), (0x21, 0x80)])
      0x00 0xE2 0xE3 0xE4 0x22 0b00111 [] ∧
    ends (bd 0xFF 0xE2 0xE3 0xE4 0x20 0b00010 [(0x20, 0x96), (0x21, 0x01)])
      0x00 0xE2 0xE3 0xE4 0x22 0b00101 [] ∧
    ends (bd 0x40 0xE2 0xE3 0xE4 0x20 0b00001 [(0x20, 0xA6), (0x21, 0x40), (0x40, 0x40)])
      0x80 0xE2 0xE3 0xE4 0x22 0b01010 [] := by decide

theorem test_adca :
    ends (bd 0xFF 0xE2 0xE3 0xE4 0x20 0b00001 [(0x20, 0x95), (0x21, 0x00)])
      0x00 0xE2 0xE3 0xE4 0x22 0b00101 [] ∧
    ends (bd 0x00 0xE2 0xE3 0xE4 0x20 0b00001 [(0x20, 0x95), (0x21, 0x7F)])
      0x80 0xE2 0xE3 0xE4 0x22 0b01010 [] ∧
    ends (bd 0xFF 0xE2 0xE3 0xE4 0x20 0b00001 [(0x20, 0x95), (0x21, 0xFF)])
      0xFF 0xE2 0xE3 0xE4 0x22 0b01001 [] := by decide

theorem test_suba :
    ends (bd 0x80 0xE2 0xE3 0xE4 0x20 0b00000 [(0x20, 0x94), (0x21, 0x01)])
      0x7F 0xE2 0xE3 0xE4 0x22 0b00010 [] ∧
    ends (bd 0x7F 0xE2 0xE3 0xE4 0x20 0b00000 [(0x20, 0x94), (0x21, 0x80)])
      0xFF 0xE2 0xE3 0xE4 0x22 0b01011 [] ∧
    ends (bd 0x10 0xE2 0xE3 0xF0 0x20 0b00001 [(0x20, 0xB4), (0x21, 0x00), (0xF0, 0x10)])
      0x00 0xE2 0xE3 0xF0 0x22 0b00100 [] := by decide

theorem test_sbca :
    ends (bd 0x00 0xE2 0xE3 0xE4 0x20 0b00001 [(0x20, 0x93), (0x21, 0x00)])
      0xFF 0xE2 0xE3 0xE4 0x22 0b01001 [] ∧
    ends (bd 0x00 0xE2 0xE3 0xE4 0x20 0b00001 [(0x20, 0x93), (0x21, 0xFF)])
      0x00 0xE2 0xE3 0xE4 0x22 0b00101 [] ∧
    ends (bd 0x80 0xE2 0xE3 0xE4 0x20 0b00001 [(0x20, 0x93), (0x21, 0x7F)])
      0x00 0xE2 0xE3 0xE4 0x22 0b00110 [] := by decide

theorem test_clra :
    ends (bd 0x00 0xE2 0xE3 0xE4 0x20 0b11011 [(0x20, 0x05)])
      0x00 0xE2 0xE3 0xE4 0x21 0b10100 [] := by decide

theorem test_clr :
    ends (bd 0x04 0x40 0xE3 0xE4 0x20 0b01011 [(0x20, 0x65), (0x44, 0xFF)])
      0x04 0x40 0xE3 0xE4 0x21 0b00100 [(0x44, 0x00)] := by decide

theorem test_nega :
    ends (bd 0x00 0xE2 0xE3 0xE4 0x20 0b01011 [(0x20, 0x06)])
      0x00 0xE2 0xE3 0xE4 0x21 0b00100 [] ∧
    ends (bd 0x80 0xE2 0xE3 0xE4 0x20 0b00000 [(0x20, 0x06)])
      0x80 0xE2 0xE3 0xE4 0x21 0b01011 [] := by decide

theorem test_neg :
    ends (bd 0xE1 0xE2 0x40 0xE4 0x20 0b00000 [(0x20, 0x76), (0x21, 0x01), (0x41, 0x7F)])
      0xE1 0xE2 0x40 0xE4 0x22 0b01001 [(0x41, 0x81)] := by decide

theorem test_deca :
    ends (bd 0x80 0xE2 0xE3 0xE4 0x20 0b00001 [(0x20, 0x08)])
      0x7F 0xE2 0xE3 0xE4 0x21 0b00011 [] ∧
    ends (bd 0x00 0xE2 0xE3 0xE4 0x20 0b00000 [(0x20, 0x08)])
      0xFF 0xE2 0xE3 0xE4 0x21 0b01000 [] := by decide

theorem test_dec :
    ends (bd 0xE1 0xE2 0xE3 0xE4 0x20 0b00001 [(0x20, 0x38), (0x21, 0x40), (0x40, 0x01)])
      0xE1 0xE2 0xE3 0xE4 0x22 0b00101 [(0x40, 0x00)] := by decide

theorem test_inca :
    ends (bd 0x7F 0xE2 0xE3 0xE4 0x20 0b00001 [(0x20, 0x07)])
      0x80 0xE2 0xE3 0xE4 0x21 0b01011 [] := by decide

theorem test_inc :
    ends (bd 0x01 0xE2 0x40 0xE4 0x20 0b00000 [(0x20, 0x87), (0x41, 0xFF)])
      0x01 0xE2 0x40 0xE4 0x21 0b00100 [(0x41, 0x00)] := by decide

/-! 95_test_vectors.md section 2.3, the rows of 44_test.md. -/

theorem test_cmpa :
    ends (bd 0x7F 0xE2 0xE3 0xE4 0x20 0b00000 [(0x20, 0x97), (0x21, 0x80)])
      0x7F 0xE2 0xE3 0xE4 0x22 0b01011 [] ∧
    ends (bd 0x00 0xE2 0xE3 0xE4 0x20 0b01011 [(0x20, 0x97), (0x21, 0x00)])
      0x00 0xE2 0xE3 0xE4 0x22 0b00100 [] ∧
    ends (bd 0x05 0x40 0xE3 0xE4 0x20 0b00000 [(0x20, 0xC7), (0x21, 0x01), (0x41, 0x06)])
      0x05 0x40 0xE3 0xE4 0x22 0b01001 [] := by decide

theorem test_cmpx :
    ends (bd 0xE1 0x00 0xE3 0xE4 0x20 0b00000 [(0x20, 0x9C), (0x21, 0xFF)])
      0xE1 0x00 0xE3 0xE4 0x22 0b00001 [] ∧
    ends (bd 0xE1 0x80 0xE3 0xF0 0x20 0b00000 [(0x20, 0xBC), (0x21, 0x00), (0xF0, 0x01)])
      0xE1 0x80 0xE3 0xF0 0x22 0b00010 [] := by decide

theorem test_cmpy :
    ends (bd 0xE1 0xE2 0x40 0xE4 0x20 0b01011 [(0x20, 0x9D), (0x21, 0x40)])
      0xE1 0xE2 0x40 0xE4 0x22 0b00100 [] := by decide

theorem test_cmpsp :
    ends (bd 0xE1 0xE2 0xE3 0xF0 0x20 0b00000 [(0x20, 0xAE), (0x21, 0x40), (0x40, 0xF1)])
      0xE1 0xE2 0xE3 0xF0 0x22 0b01001 [] := by decide

theorem test_bita :
    ends (bd 0xF0 0xE2 0xE3 0xE4 0x20 0b01011 [(0x20, 0x98), (0x21, 0x0F)])
      0xF0 0xE2 0xE3 0xE4 0x22 0b00101 [] ∧
    ends (bd 0x81 0xE2 0xE3 0xE4 0x20 0b00011 [(0x20, 0xA8), (0x21, 0x40), (0x40, 0x80)])
      0x81 0xE2 0xE3 0xE4 0x22 0b01001 [] := by decide

theorem test_tsta :
    ends (bd 0x00 0xE2 0xE3 0xE4 0x20 0b01011 [(0x20, 0x09)])
      0x00 0xE2 0xE3 0xE4 0x21 0b00100 [] ∧
    ends (bd 0xFF 0xE2 0xE3 0xE4 0x20 0b00111 [(0x20, 0x09)])
      0xFF 0xE2 0xE3 0xE4 0x21 0b01000 [] := by decide

theorem test_tst :
    ends (bd 0xE1 0x40 0xE3 0xE4 0x20 0b01111 [(0x20, 0x59), (0x21, 0x00), (0x40, 0x7F)])
      0xE1 0x40 0xE3 0xE4 0x22 0b00000 [] := by decide

/-! 95_test_vectors.md section 2.3, the rows of 45_logical.md. -/

theorem test_anda :
    ends (bd 0xFF 0xE2 0xE3 0xE4 0x20 0b01011 [(0x20, 0x99), (0x21, 0x00)])
      0x00 0xE2 0xE3 0xE4 0x22 0b00101 [] ∧
    ends (bd 0xF0 0xE2 0xE3 0xE4 0x20 0b00000 [(0x20, 0xA9), (0x21, 0x40), (0x40, 0x9F)])
      0x90 0xE2 0xE3 0xE4 0x22 0b01000 [] := by decide

theorem test_ora :
    ends (bd 0x00 0xE2 0xE3 0xE4 0x20 0b01011 [(0x20, 0x9A), (0x21, 0x00)])
      0x00 0xE2 0xE3 0xE4 0x22 0b00101 [] ∧
    ends (bd 0x0F 0xE2 0x40 0xE4 0x20 0b00001 [(0x20, 0xDA), (0x21, 0x00), (0x40, 0xF0)])
      0xFF 0xE2 0x40 0xE4 0x22 0b01001 [] := by decide

theorem test_eora :
    ends (bd 0x00 0xE2 0xE3 0xE4 0x20 0b00010 [(0x20, 0x9B), (0x21, 0x80)])
      0x80 0xE2 0xE3 0xE4 0x22 0b01000 [] ∧
    ends (bd 0x55 0xE2 0xE3 0xE4 0x20 0b00000 [(0x20, 0x9B), (0x21, 0x55)])
      0x00 0xE2 0xE3 0xE4 0x22 0b00100 [] := by decide

theorem test_andcc :
    ends (bd 0xE1 0xE2 0xE3 0xE4 0x20 0b11111 [(0x20, 0x01), (0x21, 0x00)])
      0xE1 0xE2 0xE3 0xE4 0x22 0b00000 [] ∧
    ends (bd 0xE1 0xE2 0xE3 0xE4 0x20 0b11111 [(0x20, 0x01), (0x21, 0xFE)])
      0xE1 0xE2 0xE3 0xE4 0x22 0b11110 [] ∧
    ends (bd 0xE1 0xE2 0xE3 0xE4 0x20 0b10101 [(0x20, 0x01), (0x21, 0xFF)])
      0xE1 0xE2 0xE3 0xE4 0x22 0b10101 [] := by decide

theorem test_orcc :
    ends (bd 0xE1 0xE2 0xE3 0xE4 0x20 0b00000 [(0x20, 0x02), (0x21, 0xFF)])
      0xE1 0xE2 0xE3 0xE4 0x22 0b11111 [] ∧
    ends (bd 0xE1 0xE2 0xE3 0xE4 0x20 0b10000 [(0x20, 0x02), (0x21, 0x01)])
      0xE1 0xE2 0xE3 0xE4 0x22 0b10001 [] ∧
    ends (bd 0xE1 0xE2 0xE3 0xE4 0x20 0b01010 [(0x20, 0x02), (0x21, 0xE0)])
      0xE1 0xE2 0xE3 0xE4 0x22 0b01010 [] := by decide

theorem test_coma :
    ends (bd 0xFF 0xE2 0xE3 0xE4 0x20 0b01011 [(0x20, 0x0A)])
      0x00 0xE2 0xE3 0xE4 0x21 0b00101 [] ∧
    ends (bd 0x00 0xE2 0xE3 0xE4 0x20 0b00001 [(0x20, 0x0A)])
      0xFF 0xE2 0xE3 0xE4 0x21 0b01001 [] := by decide

theorem test_com :
    ends (bd 0xE1 0xE2 0xE3 0xF0 0x20 0b00000 [(0x20, 0x4A), (0x21, 0x00), (0xF0, 0x0F)])
      0xE1 0xE2 0xE3 0xF0 0x22 0b01000 [(0xF0, 0xF0)] := by decide

/-! 95_test_vectors.md section 2.3, the rows of 46_shift_rotate.md. -/

theorem test_asra :
    ends (bd 0xFF 0xE2 0xE3 0xE4 0x20 0b00010 [(0x20, 0x0F)])
      0xFF 0xE2 0xE3 0xE4 0x21 0b01001 [] ∧
    ends (bd 0x01 0xE2 0xE3 0xE4 0x20 0b00000 [(0x20, 0x0F)])
      0x00 0xE2 0xE3 0xE4 0x21 0b00101 [] := by decide

theorem test_asr :
    ends (bd 0xE1 0x40 0xE3 0xE4 0x20 0b00000 [(0x20, 0x5F), (0x21, 0x00), (0x40, 0x80)])
      0xE1 0x40 0xE3 0xE4 0x22 0b01000 [(0x40, 0xC0)] := by decide

theorem test_lsla :
    ends (bd 0x80 0xE2 0xE3 0xE4 0x20 0b00000 [(0x20, 0x0B)])
      0x00 0xE2 0xE3 0xE4 0x21 0b00111 [] ∧
    ends (bd 0xC0 0xE2 0xE3 0xE4 0x20 0b00000 [(0x20, 0x0B)])
      0x80 0xE2 0xE3 0xE4 0x21 0b01001 [] := by decide

theorem test_lsl :
    ends (bd 0xE1 0xE2 0xE3 0xE4 0x20 0b00001 [(0x20, 0x3B), (0x21, 0x40), (0x40, 0x40)])
      0xE1 0xE2 0xE3 0xE4 0x22 0b01010 [(0x40, 0x80)] := by decide

theorem test_lsra :
    ends (bd 0x01 0xE2 0xE3 0xE4 0x20 0b01000 [(0x20, 0x0C)])
      0x00 0xE2 0xE3 0xE4 0x21 0b00101 [] ∧
    ends (bd 0x80 0xE2 0xE3 0xE4 0x20 0b00000 [(0x20, 0x0C)])
      0x40 0xE2 0xE3 0xE4 0x21 0b00010 [] := by decide

theorem test_lsr :
    ends (bd 0xE1 0xE2 0xE3 0xF0 0x20 0b00000 [(0x20, 0x4C), (0x21, 0x01), (0xF1, 0xFF)])
      0xE1 0xE2 0xE3 0xF0 0x22 0b00011 [(0xF1, 0x7F)] := by decide

theorem test_rola :
    ends (bd 0x00 0xE2 0xE3 0xE4 0x20 0b00001 [(0x20, 0x0D)])
      0x01 0xE2 0xE3 0xE4 0x21 0b00000 [] ∧
    ends (bd 0x40 0xE2 0xE3 0xE4 0x20 0b00000 [(0x20, 0x0D)])
      0x80 0xE2 0xE3 0xE4 0x21 0b01010 [] := by decide

theorem test_rol :
    ends (bd 0xE1 0xE2 0x40 0xE4 0x20 0b00000 [(0x20, 0x7D), (0x21, 0x00), (0x40, 0xFF)])
      0xE1 0xE2 0x40 0xE4 0x22 0b01001 [(0x40, 0xFE)] := by decide

theorem test_rora :
    ends (bd 0x00 0xE2 0xE3 0xE4 0x20 0b00001 [(0x20, 0x0E)])
      0x80 0xE2 0xE3 0xE4 0x21 0b01010 [] ∧
    ends (bd 0x80 0xE2 0xE3 0xE4 0x20 0b00001 [(0x20, 0x0E)])
      0xC0 0xE2 0xE3 0xE4 0x21 0b01000 [] := by decide

theorem test_ror :
    ends (bd 0xE1 0xE2 0xE3 0xE4 0x20 0b00000 [(0x20, 0x3E), (0x21, 0x40), (0x40, 0x81)])
      0xE1 0xE2 0xE3 0xE4 0x22 0b00011 [(0x40, 0x40)] := by decide

/-! 95_test_vectors.md section 2.3, the rows of 47_stack.md. -/

theorem test_psha :
    ends (bd 0x12 0xE2 0xE3 0x00 0x20 0b00000 [(0x20, 0x10)])
      0x12 0xE2 0xE3 0xFF 0x21 0b00000 [(0xFF, 0x12)] := by decide

theorem test_pshc :
    ends (bd 0xE1 0xE2 0xE3 0x80 0x20 0b11111 [(0x20, 0x13)])
      0xE1 0xE2 0xE3 0x7F 0x21 0b11111 [(0x7F, 0x1F)] ∧
    ends (bd 0xE1 0xE2 0xE3 0x80 0x20 0b00000 [(0x20, 0x13), (0x7F, 0xFF)])
      0xE1 0xE2 0xE3 0x7F 0x21 0b00000 [(0x7F, 0x00)] := by decide

theorem test_pshx :
    ends (bd 0xE1 0x34 0xE3 0x01 0x20 0b00000 [(0x20, 0x11)])
      0xE1 0x34 0xE3 0x00 0x21 0b00000 [(0x00, 0x34)] := by decide

theorem test_pshy :
    ends (bd 0xE1 0xE2 0x56 0x80 0x20 0b00000 [(0x20, 0x12)])
      0xE1 0xE2 0x56 0x7F 0x21 0b00000 [(0x7F, 0x56)] := by decide

theorem test_pula :
    ends (bd 0x55 0xE2 0xE3 0xFF 0x20 0b01000 [(0x20, 0x14), (0xFF, 0x00)])
      0x00 0xE2 0xE3 0x00 0x21 0b01000 [] := by decide

theorem test_pulc :
    ends (bd 0xE1 0xE2 0xE3 0x80 0x20 0b00000 [(0x20, 0x17), (0x80, 0xFF)])
      0xE1 0xE2 0xE3 0x81 0x21 0b11111 [] ∧
    ends (bd 0xE1 0xE2 0xE3 0x80 0x20 0b11111 [(0x20, 0x17), (0x80, 0xE0)])
      0xE1 0xE2 0xE3 0x81 0x21 0b00000 [] := by decide

theorem test_pulx :
    ends (bd 0xE1 0xE2 0xE3 0x7F 0x20 0b00000 [(0x20, 0x15), (0x7F, 0x80)])
      0xE1 0x80 0xE3 0x80 0x21 0b00000 [] := by decide

theorem test_puly :
    ends (bd 0xE1 0xE2 0xE3 0x00 0x20 0b00000 [(0x20, 0x16), (0x00, 0x01)])
      0xE1 0xE2 0x01 0x01 0x21 0b00000 [] := by decide

/-! 95_test_vectors.md section 2.3, the rows of 48_misc.md. -/

theorem test_nop :
    ends (bd 0xE1 0xE2 0xE3 0xE4 0xFF 0b11111 [(0xFF, 0x00)])
      0xE1 0xE2 0xE3 0xE4 0x00 0b11111 [] := by decide

/-! 95_test_vectors.md section 2.2: every form of LDA and STA; section 2.4: every branch under every flag value. -/

theorem test_lda_forms :
    [([0xF0, 0x42], [0x42, 0x30, 0xFF, 0b0001]),
      ([0xF1, 0x60], [0x00, 0x30, 0xFF, 0b0101]),
      ([0xF2, 0x03], [0x23, 0x30, 0xFF, 0b0001]),
      ([0xF2, 0xFF], [0x1F, 0x30, 0xFF, 0b0001]),
      ([0xF3, 0x05], [0xD5, 0x30, 0xFF, 0b1001]),
      ([0xF3, 0xF0], [0xC0, 0x30, 0xFF, 0b1001]),
      ([0xF4], [0xE0, 0x30, 0xFF, 0b1001]),
      ([0xF5], [0xD0, 0x31, 0xFF, 0b1001]),
      ([0xF6], [0xD0, 0x2F, 0xFF, 0b1001]),
      ([0xF7], [0xD1, 0x31, 0xFF, 0b1001]),
      ([0xF8], [0xCF, 0x2F, 0xFF, 0b1001]),
      ([0xF9, 0x05], [0xA4, 0x30, 0xFF, 0b1001]),
      ([0xFA], [0xAF, 0x30, 0xFF, 0b1001]),
      ([0xFB], [0x9F, 0x30, 0x00, 0b1001]),
      ([0xFC], [0x9F, 0x30, 0xFE, 0b1001]),
      ([0xFD], [0xFD, 0x30, 0x00, 0b1001]),
      ([0xFE], [0x9E, 0x30, 0xFE, 0b1001])].all (fun r => ldaForm r.1 r.2) = true := by decide +kernel

theorem test_sta_forms :
    [([0xE1, 0x60], [0x60, 0x30, 0xFF]),
      ([0xE2, 0x90], [0x10, 0x30, 0xFF]),
      ([0xE3, 0x01], [0x31, 0x30, 0xFF]),
      ([0xE4], [0x40, 0x30, 0xFF]),
      ([0xE5], [0x30, 0x31, 0xFF]),
      ([0xE6], [0x30, 0x2F, 0xFF]),
      ([0xE7], [0x31, 0x31, 0xFF]),
      ([0xE8], [0x2F, 0x2F, 0xFF]),
      ([0xE9, 0x02], [0x01, 0x30, 0xFF]),
      ([0xEA], [0x0F, 0x30, 0xFF]),
      ([0xEB], [0xFF, 0x30, 0x00]),
      ([0xEC], [0xFF, 0x30, 0xFE]),
      ([0xED], [0x00, 0x30, 0x00]),
      ([0xEE], [0xFE, 0x30, 0xFE])].all (fun r => staForm r.1 r.2) = true := by decide +kernel

theorem test_branch_table :
    [(0x22, 0xFF00), (0x23, 0x00FF), (0x24, 0xF0F0), (0x25, 0x0F0F), (0x26, 0xCCCC),
      (0x27, 0x3333), (0x28, 0xAAAA), (0x29, 0x5555), (0x2A, 0x0505), (0x2B, 0xFAFA),
      (0x2C, 0x0C03), (0x2D, 0xCC33), (0x2E, 0xF3FC), (0x2F, 0x33CC)].all
      (fun r => takenMask r.1 == r.2) = true := by decide

/-- R122, R123, R125, R126: X, Y, SP = $11, $22, $33 before. -/
theorem test_tfr_x_y_sp :
    ends (bd 0 0x11 0x22 0x33 0x20 0b11111 [(0x20, 0x1A)]) 0 0x11 0x11 0x33 0x21 0b11111 [] ∧
    ends (bd 0 0x11 0x22 0x33 0x20 0b11111 [(0x20, 0x1B)]) 0 0x22 0x22 0x33 0x21 0b11111 [] ∧
    ends (bd 0 0x11 0x22 0x33 0x20 0b11111 [(0x20, 0x1D)]) 0 0x33 0x22 0x33 0x21 0b11111 [] ∧
    ends (bd 0 0x11 0x22 0x33 0x20 0b11111 [(0x20, 0x1E)]) 0 0x11 0x22 0x22 0x21 0b11111 [] := by decide

/-! ## Exceptions and interrupts (95_test_vectors.md section 2.5) -/

theorem test_E1_masked :
    ends (vectored 0x01 0 0 0xF0 0x20 0b10000 [true] [(0x20, 0x07)]) 0x02 0 0 0xF0 0x21 0b10000
      [(0xEF, 0x00)] := by decide

theorem test_E2_irq :
    ends (vectored 0x01 0x02 0x03 0xF0 0x20 0b01010 [true] [(0x20, 0x07)]) 0x01 0x02 0x03 0xEB 0x40 0b11010
      [(0xEF, 0x20), (0xEE, 0x03), (0xED, 0x02), (0xEC, 0x01), (0xEB, 0x0A)] := by decide

theorem test_E3_irq_before_trap :
    ends (vectored 0x01 0x02 0x03 0xF0 0x20 0b00000 [true] [(0x20, 0x03)]) 0x01 0x02 0x03 0xEB 0x40 0b10000
      [(0xEF, 0x20), (0xEB, 0x00)] := by decide

theorem test_E4_trap :
    ends (vectored 0x01 0x02 0x03 0xF0 0x20 0b10000 [true] [(0x20, 0x03)]) 0x01 0x02 0x03 0xEB 0x60 0b10000
      [(0xEF, 0x21), (0xEE, 0x03), (0xED, 0x02), (0xEC, 0x01), (0xEB, 0x10)] := by decide

theorem test_E5_no_grace :
    next (vectored 0 0 0 0xF0 0x20 0x1F [true, true] [(0x20, 0x01), (0x21, 0xEF)]) (fun t =>
      t.cc.toByte == 0x0F && t.pc == 0x22 &&
        ends t 0 0 0 0xEB 0x40 0x1F [(0xEF, 0x22), (0xEB, 0x0F)]) = true := by decide

theorem test_E6_masked_in_time :
    next (vectored 0 0 0 0xF0 0x20 0 [false, true] [(0x20, 0x02), (0x21, 0x10), (0x22, 0x00)]) (fun t =>
      ends t 0 0 0 0xF0 0x23 0x10 []) = true := by decide

theorem test_E7_frame_over_vectors :
    ends (vectored 0x77 0x88 0x99 0x02 0x20 0x05 [false] [(0x20, 0xEF), (0xFF, 0x10)])
      0x77 0x88 0x99 0xFD 0x77 0x15
      [(0x01, 0x21), (0x00, 0x99), (0xFF, 0x88), (0xFE, 0x77), (0xFD, 0x05)] := by decide

theorem test_E8_saved_pc_wraps :
    ends (vectored 0 0 0 0x80 0xFF 0 [false] [(0xFF, 0xFF), (0x7F, 0x55)]) 0 0 0 0x7B 0x60 0x10
      [(0x7F, 0x00)] := by decide

theorem test_E9_rti_then_irq :
    next (vectored 0 0 0 0xEB 0x40 0x10 [true, true]
        [(0x40, 0x44), (0xEC, 0x11), (0xED, 0x22), (0xEE, 0x33), (0xEF, 0x21)]) (fun t =>
      holds t 0x11 0x22 0x33 0xF0 0x21 0 [] &&
        ends t 0x11 0x22 0x33 0xEB 0x40 0x10
          [(0xEF, 0x21), (0xEE, 0x33), (0xED, 0x22), (0xEC, 0x11), (0xEB, 0x00)]) = true := by decide

theorem test_E10_trap_in_trap :
    next (vectored 1 2 3 0xF0 0x20 0 [false, false] [(0x20, 0x04), (0x60, 0xE0)]) (fun t =>
      holds t 1 2 3 0xEB 0x60 0x10 [(0xEF, 0x21), (0xEE, 3), (0xED, 2), (0xEC, 1), (0xEB, 0)] &&
        ends t 1 2 3 0xE6 0x60 0x10
          [(0xEA, 0x61), (0xE9, 3), (0xE8, 2), (0xE7, 1), (0xE6, 0x10)]) = true := by decide

/-! ## Ports (section 2.6) and wrap-around (section 2.7) -/

theorem test_PT1_input_consumed :
    next (ports 0 0 0 [(0x20, 0xF1), (0x21, 0xFC)]) (fun t =>
      t.a == 0x11 && t.portFC.input == [0x22, 0x33] && t.portFC.reads == 1) = true := by decide

theorem test_PT2_write_not_read_back :
    next (ports 0x99 0 0 [(0x20, 0xE1), (0x21, 0xFC)]) (fun t =>
      t.portFC.output == [0x99] && t.look 0xFC == 0x11 && t.mem == (ports 0x99 0 0
        [(0x20, 0xE1), (0x21, 0xFC)]).mem) = true := by decide

theorem test_PT3_inc_port :
    next (ports 0 0 0 [(0x20, 0x37), (0x21, 0xFB)]) (fun t =>
      t.portFB.output == [0x81] && t.portFB.input == [0x7F] && t.cc.toByte == 0b01000) = true := by
  decide

theorem test_PT4_clr_port :
    next (ports 0 0 0b01011 [(0x20, 0x35), (0x21, 0xFB)]) (fun t =>
      t.portFB.output == [0x00] && t.portFB.reads == 0 && t.cc.toByte == 0b00100) = true := by decide

theorem test_PT5_PT6_stack_at_port :
    next (ports 0x42 0xFD 0 [(0x20, 0x10)]) (fun t => t.portFC.output == [0x42] && t.sp == 0xFC) = true ∧
    next (ports 0 0xFC 0 [(0x20, 0x14)]) (fun t => t.a == 0x11 && t.sp == 0xFD) = true := by decide

theorem test_PT7_lsl_port :
    next (ports 0 0 0 [(0x20, 0x3B), (0x21, 0xFC)]) (fun t =>
      t.portFC.output == [0x22] && t.portFC.reads == 1 && t.cc.toByte == 0) = true := by decide

theorem test_W1_W2_W3_top_of_memory :
    ends (bd 0 0 0 0 0xFF 0 [(0xFF, 0xF0), (0x00, 0x5A)]) 0x5A 0 0 0 0x01 0 [] ∧
    ends (bd 0 0 0 0 0xFE 0 [(0xFE, 0x21), (0xFF, 0x10)]) 0 0 0 0 0x10 0 [] ∧
    ends (bd 0 0 0 0 0xFE 0 [(0xFE, 0x20), (0xFF, 0x10)]) 0 0 0 0xFF 0x10 0 [(0xFF, 0x00)] := by decide

theorem test_W5_W6_W8_W9_addresses :
    ends (bd 0 0x10 0 0 0x20 0 [(0x20, 0xF3), (0x21, 0xFF), (0x0F, 0xC3)]) 0xC3 0x10 0 0 0x22 0b01000 [] ∧
    ends (bd 0 0 0 0xC0 0x20 0 [(0x20, 0xDC), (0x21, 0x80)]) 0 0x40 0 0xC0 0x22 0 [] ∧
    ends (bd 0x05 0x30 0 0 0x20 0 [(0x20, 0xF4), (0x35, 0x99)]) 0x99 0x30 0 0 0x21 0b01000 [] ∧
    ends (bd 0xF0 0x20 0 0x80 0x20 0 [(0x20, 0x64)]) 0xF0 0x20 0 0x7F 0x10 0 [(0x7F, 0x21)] := by decide

theorem test_W7_store_then_fetch :
    next { bd 0x07 0 0 0 0x20 0 [(0x20, 0xE1), (0x21, 0x22), (0x22, 0x00)] with irqIn := [false, false] } (fun t =>
      ends t 0x08 0 0 0 0x23 0 []) = true := by decide

/-! ## Reset, the fetch word and the end of a run (70_reset_and_hazards.md, D15) -/

theorem test_reset_state :
    State.reset.cc.i = true ∧ State.reset.pc = 0 ∧
    (State.boot (image [(0xFF, 0x20)]) 0xAA 0xBB 0xCC 0xDD 0x0F).pc = 0x20 ∧
    (State.boot (image [(0xFF, 0x20)]) 0xAA 0xBB 0xCC 0xDD 0x0F).cc.toByte = 0x1F := by decide

theorem test_withFetchWord :
    next (State.reset.withFetchWord 16 0x80F0) (fun t => t.a == 0x80 && t.cc.n && t.pc == 2) = true ∧
    next (State.reset.withFetchWord 8 0xDF) (fun t => t.sp == 0xFB && t.mem.read 0xFF == 0x01) = true := by
  decide

theorem test_stopped :
    (bd 0 0 0 0 0x18 0x10 [(0x18, 0x21), (0x19, 0xFE)]).stopped = true ∧
    (bd 0 0 0 0 0x18 0x10 [(0x18, 0x33), (0x19, 0x18)]).stopped = true ∧
    (bd 0 0 0 0 0x18 0x00 [(0x18, 0x21), (0x19, 0xFE)]).stopped = false := by decide

/-- Parameters with `LDA #$07` and then `BRA` to itself at $20. -/
def oneInstruction : Parameters where
  image := image [(0x20, 0xF0), (0x21, 0x07), (0x22, 0x21), (0x23, 0xFE), (0xFF, 0x20)]
  a := 0xAA
  x := 0xBB
  y := 0xCC
  sp := 0xDD
  flags := 0x0F
  inFB := []
  inFC := [0x5A]
  irq := [true]

/-- The run ends in one step under the suggested STOP, is over at once under the one that always holds, and goes on under
the one that never does. -/
theorem test_run_stop :
    (match run oneInstruction State.stopped 1 with
      | .ended 1 t => holds t 0x07 0xBB 0xCC 0xDD 0x22 0b10001 []
      | _ => false) = true ∧
    run oneInstruction (fun _ => true) 1 = .ended 0 oneInstruction.start ∧
    (match run oneInstruction (fun _ => false) 1 with
      | .going t => t.pc == 0x22 && t.portFC.input == [0x5A]
      | _ => false) = true := by decide

/-! ## The assembler (30_encoding.md R80 to R87, 95_test_vectors.md sections 2.4 and 3.2) -/

/-- Program P2. -/
def programP2 : List Item :=
  [.org (.const 0x10), .instr (some "start") "LDSP" (.data (.const 0xF0)), .instr none "LDA" (.data (.const 7)),
    .instr none "JSR" (.adr (.sym "mul5")), .instr none "STA" (.adr (.const 0x80)),
    .instr (some "stop") "BRA" (.adr (.sym "stop")), .instr (some "mul5") "PSHA" .none,
    .instr none "ASLA" .none, .instr none "LSLA" .none, .instr none "ADDA" (.nSP (.const 0)),
    .instr none "LEASP" (.nSP (.const 1)), .instr none "RTS" .none,
    .org (.const 0xFF), .fcb none [.sym "start"]]

theorem test_assemble_P2 :
    (match assemble programP2 with
      | .ok m => m == image ([0x92, 0xF0, 0xF0, 0x07, 0x34, 0x1A, 0xE1, 0x80, 0x21, 0xFE, 0x10, 0x0B, 0x0B, 0xB6, 0x00,
          0xBE, 0x01, 0x43].zipIdx.map (fun p => (BitVec.ofNat 8 (0x10 + p.2), p.1)) ++ [(0xFF, 0x10)])
      | .error _ => false) = true := by decide

theorem test_assemble_branch_back :
    (match instrBytes [] 0x2C "BNE" (.adr (.const 0x25)) with | .ok b => b == [0x25, 0xF7] | _ => false) = true := by
  decide

/-- The nine short spellings of D19, and BHS; a mnemonic in lower case is refused (log 11). -/
theorem test_other_spellings :
    (["TFR A,C", "TFR C,A", "TFR X,S", "TFR S,X", "TFR Y,S", "TFR S,Y", "EXG A,C", "EXG X,S", "EXG Y,S"].map
        fun mn => findOpcode mn .ih) =
      [0x18, 0x19, 0x1C, 0x1D, 0x1E, 0x1F, 0x9F, 0xBF, 0xCF].map some ∧
    findOpcode "BHS" .pc = some 0x29 ∧ findOpcode "lda" .im = none := by decide +kernel

/-- Of two bytes placed at one address the later stays (log 11). -/
theorem test_overlap :
    (match assemble [.org (.const 0x10), .fcb none [.const 1, .const 2], .org (.const 0x11), .fcb none [.const 3]] with
      | .ok m => m == image [(0x10, 1), (0x11, 3)]
      | .error _ => false) = true := by decide

theorem test_numbers :
    parseNumber "$FF".toList = some 255 ∧ parseNumber "%101".toList = some 5 ∧ parseNumber "42".toList = some 42 ∧
    parseNumber "2A".toList = none := by decide

/-- Why a program is refused. -/
def refusal (program : List Item) : Option AsmError :=
  match assemble program with
  | .ok _ => none
  | .error e => some e

theorem test_assembler_refuses :
    refusal [.instr none "LDA" (.adr (.sym "x"))] = some (.undefined "x") ∧
    refusal [.instr none "LDA" (.data (.const 256))] = some (.outOfRange 256) ∧
    refusal [.instr none "JMP" (.nSP (.const 0))] = some (.noSuchForm "JMP") ∧
    refusal [.org (.const 0xFB), .fcb none [.const 1]] = some (.noMemory 0xFB) := by decide

/-! ## Witnesses: the hypotheses of each statement are met together -/

theorem witness_DecodeOfEncode :
    (Instr.lda (.mem .preDecY)).wellFormed = true ∧ (Instr.jmp (.ab 0xFF)).wellFormed = true ∧
    (Instr.illegal 0xFF).wellFormed = true := by decide

theorem witness_EncodeOfDecode :
    decode [0xB6, 0xFF, 0x00] = .ok (.adda (.mem (.ns 0xFF)), [0x00]) ∧ decode [0x00] = .ok (.nop, []) ∧
    decode [0xFF] = .ok (.illegal 0xFF, []) := ⟨rfl, rfl, rfl⟩

theorem witness_IllegalOpcodesAreTheSix :
    decode [0xDF, 0x00] = .ok (.illegal 0xDF, [0x00]) ∧ decode [0xF0, 0xFF] = .ok (.lda (.im 0xFF), []) :=
  ⟨rfl, rfl⟩

/-- One byte at $FF; two bytes across the top of memory, with the request masked; and low, unmasked. -/
theorem witness_StepRunsDecodedInstruction :
    (∃ s : State, s.executes = true ∧ decode [s.look s.pc] = .ok (.inca, [])) ∧
    (∃ s : State, s.executes = true ∧ s.cc.i = true ∧
      decode [s.look s.pc, s.look (s.pc + 1)] = .ok (.lda (.im 0x5A), [])) ∧
    ∃ s : State, s.executes = true ∧ s.cc.i = false ∧ decode [s.look s.pc] = .ok (.illegal 0xEF, []) :=
  ⟨⟨bd 0 0 0 0 0xFF 0x10 [(0xFF, 0x07)], by decide, rfl⟩,
    ⟨bd 0 0 0 0 0xFF 0x10 [(0xFF, 0xF0), (0x00, 0x5A)], by decide, rfl, rfl⟩,
    ⟨bd 0 0 0 0 0x20 0x00 [(0x20, 0xEF)], by decide, rfl, rfl⟩⟩

theorem witness_SequentialInstructionsAdvance :
    (Instr.nop.wellFormed = true ∧ Instr.nop.isTransfer = false) ∧
    (Instr.leasp (.nx 0xFF)).wellFormed = true ∧ (Instr.leasp (.nx 0xFF)).isTransfer = false := by decide

/-- A store to memory, a store to a port, an interrupt entry, a Reset. -/
theorem witness_InvariantKeptByStep :
    (∃ s t : State, s.inv = true ∧ step s = .next t ∧ t.mem = image [(0x20, 0xE1), (0x21, 0x80), (0x80, 0x07)]) ∧
    (∃ s t : State, s.inv = true ∧ step s = .next t ∧ t.portFC.output = [0x07]) ∧
    (∃ s t : State, s.inv = true ∧ step s = .next t ∧ t.pc = 0x40) ∧
    ∃ s t : State, s.inv = true ∧ step s = .next t ∧ t.resets = 1 :=
  ⟨⟨bd 0x07 0 0 0 0x20 0 [(0x20, 0xE1), (0x21, 0x80)], _, by decide, rfl, by decide⟩,
    ⟨bd 0x07 0 0 0 0x20 0 [(0x20, 0xE1), (0x21, 0xFC)], _, by decide, rfl, by decide⟩,
    ⟨vectored 0 0 0 0xF0 0x20 0 [true] [], _, by decide, rfl, by decide⟩,
    ⟨{ bd 0 0 0 0 0x20 0 [] with resetIn := true }, _, by decide, rfl, rfl⟩⟩

/-- The addresses on both sides of the ports, and a port with input and without. -/
theorem witness_ReadComesFromMemoryOrPort :
    (portAt 0xFA = none ∧ portAt 0xFD = none ∧ portAt 0x00 = none ∧ portAt 0xFF = none) ∧
    ((0xFB : Byte) = Port.fb.address ∧ ((ports 0 0 0 []).port .fb).input = [0x80, 0x7F]) ∧
    ((0xFC : Byte) = Port.fc.address ∧ ((bd 0 0 0 0 0 0 []).port .fc).input = []) := by decide

theorem witness_WriteGoesToMemoryOrPort :
    (portAt 0xFA = none ∧ portAt 0xFD = none) ∧ portAt 0xFB ≠ none ∧ portAt 0xFC ≠ none := by decide

/-- The byte stored is the next opcode (STA), the operand byte after it (PSHA), at the top of memory (INC), and where a
JSR jumps to its own return address. -/
theorem witness_StoreIsSeenByNextFetch :
    (writtenByte (.sta (.ab 0x22)) (bd 0x07 0 0 0 0x20 0 []) = some (0x22, 0x07) ∧ portAt 0x22 = none ∧
      (Instr.sta (.ab 0x22)).wellFormed = true ∧ ∃ t, exec (.sta (.ab 0x22)) (bd 0x07 0 0 0 0x20 0 []) = .next t ∧
        0x22 = t.pc ∧ decode [(0x07 : Byte), t.look (t.pc + 1)] = .ok (.inca, [0x00])) ∧
    (writtenByte .psha (bd 0x07 0 0 0x23 0x20 0 [(0x21, 0xF0)]) = some (0x22, 0x07) ∧ Instr.psha.wellFormed = true ∧
      ∃ t, exec .psha (bd 0x07 0 0 0x23 0x20 0 [(0x21, 0xF0)]) = .next t ∧
        0x22 = t.pc + 1 ∧ decode [t.look t.pc, (0x07 : Byte)] = .ok (.lda (.im 0x07), [])) ∧
    (writtenByte (.inc .ax) (bd 0xFF 0 0 0 0xFE 0 []) = some (0xFF, 0x01) ∧ portAt 0xFF = none ∧
      (Instr.inc .ax).wellFormed = true ∧ ∃ t, exec (.inc .ax) (bd 0xFF 0 0 0 0xFE 0 []) = .next t ∧ 0xFF = t.pc) ∧
    writtenByte (.jsr (.ab 0xEF)) (bd 0 0 0 0xF0 0x20 0 []) = some (0xEF, 0x22) ∧
      ∃ t, exec (.jsr (.ab 0xEF)) (bd 0 0 0 0xF0 0x20 0 []) = .next t ∧ 0xEF = t.pc :=
  ⟨⟨rfl, rfl, rfl, _, rfl, rfl, rfl⟩, ⟨rfl, rfl, _, rfl, rfl, rfl⟩, ⟨rfl, rfl, rfl, _, rfl, rfl⟩, rfl, _, rfl, rfl⟩

/-- A constant and a symbol, at both ends of the addresses; the conditions are met as in
`witness_BranchesFollowTheirCondition`. -/
theorem witness_BranchReachesEveryAddress :
    Val.eval [] (.const 0xFF) = .ok (((0xFF : Byte).toNat : Nat) : Int) ∧
    Val.eval [("stop", 0)] (.sym "stop") = .ok (((0x00 : Byte).toNat : Nat) : Int) := by decide

/-- One control word for each of the address codes, and one that loads CC from the bus. -/
theorem witness_ControlSignalsGiveTheOperations :
    (ControlWord.mk 0 0b000000000000000).addressCode = 0b000 ∧
    (ControlWord.mk 0 0b001000000000000).addressCode = 0b001 ∧
    (ControlWord.mk 0 0b010000000000000).addressCode = 0b010 ∧
    (ControlWord.mk 0 0b011000000000000).addressCode = 0b011 ∧
    (ControlWord.mk 0 0b100000000000000).addressCode.getLsbD 2 = true ∧
    (ControlWord.mk 0 0b111000000000000).addressCode.getLsbD 2 = true ∧
    (ControlWord.mk 0 0b000010101010100).g.extractLsb' 2 10 = 0b0101010101 := by decide

/-- Each form that a statement's hypothesis admits. -/
theorem witness_forms :
    ([Operand.im 0xFF, .mem (.ab 0xFF), .mem (.ns 0xFF), .mem (.nx 0), .mem (.ny 0)].all Operand.isData) = true ∧
    ([MemForm.ab 0xFF, .ns 0xFF, .nx 0, .ny 0, .ax, .ay].all MemForm.isPlain) = true ∧
    ([MemForm.ab 0xFF, .nx 0xFF, .ny 0, .ax, .ay].all MemForm.isTarget) = true := by decide

theorem witness_LoadsTakeTheOperand : (Operand.mem (.ns 0x80)).isData = true := by decide
theorem witness_StoresWriteTheRegister : MemForm.ay.isPlain = true := by decide
theorem witness_CallsPushTheReturnAddress : MemForm.ax.isTarget = true := by decide
theorem witness_AddaAdcaAdd : (Operand.im 0x80).isData = true := by decide
theorem witness_SubaSbcaSubtract : (Operand.mem (.nx 0xFF)).isData = true := by decide
theorem witness_ClearWritesZero : MemForm.ax.isPlain = true := by decide
theorem witness_NegateAndComplement : (MemForm.ny 1).isPlain = true := by decide
theorem witness_IncrementAndDecrement : MemForm.ay.isPlain = true := by decide
theorem witness_TestsSetTheFlags : (Operand.mem (.ab 0x40)).isData = true ∧ (MemForm.nx 0).isPlain = true := by decide
theorem witness_LogicOnA : (Operand.mem (.ny 0)).isData = true := by decide
theorem witness_ShiftsOfMemory : (MemForm.ns 0).isPlain = true ∧
    (0x07 : Byte) = (bd 0 0 0 0 0 0 [(0x40, 0x07)]).look (formAddress (.ns 0x40) (bd 0 0 0 0 0 0 [(0x40, 0x07)])) := by
  decide

/-- The condition of the k-th branch of `branchConditions` under flags N, Z, V, C. -/
def condition (k : Nat) (n z v c : Bool) : Prop :=
  ((branchConditions 0xFE ⟨false, n, z, v, c⟩)[k]?.map (·.2)).getD False

/-- Every branch but BRA has flags under which its condition holds and flags under which it does not: BMI, BEQ, BVS, BCS,
BLS, BLE with all four flags set, and not with none set; BPL, BNE, BVC, BCC, BHI, BGT the other way round; BGE and BLT
with none set and with N alone. -/
theorem witness_BranchesFollowTheirCondition :
    (∀ k ∈ [0, 1, 3, 5, 7, 10, 12], condition k true true true true) ∧
    (∀ k ∈ [2, 4, 6, 8, 9, 11, 14], ¬condition k true true true true) ∧
    (∀ k ∈ [2, 4, 6, 8, 9, 11, 13], condition k false false false false) ∧
    (∀ k ∈ [1, 3, 5, 7, 10, 12, 14], ¬condition k false false false false) ∧
    condition 14 true false false false ∧ ¬condition 13 true false false false := by
  simp [condition, branchConditions]

/-- The second addition with and without a carry from the first. -/
theorem witness_TwoByteSumAndDifference :
    (∃ t, exec (.adda (.im 0x20)) (bd 0xF0 0 0 0 0x32 0 []) = .next t ∧
      (bd 0x12 0 0 0 0x38 0x01 []).cc.c = t.cc.c) ∧
    ∃ t, exec (.suba (.im 0x20)) (bd 0xF0 0 0 0 0x32 0 []) = .next t ∧
      (bd 0x12 0 0 0 0x38 0x00 []).cc.c = t.cc.c :=
  ⟨⟨_, rfl, rfl⟩, ⟨_, rfl, rfl⟩⟩

theorem witness_ComparesSetTheFlags :
    (Instr.cmpa (.im 0x80)).wellFormed = true ∧ (Instr.cmpx (.im 0x80)).wellFormed = true ∧
    (Instr.cmpy (.im 0x80)).wellFormed = true ∧ (Instr.cmpsp (.im 0x80)).wellFormed = true := by decide

theorem witness_CompareThenBranch :
    (Instr.cmpa (.mem (.nx 1))).wellFormed = true ∧ (Instr.cmpx (.mem (.ns 0))).wellFormed = true ∧
    (Instr.cmpy (.mem (.ab 0xFF))).wellFormed = true ∧ (Instr.cmpsp (.mem (.ab 0xFB))).wellFormed = true := by decide

/-- A stack that wraps; one whose next byte lies just under the ports, and just above. -/
theorem witness_StackGivesBackWhatItTook :
    portAt ((bd 0 0 0 0x00 0 0 []).sp - 1) = none ∧ portAt ((bd 0 0 0 0xFB 0 0 []).sp - 1) = none ∧
    portAt ((bd 0 0 0 0xFE 0 0 []).sp - 1) = none ∧ MemForm.ay.isTarget = true := by decide

theorem witness_AcceptedIrqIsTaken :
    (vectored 1 2 3 0xF0 0x20 0x0A [true] []).resetIn = false ∧
    (vectored 1 2 3 0xF0 0x20 0x0A [true] []).cc.i = false ∧
    (vectored 1 2 3 0xF0 0x20 0x0A [true] []).irqSample = true := by decide

theorem witness_IrqGoesBeforeTrap :
    ∀ flags ∈ [(0x00 : Byte), 0x10], ∀ op ∈ [(0x03 : Byte), 0x04, 0xDF, 0xE0, 0xEF, 0xFF],
      (vectored 1 2 3 0xF0 0x20 flags [true] [(0x20, op)]).resetIn = false ∧
      (vectored 1 2 3 0xF0 0x20 flags [true] [(0x20, op)]).irqSample = true ∧
      portAt (vectored 1 2 3 0xF0 0x20 flags [true] [(0x20, op)]).pc = none ∧
      (vectored 1 2 3 0xF0 0x20 flags [true] [(0x20, op)]).mem.read 0x20 = op := by decide

theorem witness_HandlerStartsBeforeNextIrq :
    (∃ s t : State, s.resetIn = false ∧ s.irqAccepted = true ∧ step s = .next t) ∧
    ∃ s t : State, s.resetIn = false ∧ exec (.illegal 0xDF) s = .next t :=
  ⟨⟨vectored 1 2 3 0xF0 0x20 0x0A [true, true] [], _, rfl, by decide, rfl⟩,
    ⟨vectored 1 2 3 0xF0 0x20 0x0A [true, true] [], _, rfl, rfl⟩⟩

theorem witness_MaskedRequestIsIgnored :
    ∃ s t : State, s.resetIn = false ∧ s.cc.i = true ∧ step s = .next t :=
  ⟨vectored 1 2 3 0xF0 0x20 0x10 [true, true] [(0x20, 0x07)], _, rfl, rfl, rfl⟩

theorem witness_RtiUndoesEntry :
    (frameInMemory (vectored 1 2 3 0xF0 0x20 0x0A [true] []) = true ∧
      (vectored 1 2 3 0xF0 0x20 0x0A [true] []).resetIn = false ∧
      (vectored 1 2 3 0xF0 0x20 0x0A [true] []).irqAccepted = true) ∧
    frameInMemory (vectored 1 2 3 0x02 0x20 0x0A [true] []) = true ∧
    frameInMemory (vectored 1 2 3 0xFB 0x20 0x0A [true] []) = true := by decide

theorem witness_ResetTakenAtBoundary : ({ bd 1 2 3 4 5 0 [] with resetIn := true } : State).resetIn = true := rfl

theorem witness_MaskChangesOnlyByItsWriters :
    (∃ s t : State, exec .inca s = .next t ∧ Instr.inca.loadsMask = false ∧ ∀ op, Instr.inca ≠ .illegal op) ∧
    ∃ s t : State, exec (.andcc 0xEF) s = .next t ∧ s.cc.i = true ∧ t.cc.i = false :=
  ⟨⟨bd 0 0 0 0 0 0 [], _, rfl, rfl, fun _ h => Instr.noConfusion h⟩, ⟨bd 0 0 0 0 0 0x10 [], _, rfl, rfl, rfl⟩⟩

theorem witness_RegistersChangeOnlyByTheirWriters :
    ∃ s t : State, Instr.nop.wellFormed = true ∧ exec .nop s = .next t ∧ Instr.nop.writesA = false ∧
      Instr.nop.writesX = false ∧ Instr.nop.writesY = false ∧ Instr.nop.writesSP = false :=
  ⟨bd 1 2 3 4 5 0 [], _, rfl, rfl, rfl, rfl, rfl, rfl⟩

theorem witness_MemoryChangesOnlyByStores :
    ∃ s t : State, exec (.lda (.mem (.ab 0xFC))) s = .next t ∧ (Instr.lda (.mem (.ab 0xFC))).stores = false :=
  ⟨ports 0 0 0 [], _, rfl, rfl⟩

theorem witness_AssembledInstructionDecodes :
    instrBytes [] 0 "EXG X,S" .none = .ok [0xBF] ∧
    instrBytes [("tab", 0x40)] 0x20 "LDX" (.data (.sym "tab")) = .ok [0x90, 0x40] ∧
    instrBytes [] 0xFF "BHS" (.adr (.const 0)) = .ok [0x29, 0xFF] ∧
    instrBytes [] 0 "JMP" (.adr (.const 0xFF)) = .ok [0x33, 0xFF] ∧
    instrBytes [] 0 "ADDA" (.nSP (.const (-128))) = .ok [0xB6, 0x80] ∧
    instrBytes [] 0 "LDA" (.nX (.const (-1))) = .ok [0xF3, 0xFF] ∧
    instrBytes [] 0 "LDA" (.nY (.const 255)) = .ok [0xF9, 0xFF] ∧
    instrBytes [] 0 "STA" (.byMode .preDecY) = .ok [0xEE] := by decide +kernel

end Sys2Proof.Tests
end

section
/-! A run (00_scope.md R3): where it starts and where it ends. -/

namespace Sys2Proof.Machine

/-! ## The start (70_reset_and_hazards.md R300, R301) -/

/-- The Reset vector is a byte of memory, so no port takes part in the Reset event (20_memory.md R40). -/
theorem portAt_resetVector : portAt resetVector = none := by decide

theorem State.resetEvent_eq (s : State) :
    s.resetEvent = { s with cc := { s.cc with i := true }, pc := s.mem.read resetVector } := by
  simp only [State.resetEvent, State.readByte, State.touch_eq_self portAt_resetVector,
    State.look_eq_read portAt_resetVector]

theorem State.boot_eq (image : Memory) (a x y sp flags : Byte) :
    State.boot image a x y sp flags = { State.reset with
      a := a
      x := x
      y := y
      sp := sp
      pc := image.read resetVector
      cc := { CC.ofByte flags with i := true }
      mem := image } :=
  State.resetEvent_eq _

theorem Parameters.start_eq (p : Parameters) :
    p.start = { State.boot p.image p.a p.x p.y p.sp p.flags with
      portFB := { input := p.inFB, reads := 0, output := [] }
      portFC := { input := p.inFC, reads := 0, output := [] }
      irqIn := p.irq } := rfl

/-! ## Every step answers a next state (60_exceptions.md R270) -/

/-- No arm of `exec` answers a fault or a refusal, whatever the instruction's operand form. -/
theorem exec_completes (i : Instr) (s : State) : ∃ t, exec i s = .next t := by
  cases i <;> exact ⟨_, rfl⟩

theorem step_completes (s : State) : ∃ t, step s = .next t := by
  by_cases hr : s.resetIn = true
  · exact ⟨_, step_of_reset hr⟩
  · simp only [Bool.not_eq_true] at hr
    by_cases hi : s.irqAccepted = true
    · exact ⟨_, step_of_irq hr hi⟩
    · have hx : s.executes = true := by simp [State.executes, hr, hi]
      rw [step_of_executes hx]
      exact exec_completes _ _

/-! ## Where a run ends (92_eei_decisions.md D15) -/

/-- `STOP` holds at none of the first `k` boundaries from `s` on, `s` itself being the first. -/
def QuietBefore (stop : State → Bool) (k : Nat) (s : State) : Prop :=
  ∀ (j : Nat) (u : State), j < k → stepTimes j s = .next u → stop u = false

@[simp] theorem quietBefore_zero (stop : State → Bool) (s : State) : QuietBefore stop 0 s :=
  fun _ _ hj => absurd hj (Nat.not_lt_zero _)

theorem quietBefore_succ {stop : State → Bool} {s t : State} (hs : step s = .next t) (k : Nat) :
    QuietBefore stop (k + 1) s ↔ stop s = false ∧ QuietBefore stop k t := by
  constructor
  · intro h
    refine ⟨h 0 s k.succ_pos rfl, fun j u hj hu => ?_⟩
    exact h (j + 1) u (Nat.succ_lt_succ hj) ((stepTimes_succ hs j).trans hu)
  · rintro ⟨hstop, h⟩ j u hj hu
    cases j with
    | zero => cases hu; exact hstop
    | succ j => exact h j u (Nat.lt_of_succ_lt_succ hj) ((stepTimes_succ hs j).symm.trans hu)

/-- Where `STOP` holds already, no later boundary is the first at which it does. -/
theorem QuietBefore.eq_zero_of_stop {stop : State → Bool} {s : State} {k : Nat} (h : QuietBefore stop k s)
    (hstop : stop s = true) : k = 0 := by
  rcases k.eq_zero_or_pos with hk | hk
  · exact hk
  · exact absurd (h 0 s hk rfl) (by simp [hstop])

theorem stepTimes_zero_eq_next {s t : State} : stepTimes 0 s = .next t ↔ s = t := by
  simp [stepTimes]

/-- `STOP` holds after `k` steps from `s`, in `t`, for the first time: there the run ends (D15). -/
def EndsAfter (stop : State → Bool) (k : Nat) (s t : State) : Prop :=
  stepTimes k s = .next t ∧ stop t = true ∧ QuietBefore stop k s

theorem endsAfter_of_stop {stop : State → Bool} {s t : State} {k : Nat} (hstop : stop s = true) :
    EndsAfter stop k s t ↔ k = 0 ∧ s = t := by
  constructor
  · rintro ⟨hk, -, hquiet⟩
    obtain rfl := hquiet.eq_zero_of_stop hstop
    exact ⟨rfl, stepTimes_zero_eq_next.1 hk⟩
  · rintro ⟨rfl, rfl⟩
    exact ⟨rfl, hstop, quietBefore_zero stop s⟩

theorem not_endsAfter_zero {stop : State → Bool} {s t : State} (hstop : stop s = false) :
    ¬ EndsAfter stop 0 s t := by
  rintro ⟨hk, ht, -⟩
  obtain rfl := stepTimes_zero_eq_next.1 hk
  simp [hstop] at ht

theorem endsAfter_succ {stop : State → Bool} {s s' t : State} {k : Nat} (hstop : stop s = false)
    (hs : step s = .next s') : EndsAfter stop (k + 1) s t ↔ EndsAfter stop k s' t := by
  simp only [EndsAfter, stepTimes_succ hs, quietBefore_succ hs, hstop, true_and]

theorem runUntil_eq_ended_iff_of_stop {stop : State → Bool} {n k : Nat} {s t : State} (hstop : stop s = true) :
    runUntil stop n s = .ended k t ↔ k ≤ n ∧ EndsAfter stop k s t := by
  rw [runUntil_of_stop hstop, endsAfter_of_stop hstop, Progress.ended.injEq]
  constructor
  · rintro ⟨rfl, rfl⟩
    exact ⟨n.zero_le, rfl, rfl⟩
  · rintro ⟨-, rfl, rfl⟩
    exact ⟨rfl, rfl⟩

theorem runUntil_eq_ended_iff {stop : State → Bool} {n k : Nat} {s t : State} :
    runUntil stop n s = .ended k t ↔ k ≤ n ∧ EndsAfter stop k s t := by
  induction n generalizing k s with
  | zero =>
    cases hstop : stop s with
    | true => exact runUntil_eq_ended_iff_of_stop hstop
    | false =>
      rw [runUntil_zero hstop]
      cases k with
      | zero => simp [not_endsAfter_zero hstop]
      | succ k => simp
  | succ n ih =>
    cases hstop : stop s with
    | true => exact runUntil_eq_ended_iff_of_stop hstop
    | false =>
      obtain ⟨s', hs⟩ := step_completes s
      rw [runUntil_succ hstop hs, Progress.afterStep_eq_ended]
      cases k with
      | zero => simp [not_endsAfter_zero hstop]
      | succ k => simp [endsAfter_succ hstop hs, ih]

theorem runUntil_eq_going_iff {stop : State → Bool} {n : Nat} {s t : State} :
    runUntil stop n s = .going t ↔ stepTimes n s = .next t ∧ QuietBefore stop (n + 1) s := by
  induction n generalizing s with
  | zero =>
    obtain ⟨s', hs⟩ := step_completes s
    rw [stepTimes_zero_eq_next, quietBefore_succ hs]
    cases hstop : stop s with
    | true => simp [runUntil_of_stop hstop]
    | false => simp [runUntil_zero hstop]
  | succ n ih =>
    obtain ⟨s', hs⟩ := step_completes s
    rw [stepTimes_succ hs, quietBefore_succ hs]
    cases hstop : stop s with
    | true => simp [runUntil_of_stop hstop]
    | false => simp [runUntil_succ hstop hs, ih]

/-- As every step answers a next state, a watched run has ended or is still going. -/
theorem runUntil_ended_or_going (stop : State → Bool) (n : Nat) (s : State) :
    ∃ t, (∃ k, runUntil stop n s = .ended k t) ∨ runUntil stop n s = .going t := by
  induction n generalizing s with
  | zero =>
    cases hstop : stop s with
    | true => exact ⟨s, .inl ⟨0, runUntil_of_stop hstop 0⟩⟩
    | false => exact ⟨s, .inr (runUntil_zero hstop)⟩
  | succ n ih =>
    cases hstop : stop s with
    | true => exact ⟨s, .inl ⟨0, runUntil_of_stop hstop _⟩⟩
    | false =>
      obtain ⟨s', hs⟩ := step_completes s
      rw [runUntil_succ hstop hs]
      obtain ⟨t, ⟨k, hk⟩ | hgoing⟩ := ih s'
      · exact ⟨t, .inl ⟨k + 1, Progress.afterStep_eq_ended.2 ⟨k, rfl, hk⟩⟩⟩
      · exact ⟨t, .inr (Progress.afterStep_eq_going.2 hgoing)⟩

/-- Settles O54: the start by the Reset event's equation, the end by induction on the steps watched. -/
theorem runStartsFromParameters : Obligations.RunStartsFromParameters := by
  unfold Obligations.RunStartsFromParameters
  refine ⟨State.boot_eq, Parameters.start_eq, fun p stop n => ⟨fun k t => ?_, fun t => ?_, ?_⟩⟩
  · exact runUntil_eq_ended_iff
  · simp only [run, runUntil_eq_going_iff, QuietBefore, Nat.lt_succ_iff]
  · exact runUntil_ended_or_going stop n p.start

end Sys2Proof.Machine
end

section
/-! What every step keeps of memory, and which instruction may change memory and I (10_state.md R25, R37). -/

namespace Sys2Proof.Machine

/-- What holds of one next state of an instruction holds of its next state: there is only one. -/
theorem of_exec_eq_next {motive : State → Prop} {i : Instr} {s t : State} (h : exec i s = .next t)
    (hnext : ∃ u, exec i s = .next u ∧ motive u) : motive t := by
  obtain ⟨u, hu, hmotive⟩ := hnext
  obtain rfl : u = t := Host.Outcome.next.inj (hu.symm.trans h)
  exact hmotive

/-! A branch changes PC only (42_flow_control.md R145). -/

@[simp] theorem branchIf_a (cond : Bool) (off : Byte) (s : State) : (branchIf cond off s).a = s.a := by
  rw [branchIf_eq]
@[simp] theorem branchIf_x (cond : Bool) (off : Byte) (s : State) : (branchIf cond off s).x = s.x := by
  rw [branchIf_eq]
@[simp] theorem branchIf_y (cond : Bool) (off : Byte) (s : State) : (branchIf cond off s).y = s.y := by
  rw [branchIf_eq]
@[simp] theorem branchIf_sp (cond : Bool) (off : Byte) (s : State) : (branchIf cond off s).sp = s.sp := by
  rw [branchIf_eq]
@[simp] theorem branchIf_cc (cond : Bool) (off : Byte) (s : State) : (branchIf cond off s).cc = s.cc := by
  rw [branchIf_eq]
@[simp] theorem branchIf_mem (cond : Bool) (off : Byte) (s : State) : (branchIf cond off s).mem = s.mem := by
  rw [branchIf_eq]

/-! ## Memory stays canonical (10_state.md R37, 20_memory.md R46, R49) -/

@[simp] theorem State.leave_mem (s : State) : s.leave.mem = s.mem := by
  obtain ⟨-, -, -, -, -, -, hmem, -⟩ := s.leave_spec
  exact hmem

/-- An instruction that makes no write leaves memory as it was, cell for cell. -/
theorem exec_mem_of_not_stores {i : Instr} {s t : State} (h : exec i s = .next t) (hi : i.stores = false) :
    t.mem = s.mem := by
  refine of_exec_eq_next (motive := fun t => t.mem = s.mem) h ?_
  cases i with
  | sta | stx | sty | stsp | clr | neg | inc | dec | com | lsl | lsr | asr | rol | ror => cases hi
  | psha | pshc | pshx | pshy | bsr | jsr | illegal => cases hi
  | _ => exact ⟨_, rfl, by simp⟩

/-- A write goes through one of the shared operations that keep memory canonical: a store, a read-modify-write, a push,
a call or an entry. -/
theorem exec_inv_of_stores {i : Instr} {s t : State} (h : exec i s = .next t) (hi : i.stores = true)
    (hs : s.inv = true) : t.inv = true := by
  refine of_exec_eq_next (motive := fun t => t.inv = true) h ?_
  cases i with
  | sta | stx | sty | stsp | clr => exact ⟨_, rfl, writeForm_inv _ hs⟩
  | neg | inc | dec | com | lsl | lsr | asr | rol | ror => exact ⟨_, rfl, modifyMem_inv hs⟩
  | psha | pshc | pshx | pshy => exact ⟨_, rfl, State.push_inv _ hs⟩
  | jsr | bsr => exact ⟨_, rfl, callTo_inv _ _ hs⟩
  | illegal => exact ⟨_, rfl, State.enter_inv _ hs⟩
  | _ => cases hi

theorem exec_inv {i : Instr} {s t : State} (h : exec i s = .next t) (hs : s.inv = true) : t.inv = true := by
  cases hi : i.stores with
  | false => exact (State.inv_congr (exec_mem_of_not_stores h hi)).trans hs
  | true => exact exec_inv_of_stores h hi hs

@[simp] theorem State.resetEntry_inv (s : State) : s.resetEntry.inv = s.inv :=
  State.resetEvent_inv _

/-- Settles O8: by the three cases of a boundary, and for an executed instruction by whether it writes. -/
theorem invariantKeptByStep : Obligations.InvariantKeptByStep := by
  unfold Obligations.InvariantKeptByStep
  intro s t hs h
  obtain ⟨-, rfl⟩ | ⟨-, -, rfl⟩ | ⟨-, hexec⟩ := step_cases h
  · rwa [State.resetEntry_inv, State.passBoundary_inv]
  · exact State.enter_inv _ (s.passBoundary_inv.trans hs)
  · exact exec_inv hexec (by rwa [State.countCycles_inv, State.fetch_inv, State.passBoundary_inv])

/-! ## The interrupt mask (10_state.md R25) -/

@[simp] theorem State.trapEntry_i (s : State) : s.trapEntry.cc.i = true := by
  simp [State.trapEntry, State.enter, State.readByte]

/-- Outside the byte writers of CC and the Trap, each instruction writes at most N, Z, V and C. -/
theorem exec_i_of_not_loadsMask {i : Instr} {s t : State} (h : exec i s = .next t) (hi : i.loadsMask = false)
    (hop : ∀ op, i ≠ .illegal op) : t.cc.i = s.cc.i := by
  refine of_exec_eq_next (motive := fun t => t.cc.i = s.cc.i) h ?_
  cases i with
  | andcc | orcc | tfrACC | exgACC | pulc | rti => cases hi
  | illegal op => exact absurd rfl (hop op)
  | _ => exact ⟨_, rfl, by simp⟩

theorem exec_illegal_i {op : Byte} {s t : State} (h : exec (.illegal op) s = .next t) : t.cc.i = true :=
  of_exec_eq_next (motive := fun t => t.cc.i = true) h ⟨_, exec_illegal op s, s.trapEntry_i⟩

theorem exec_orcc_i {d : Byte} {s t : State} (h : exec (.orcc d) s = .next t) :
    t.cc.i = (s.cc.i || d.getLsbD 4) :=
  of_exec_eq_next (motive := fun t => t.cc.i = (s.cc.i || d.getLsbD 4)) h ⟨_, exec_orcc d s, rfl⟩

/-- Settles O55: the first clause instruction by instruction. By it, what clears I writes CC as a byte or is a Trap; and
the Trap and ORCC only set I. -/
theorem maskChangesOnlyByItsWriters : Obligations.MaskChangesOnlyByItsWriters := by
  unfold Obligations.MaskChangesOnlyByItsWriters
  intro i s t h
  refine ⟨exec_i_of_not_loadsMask h, fun hset hclear => ⟨?_, ?_⟩⟩
  · by_contra hi
    have hop : ∀ op, i ≠ .illegal op := by
      rintro op rfl
      simp [exec_illegal_i h] at hclear
    have hkept := exec_i_of_not_loadsMask h (Bool.eq_false_of_not_eq_true hi) hop
    simp [hkept, hset] at hclear
  · rintro d rfl
    simp [exec_orcc_i h, hset] at hclear

end Sys2Proof.Machine
end

section
/-! Which instruction may change A, X, Y, SP and PC (10_state.md R21, R34). -/

namespace Sys2Proof.Machine

/-! ## The registers (10_state.md R21) -/

/-- The Trap vector is a byte of memory (20_memory.md R40). -/
theorem portAt_trapVector : portAt trapVector = none := by decide

/-- The Trap pushes the address after the opcode and enters through its vector (60_exceptions.md R273). -/
theorem State.trapEntry_spec (s : State) :
    EntersThrough trapVector (s.pc + 1) s s.trapEntry ∧ SameInputs s s.trapEntry := by
  obtain ⟨henters, hinputs⟩ := (s.advance 1).enter_spec portAt_trapVector
  exact ⟨henters.of_eq rfl rfl rfl rfl rfl rfl (s.advance_port 1), hinputs⟩

@[simp] theorem State.trapEntry_a (s : State) : s.trapEntry.a = s.a := by
  obtain ⟨⟨-, ha, -⟩, -⟩ := s.trapEntry_spec
  exact ha

@[simp] theorem State.trapEntry_x (s : State) : s.trapEntry.x = s.x := by
  obtain ⟨⟨-, -, hx, -⟩, -⟩ := s.trapEntry_spec
  exact hx

@[simp] theorem State.trapEntry_y (s : State) : s.trapEntry.y = s.y := by
  obtain ⟨⟨-, -, -, hy, -⟩, -⟩ := s.trapEntry_spec
  exact hy

theorem formX_of_not_isAutoX {m : MemForm} (h : m.isAutoX = false) (x : Byte) : formX m x = x := by
  cases m <;> simp_all [MemForm.isAutoX, formX]

theorem formY_of_not_isAutoY {m : MemForm} (h : m.isAutoY = false) (y : Byte) : formY m y = y := by
  cases m <;> simp_all [MemForm.isAutoY, formY]

/-- Outside the table's writers of A, each instruction is made of operations that leave A alone. -/
theorem exec_a_of_not_writesA {i : Instr} {s t : State} (h : exec i s = .next t) (hi : i.writesA = false) :
    t.a = s.a := by
  refine of_exec_eq_next (motive := fun t => t.a = s.a) h ?_
  cases i with
  | lda | pula | rti | tfrCCA | exgACC | clra | nega | inca | deca | coma => cases hi
  | lsla | lsra | asra | rola | rora => cases hi
  | adda | adca | suba | sbca | anda | ora | eora => cases hi
  | _ => exact ⟨_, rfl, by simp⟩

/-- Outside the table's writers of SP, each instruction is made of operations that leave SP alone. -/
theorem exec_sp_of_not_writesSP {i : Instr} {s t : State} (h : exec i s = .next t) (hi : i.writesSP = false) :
    t.sp = s.sp := by
  refine of_exec_eq_next (motive := fun t => t.sp = s.sp) h ?_
  cases i with
  | ldsp | leasp | tfrXSP | tfrYSP | exgXSP | exgYSP => cases hi
  | psha | pshc | pshx | pshy | pula | pulc | pulx | puly => cases hi
  | bsr | jsr | rts | rti | illegal => cases hi
  | _ => exact ⟨_, rfl, by simp⟩

/-- Beside the instructions that name X or Y as their destination, only an auto-modify form changes one of them, and of
the well-formed instructions only LDA and STA have such a form (30_encoding.md R77 to R79). -/
theorem exec_index_of_not_writes {i : Instr} {s t : State} (h : exec i s = .next t) (hw : i.wellFormed = true) :
    (i.writesX = false → t.x = s.x) ∧ (i.writesY = false → t.y = s.y) := by
  refine of_exec_eq_next
    (motive := fun t => (i.writesX = false → t.x = s.x) ∧ (i.writesY = false → t.y = s.y)) h ?_
  cases i with
  | rti | exgXY => exact ⟨_, rfl, nofun, nofun⟩
  | ldx => exact ⟨_, rfl, nofun, fun _ => readOperand_y_of_data hw s⟩
  | ldy => exact ⟨_, rfl, fun _ => readOperand_x_of_data hw s, nofun⟩
  | ldsp => exact ⟨_, rfl, fun _ => readOperand_x_of_data hw s, fun _ => readOperand_y_of_data hw s⟩
  | leax | pulx | tfrYX | tfrSPX | exgXSP => exact ⟨_, rfl, nofun, fun _ => by simp⟩
  | leay | puly | tfrXY | tfrSPY | exgYSP => exact ⟨_, rfl, fun _ => by simp, nofun⟩
  | lda o =>
    cases o with
    | im d => exact ⟨_, rfl, fun _ => rfl, fun _ => rfl⟩
    | mem m =>
      exact ⟨_, rfl, fun hx => (readForm_x m s).trans (formX_of_not_isAutoX hx _),
        fun hy => (readForm_y m s).trans (formY_of_not_isAutoY hy _)⟩
  | sta m =>
    exact ⟨_, rfl, fun hx => (writeForm_x m s.a s).trans (formX_of_not_isAutoX hx _),
      fun hy => (writeForm_y m s.a s).trans (formY_of_not_isAutoY hy _)⟩
  | adda | adca | suba | sbca | anda | ora | eora | cmpa | bita =>
    exact ⟨_, rfl, by simp [operandX_of_data hw, operandY_of_data hw]⟩
  | cmpx | cmpy =>
    have hd := Operand.isData_of_isCmpXY hw
    exact ⟨_, rfl, by simp [operandX_of_data hd, operandY_of_data hd]⟩
  | cmpsp =>
    have hd := Operand.isData_of_isCmpSP hw
    exact ⟨_, rfl, by simp [operandX_of_data hd, operandY_of_data hd]⟩
  | stx | sty | stsp | clr | tst | neg | inc | dec | com | lsl | lsr | asr | rol | ror =>
    exact ⟨_, rfl, by simp [formX_of_plain hw, formY_of_plain hw]⟩
  | _ => exact ⟨_, rfl, by simp⟩

/-- Settles O56, register by register. -/
theorem registersChangeOnlyByTheirWriters : Obligations.RegistersChangeOnlyByTheirWriters := by
  unfold Obligations.RegistersChangeOnlyByTheirWriters
  intro i s t hw h
  obtain ⟨hx, hy⟩ := exec_index_of_not_writes h hw
  exact ⟨exec_a_of_not_writesA h, hx, hy, exec_sp_of_not_writesSP h⟩

/-! ## The program counter (10_state.md R34, 30_encoding.md R61, R62, R79)

The length an operand form adds up to is that of the bytes the encoder gives it, where the form exists. -/

theorem length_encodeFull (ab ns nx ax xi xd ix dx ny ay yi yd iy dy : Byte) (m : MemForm) :
    BitVec.ofNat 8 (encodeFull ab ns nx ax xi xd ix dx ny ay yi yd iy dy m).length = formLength m := by
  cases m <;> rfl

theorem length_encodePlain (ab ns nx ax ny ay : Byte) {m : MemForm} (h : m.isPlain = true) :
    BitVec.ofNat 8 (encodePlain ab ns nx ax ny ay m).length = formLength m := by
  cases m <;> simp_all [encodePlain, formLength, MemForm.isPlain]

theorem length_encodeLda (o : Operand) : BitVec.ofNat 8 (encodeLda o).length = operandLength o := by
  cases o with
  | im d => rfl
  | mem m => exact length_encodeFull _ _ _ _ _ _ _ _ _ _ _ _ _ _ m

theorem length_encodeData (im ab ns nx ny : Byte) {o : Operand} (h : o.isData = true) :
    BitVec.ofNat 8 (encodeData im ab ns nx ny o).length = operandLength o := by
  cases o with
  | im d => rfl
  | mem m => cases m <;> simp_all [encodeData, operandLength, formLength, Operand.isData]

theorem length_encodeCmpXY (im ab ns : Byte) {o : Operand} (h : o.isCmpXY = true) :
    BitVec.ofNat 8 (encodeCmpXY im ab ns o).length = operandLength o := by
  cases o with
  | im d => rfl
  | mem m => cases m <;> simp_all [encodeCmpXY, operandLength, formLength, Operand.isCmpXY]

theorem length_encodeCmpSP {o : Operand} (h : o.isCmpSP = true) :
    BitVec.ofNat 8 (encodeCmpSP o).length = operandLength o := by
  cases o with
  | im d => rfl
  | mem m => cases m <;> simp_all [encodeCmpSP, operandLength, formLength, Operand.isCmpSP]

theorem length_encodeLeax {m : MemForm} (h : m.isLeax = true) :
    BitVec.ofNat 8 (encodeLeax m).length = formLength m := by
  cases m <;> simp_all [encodeLeax, formLength, MemForm.isLeax]

theorem length_encodeLeay {m : MemForm} (h : m.isLeay = true) :
    BitVec.ofNat 8 (encodeLeay m).length = formLength m := by
  cases m <;> simp_all [encodeLeay, formLength, MemForm.isLeay]

theorem length_encodeLeasp {m : MemForm} (h : m.isLeasp = true) :
    BitVec.ofNat 8 (encodeLeasp m).length = formLength m := by
  cases m <;> simp_all [encodeLeasp, formLength, MemForm.isLeasp]

/-- An instruction whose meaning adds its length to PC, the length being that of its encoding. -/
theorem exec_advances {i : Instr} {s t : State} (len : Byte) (h : exec i s = .next t) (hpc : t.pc = s.pc + len)
    (hlen : BitVec.ofNat 8 (encode i).length = len) :
    ∃ t, exec i s = .next t ∧ t.pc = s.pc + BitVec.ofNat 8 (encode i).length :=
  ⟨t, h, hlen.symm ▸ hpc⟩

/-- Settles O7: the meaning of each instruction that is no control transfer adds the length of its form to PC. -/
theorem sequentialInstructionsAdvance : Obligations.SequentialInstructionsAdvance := by
  unfold Obligations.SequentialInstructionsAdvance
  intro i s hw hi
  cases i with
  | jmp | jsr | bra | bsr | bmi | bpl | beq | bne | bvs | bvc | bcs | bcc => cases hi
  | bhi | bls | bgt | bge | ble | blt | rts | rti | illegal => cases hi
  | lda o => exact exec_advances _ rfl (by simp) (length_encodeLda o)
  | ldx | ldy | ldsp => exact exec_advances _ rfl (by simp) (length_encodeData _ _ _ _ _ hw)
  | adda | adca | suba | sbca | anda | ora | eora | cmpa | bita =>
    exact exec_advances _ rfl (by simp) (length_encodeData _ _ _ _ _ hw)
  | cmpx | cmpy => exact exec_advances _ rfl (flagsOnly_pc ..) (length_encodeCmpXY _ _ _ hw)
  | cmpsp => exact exec_advances _ rfl (flagsOnly_pc ..) (length_encodeCmpSP hw)
  | leax => exact exec_advances _ rfl rfl (length_encodeLeax hw)
  | leay => exact exec_advances _ rfl rfl (length_encodeLeay hw)
  | leasp => exact exec_advances _ rfl rfl (length_encodeLeasp hw)
  | sta m => exact exec_advances _ rfl (by simp) (length_encodeFull _ _ _ _ _ _ _ _ _ _ _ _ _ _ m)
  | stx | sty | stsp | clr | tst => exact exec_advances _ rfl (by simp) (length_encodePlain _ _ _ _ _ _ hw)
  | neg | inc | dec | com | lsl | lsr | asr | rol | ror =>
    exact exec_advances _ rfl (modifyMem_pc ..) (length_encodePlain _ _ _ _ _ _ hw)
  | andcc | orcc => exact exec_advances 2 rfl rfl rfl
  | _ => exact exec_advances 1 rfl (by simp) rfl

end Sys2Proof.Machine
end

section
/-! The flag functions (10_state.md R26 to R32) as arithmetic: results modulo 256, V as signed and C as unsigned
overflow, and the shifts as bit-vector shifts. -/

namespace Sys2Proof.Machine

/-! ## A byte's bit 7 and its signed value, as arithmetic (10_state.md R26, R27) -/

theorem getLsbD_seven (b : Byte) : b.getLsbD 7 = decide (128 ≤ b.toNat) :=
  BitVec.msb_eq_decide b

theorem toInt_eq_ite (b : Byte) : b.toInt = if 128 ≤ b.toNat then (b.toNat : Int) - 256 else b.toNat := by
  rw [BitVec.toInt_eq_toNat_cond]
  split <;> split <;> omega

theorem signedOverflow_eq_true_iff (n : Int) : signedOverflow n = true ↔ n < -128 ∨ 127 < n :=
  decide_eq_true_iff

/-! ## Addition (R27) -/

theorem add8_toNat (a m : Byte) (cin : Bool) :
    (add8 a m cin).r.toNat = (a.toNat + m.toNat + cin.toNat) % 256 :=
  BitVec.toNat_ofNat ..

theorem add8_c (a m : Byte) (cin : Bool) :
    (add8 a m cin).c = decide (256 ≤ a.toNat + m.toNat + cin.toNat) := rfl

theorem add8_v_iff (a m : Byte) (cin : Bool) :
    (add8 a m cin).v = true ↔ a.getLsbD 7 = m.getLsbD 7 ∧ (add8 a m cin).r.getLsbD 7 ≠ a.getLsbD 7 := by
  simp [add8]

/-- The sign of a sum is wrong exactly when the sum does not fit in a signed byte. -/
theorem add8_v (a m : Byte) (cin : Bool) :
    (add8 a m cin).v = signedOverflow (a.toInt + m.toInt + cin.toNat) := by
  have hcin := cin.toNat_lt
  rw [Bool.eq_iff_iff, add8_v_iff, signedOverflow_eq_true_iff]
  simp only [toInt_eq_ite, getLsbD_seven, add8_toNat, ne_eq, decide_eq_decide]
  omega

/-- Settles O14: only the agreement of the two forms of V is more than the definition of the sum. -/
theorem additionFunction : Obligations.AdditionFunction := by
  unfold Obligations.AdditionFunction
  intro a m cin f
  exact ⟨add8_toNat a m cin, add8_c a m cin, add8_v_iff a m cin, add8_v a m cin, rfl, rfl⟩

/-! ## Subtraction (R28) -/

theorem sub8_toNat (a m : Byte) (bin : Bool) :
    ((sub8 a m bin).r.toNat : Int) = ((a.toNat : Int) - m.toNat - bin.toNat) % 256 := by
  have hr : (sub8 a m bin).r.toNat = (((a.toNat : Int) - m.toNat - bin.toNat) % 256).toNat := BitVec.toNat_ofInt ..
  omega

theorem sub8_c (a m : Byte) (bin : Bool) :
    (sub8 a m bin).c = decide ((a.toNat : Int) - m.toNat - bin.toNat < 0) := rfl

/-- The borrow as an unsigned comparison. -/
theorem sub8_c_eq_lt (a m : Byte) (bin : Bool) : (sub8 a m bin).c = decide (a.toNat < m.toNat + bin.toNat) := by
  rw [sub8_c, decide_eq_decide]
  omega

theorem sub8_v_iff (a m : Byte) (bin : Bool) :
    (sub8 a m bin).v = true ↔ a.getLsbD 7 ≠ m.getLsbD 7 ∧ (sub8 a m bin).r.getLsbD 7 ≠ a.getLsbD 7 := by
  simp [sub8]

/-- The sign of a difference is wrong exactly when the difference does not fit in a signed byte. -/
theorem sub8_v (a m : Byte) (bin : Bool) :
    (sub8 a m bin).v = signedOverflow (a.toInt - m.toInt - bin.toNat) := by
  have hbin := bin.toNat_lt
  have hr := sub8_toNat a m bin
  rw [Bool.eq_iff_iff, sub8_v_iff, signedOverflow_eq_true_iff]
  simp only [toInt_eq_ite, getLsbD_seven, ne_eq, decide_eq_decide]
  omega

theorem toNat_not_add_toNat (b : Bool) : (!b).toNat + b.toNat = 1 := by cases b <;> rfl

/-- The difference as the hardware forms it: the sum with the complement and the inverted borrow. -/
theorem sub8_r_eq_add8 (a m : Byte) (bin : Bool) : (sub8 a m bin).r = (add8 a (~~~m) (!bin)).r := by
  have hbin := toNat_not_add_toNat bin
  have hsub := sub8_toNat a m bin
  have hadd := add8_toNat a (~~~m) (!bin)
  rw [BitVec.toNat_not] at hadd
  apply BitVec.eq_of_toNat_eq
  omega

/-- The borrow is the inverse of that sum's carry. -/
theorem sub8_c_eq_not_add8 (a m : Byte) (bin : Bool) : (sub8 a m bin).c = !(add8 a (~~~m) (!bin)).c := by
  have hbin := toNat_not_add_toNat bin
  rw [sub8_c_eq_lt, add8_c, BitVec.toNat_not, ← decide_not, decide_eq_decide]
  omega

/-- Settles O15: V and the hardware's form by arithmetic on the difference's residue. -/
theorem subtractionFunction : Obligations.SubtractionFunction := by
  unfold Obligations.SubtractionFunction
  intro a m bin f
  exact ⟨sub8_toNat a m bin, sub8_c a m bin, sub8_c_eq_lt a m bin, sub8_v_iff a m bin, sub8_v a m bin,
    sub8_r_eq_add8 a m bin, sub8_c_eq_not_add8 a m bin, rfl, rfl⟩

/-! ## One step up or down, and negation (R29, R30) -/

theorem inc8_toNat (m : Byte) : (inc8 m).toNat = (m.toNat + 1) % 256 :=
  BitVec.toNat_ofNat ..

theorem dec8_toNat (m : Byte) : (dec8 m).toNat = if m = 0 then 255 else m.toNat - 1 := by
  have hr : (dec8 m).toNat = (((m.toNat : Int) - 1) % 256).toNat := BitVec.toNat_ofInt ..
  split <;> bv_omega

theorem neg8_toNat (m : Byte) : (neg8 m).r.toNat = if m = 0 then 0 else 256 - m.toNat := by
  have hr : (neg8 m).r.toNat = ((0 - (m.toNat : Int)) % 256).toNat := BitVec.toNat_ofInt ..
  split <;> bv_omega

/-- Of the bytes only -128 has no opposite in a signed byte. -/
theorem sub8_zero_v (m : Byte) : (sub8 0 m false).v = decide (m = 0x80) := by
  have hzero : (0 : Byte).toInt = 0 := rfl
  rw [sub8_v, signedOverflow, decide_eq_decide, toInt_eq_ite m, hzero, Bool.toNat_false]
  bv_omega

theorem sub8_zero_c (m : Byte) : (sub8 0 m false).c = decide (m ≠ 0) := by
  rw [sub8_c_eq_lt, decide_eq_decide, Bool.toNat_false]
  bv_omega

theorem Result.eq_of_parts {o p : Result} (hr : o.r = p.r) (hv : o.v = p.v) (hc : o.c = p.c) : o = p := by
  cases o; cases p; cases hr; cases hv; cases hc; rfl

theorem neg8_eq_sub8 (m : Byte) : neg8 m = sub8 0 m false := by
  have hr : (neg8 m).r = (sub8 0 m false).r := by simp [neg8, sub8]
  exact Result.eq_of_parts hr (sub8_zero_v m).symm (sub8_zero_c m).symm

/-- Settles O16: `NEG8` is `SUB8(0, m, 0)` part by part. -/
theorem stepByOneAndNegationFunctions : Obligations.StepByOneAndNegationFunctions := by
  unfold Obligations.StepByOneAndNegationFunctions
  refine ⟨fun f m => ⟨inc8_toNat m, rfl, dec8_toNat m, rfl⟩, fun f m => ⟨neg8_toNat m, rfl, neg8_eq_sub8 m⟩⟩

/-! ## Shifts (R31, R32) -/

theorem getLsbD_ofNat_toNat (d : Bool) (k : Nat) : (BitVec.ofNat 8 d.toNat).getLsbD k = (decide (k = 0) && d) := by
  cases d
  · simp
  · simp [BitVec.getLsbD_one]

/-- A doubled byte has bit 0 free for what enters. -/
theorem shl8_r (m : Byte) (d : Bool) : (shl8 m d).r = (m <<< 1 ||| BitVec.ofNat 8 d.toNat) := by
  have hdisjoint : m <<< 1 &&& BitVec.ofNat 8 d.toNat = 0 := by
    apply BitVec.eq_of_getLsbD_eq
    intro k hk
    rw [BitVec.getLsbD_and, BitVec.getLsbD_shiftLeft, getLsbD_ofNat_toNat]
    by_cases hk0 : k = 0 <;> simp [hk0]
  rw [← BitVec.add_eq_or_of_and_eq_zero _ _ hdisjoint]
  apply BitVec.eq_of_toNat_eq
  simp [shl8, BitVec.toNat_shiftLeft, Nat.shiftLeft_eq, Nat.mul_comm]

/-- A halved byte has bit 7 free for what enters. -/
theorem shr8_r (m : Byte) (d : Bool) : (shr8 m d).r = (m >>> 1 ||| BitVec.ofNat 8 d.toNat <<< 7) := by
  have hdisjoint : m >>> 1 &&& BitVec.ofNat 8 d.toNat <<< 7 = 0 := by
    apply BitVec.eq_of_getLsbD_eq
    intro k hk
    rw [BitVec.getLsbD_and, BitVec.getLsbD_ushiftRight, BitVec.getLsbD_shiftLeft]
    by_cases hk7 : k < 7
    · simp [hk7]
    · simp [show k = 7 by omega]
  rw [← BitVec.add_eq_or_of_and_eq_zero _ _ hdisjoint]
  apply BitVec.eq_of_toNat_eq
  simp [shr8, BitVec.toNat_shiftLeft, Nat.shiftLeft_eq, Nat.shiftRight_eq_div_pow, Nat.mul_comm]

theorem asr8_r (m : Byte) : (asr8 m).r = (m >>> 1 ||| (m &&& 0x80)) := by
  have hhalf : BitVec.ofNat 8 (m.toNat / 2) = m >>> 1 := by
    apply BitVec.eq_of_toNat_eq
    rw [BitVec.toNat_ofNat, BitVec.toNat_ushiftRight, Nat.shiftRight_eq_div_pow]
    omega
  rw [asr8, hhalf]

/-! The shifts bit by bit. -/

theorem shl8_getLsbD_zero (m : Byte) (d : Bool) : (shl8 m d).r.getLsbD 0 = d := by
  rw [shl8_r, BitVec.getLsbD_or, getLsbD_ofNat_toNat]
  simp

theorem shl8_getLsbD_succ (m : Byte) (d : Bool) {k : Nat} (hk : k < 7) :
    (shl8 m d).r.getLsbD (k + 1) = m.getLsbD k := by
  have hk8 : k + 1 < 8 := by omega
  rw [shl8_r, BitVec.getLsbD_or, BitVec.getLsbD_shiftLeft, getLsbD_ofNat_toNat, decide_eq_true hk8]
  simp

theorem shr8_getLsbD_seven (m : Byte) (d : Bool) : (shr8 m d).r.getLsbD 7 = d := by
  rw [shr8_r, BitVec.getLsbD_or, BitVec.getLsbD_shiftLeft, getLsbD_ofNat_toNat]
  simp

theorem shr8_getLsbD_of_lt (m : Byte) (d : Bool) {k : Nat} (hk : k < 7) :
    (shr8 m d).r.getLsbD k = m.getLsbD (k + 1) := by
  simp [shr8_r, hk, Nat.add_comm]

theorem asr8_getLsbD_seven (m : Byte) : (asr8 m).r.getLsbD 7 = m.getLsbD 7 := by
  simp [asr8_r]

theorem asr8_getLsbD_of_lt (m : Byte) {k : Nat} (hk : k < 7) : (asr8 m).r.getLsbD k = m.getLsbD (k + 1) := by
  have hmask : (0x80 : Byte).getLsbD k = false := by
    rw [show (0x80 : Byte) = BitVec.twoPow 8 7 from rfl, BitVec.getLsbD_twoPow]
    simp [show 7 ≠ k by omega]
  rw [asr8_r, BitVec.getLsbD_or, BitVec.getLsbD_and, hmask]
  simp [Nat.add_comm]

/-- V after a left shift is the exclusive or of the two bits that bit 7 was and becomes. -/
theorem shl8_v (m : Byte) (d : Bool) : (shl8 m d).v = (m.getLsbD 6 ^^ m.getLsbD 7) :=
  congrArg (· ^^ m.getLsbD 7) (shl8_getLsbD_succ m d (by decide : 6 < 7))

theorem shr8_v_iff (m : Byte) (d : Bool) : (shr8 m d).v = true ↔ (shr8 m d).r.getLsbD 7 ≠ m.getLsbD 7 := by
  rw [shr8_getLsbD_seven]
  exact bne_iff_ne

/-- Settles O17: the shifted results as bit vectors, and from their bits the two forms of V. -/
theorem shiftFunctions : Obligations.ShiftFunctions := by
  unfold Obligations.ShiftFunctions
  refine ⟨fun f m d => ⟨shl8_r m d, rfl, shl8_v m d⟩, fun f m d => ⟨shr8_r m d, ?_, shr8_v_iff m d, asr8_r m,
    asr8_getLsbD_seven m, asr8_getLsbD_of_lt m (by decide), rfl⟩⟩
  rw [CC.withNZVC, CC.withNZ, shr8_getLsbD_seven]
  rfl

end Sys2Proof.Machine
end

section
/-! A pull after a push (10_state.md R36), and a return after a call (42_flow_control.md R142, R144, R160). -/

namespace Sys2Proof.Machine

/-- The byte view of CC loses nothing of it (10_state.md R23). -/
@[simp] theorem CC.ofByte_toByte (f : CC) : CC.ofByte f.toByte = f := by
  obtain ⟨i, n, z, v, c⟩ := f
  revert i n z v c
  decide

/-- A pull where memory and SP are those right after a push through memory. -/
theorem State.pull_of_push {s t : State} {v : Byte} (hp : portAt (s.sp - 1) = none) (hm : t.mem = (s.push v).mem)
    (hsp : t.sp = s.sp - 1) : t.pull.value = v ∧ t.pull.state.sp = s.sp := by
  constructor
  · rw [State.pull_value, hsp, State.look_eq_read hp, hm, State.push_read, if_pos ⟨hp, rfl⟩]
  · rw [State.pull_state_sp, hsp, BitVec.sub_add_cancel]

theorem State.pull_push_advance {s : State} (v len : Byte) (hp : portAt (s.sp - 1) = none) :
    ((s.push v).advance len).pull.value = v ∧ ((s.push v).advance len).pull.state.sp = s.sp :=
  State.pull_of_push hp rfl (s.push_sp v)

/-- RTS right after a call (42_flow_control.md R142, R144, R160). -/
theorem exec_rts_callTo {s : State} (len target : Byte) (hp : portAt (s.sp - 1) = none) :
    ∃ u, exec .rts (callTo len target s) = .next u ∧
      u.pc = s.pc + len ∧ u.sp = s.sp ∧ u.a = s.a ∧ u.x = s.x ∧ u.y = s.y ∧ u.cc = s.cc := by
  obtain ⟨hpc, hsp⟩ : (callTo len target s).pull.value = s.pc + len ∧ (callTo len target s).pull.state.sp = s.sp :=
    State.pull_of_push hp rfl (callTo_sp len target s)
  exact ⟨_, exec_rts _, hpc, hsp, by simp⟩

/-- Settles O45: the byte at SP after a push is the one pushed, and a pull takes SP back up. -/
theorem stackGivesBackWhatItTook : Obligations.StackGivesBackWhatItTook := by
  unfold Obligations.StackGivesBackWhatItTook
  refine ⟨fun s hp => ⟨?_, ?_, ?_, ?_, ?_⟩, fun s hp => ⟨fun m _ => ?_, fun off => ?_⟩⟩
  · exact ⟨_, _, exec_psha s, exec_pula _, State.pull_push_advance _ _ hp⟩
  · exact ⟨_, _, exec_pshx s, exec_pulx _, State.pull_push_advance _ _ hp⟩
  · exact ⟨_, _, exec_pshy s, exec_puly _, State.pull_push_advance _ _ hp⟩
  · obtain ⟨hcc, hsp⟩ := State.pull_push_advance s.cc.toByte 1 hp
    exact ⟨_, _, exec_pshc s, exec_pulc _, (congrArg CC.ofByte hcc).trans s.cc.ofByte_toByte, hsp⟩
  · obtain ⟨hy, hsp⟩ := State.pull_push_advance s.x 1 hp
    exact ⟨_, _, exec_pshx s, exec_puly _, hy, by simp, hsp⟩
  · obtain ⟨u, hu⟩ := exec_rts_callTo (formLength m) (formAddress m s) hp
    exact ⟨_, u, exec_jsr m s, hu⟩
  · obtain ⟨u, hu⟩ := exec_rts_callTo 2 (s.pcNext 2 + off) hp
    exact ⟨_, u, exec_bsr off s, hu⟩

end Sys2Proof.Machine
end

section
/-! Reads and writes of one byte, and what an instruction leaves in memory and at the ports (20_memory.md R44 to R54). -/

namespace Sys2Proof.Machine

/-! ## A port's channels (20_memory.md R46) -/

@[simp] theorem Channel.afterRead_output (ch : Channel) : ch.afterRead.output = ch.output := rfl

theorem Channel.next_of_cons {ch : Channel} {b : Byte} {bs : List Byte} (h : ch.input = b :: bs) (p : Port) :
    ch.next p = b := by
  simp only [Channel.next, h]

theorem Channel.next_of_nil {ch : Channel} (h : ch.input = []) (p : Port) :
    ch.next p = Config.portIn p.address ch.reads := by
  simp only [Channel.next, h]

theorem Channel.afterRead_input_of_cons {ch : Channel} {b : Byte} {bs : List Byte} (h : ch.input = b :: bs) :
    ch.afterRead.input = bs := by
  simp only [Channel.afterRead, h, List.tail_cons]

theorem Channel.next_afterRead_of_nil {ch : Channel} (h : ch.input = []) (p : Port) :
    ch.afterRead.next p = Config.portIn p.address (ch.reads + 1) :=
  Channel.next_of_nil (by simp only [Channel.afterRead, h, List.tail_nil]) p

/-- The two directions of a port do not meet: it has no storage. -/
@[simp] theorem Channel.next_afterWrite (ch : Channel) (v : Byte) (p : Port) :
    (ch.afterWrite v).next p = ch.next p := by
  simp only [Channel.next, Channel.afterWrite]

theorem State.touch_port_self (s : State) (p : Port) : (s.touch p.address).port p = (s.port p).afterRead := by
  rw [State.touch_port, if_pos rfl]

theorem State.store_port_self (s : State) (v : Byte) (p : Port) :
    (s.store p.address v).port p = (s.port p).afterWrite v := by
  rw [State.store_port, if_pos rfl]

/-! ## One write, one read (R44, R45) -/

theorem State.memoryAfterWrite_store (s : State) (addr v : Byte) : MemoryAfterWrite addr v s (s.store addr v) := by
  refine ⟨fun hmem => ?_, fun hport b => ?_, fun b hb => ?_⟩
  · rw [State.store_read, if_pos ⟨hmem, rfl⟩]
  · rw [State.store_mem_of_port hport]
  · rw [State.store_read, if_neg fun h => hb h.2]

/-- Settles O10: what a write does to memory, to the ports and to the inputs, part by part. -/
theorem writeGoesToMemoryOrPort : Obligations.WriteGoesToMemoryOrPort := by
  unfold Obligations.WriteGoesToMemoryOrPort
  intro s addr v
  exact ⟨s.memoryAfterWrite_store addr v, s.store_port addr v, by simp [SameInputs]⟩

/-- Settles O11: at memory a read is a look-up; at a port it takes the head of the channel's input, and a write
reaches the output only. -/
theorem readComesFromMemoryOrPort : Obligations.ReadComesFromMemoryOrPort := by
  unfold Obligations.ReadComesFromMemoryOrPort
  refine fun s addr => ⟨fun hmem => ⟨State.look_eq_read hmem, State.touch_eq_self hmem⟩, ?_⟩
  rintro p rfl
  simp only [State.look_port, State.touch_port_self, State.store_port_self]
  refine ⟨fun b bs hin => ⟨?_, ?_⟩, fun hin => ⟨?_, ?_⟩, fun b => ?_, ?_, fun v => ?_⟩
  · exact Channel.next_of_cons hin p
  · exact Channel.afterRead_input_of_cons hin
  · exact Channel.next_of_nil hin p
  · exact Channel.next_afterRead_of_nil hin p
  · rw [State.touch_mem]
  · exact Channel.afterRead_output _
  · exact Channel.next_afterWrite _ v p

/-! ## What is left unchanged by an instruction that makes no write (R49) -/

/-- Neither port has sent anything. -/
def SameOutputs (s t : State) : Prop := ∀ p : Port, (t.port p).output = (s.port p).output

/-- Reads leave the output side of a port alone (R46). -/
theorem PortsAfterRead.sameOutputs {ea : Option Byte} {s t : State} (h : PortsAfterRead ea s t) : SameOutputs s t := by
  intro p
  rw [h p]
  split
  · exact Channel.afterRead_output _
  · rfl

/-- The registers and the memory of the later state do not matter. -/
theorem SameOutputs.of_ports_eq {s t u : State} (h : SameOutputs s t) (hfb : u.portFB = t.portFB)
    (hfc : u.portFC = t.portFC) : SameOutputs s u
  | .fb => (congrArg Channel.output hfb).trans (h .fb)
  | .fc => (congrArg Channel.output hfc).trans (h .fc)

theorem SameOutputs.refl (s : State) : SameOutputs s s := fun _ => rfl

theorem readOperand_sameOutputs (o : Operand) (s : State) : SameOutputs s (readOperand o s).state :=
  PortsAfterRead.sameOutputs (readOperand_port o s)

theorem State.pull_sameOutputs (s : State) : SameOutputs s s.pull.state :=
  PortsAfterRead.sameOutputs (ea := some s.sp) fun p => by
    simp only [State.pull_state_port, Option.some.injEq]

theorem State.leave_sameOutputs (s : State) : SameOutputs s s.leave := by
  obtain ⟨-, -, -, -, -, -, -, -, hport⟩ := s.leave_spec
  intro p
  rw [hport p]
  split
  · exact Channel.afterRead_output _
  · rfl

theorem branchIf_sameOutputs (cond : Bool) (off : Byte) (s : State) : SameOutputs s (branchIf cond off s) := by
  rw [branchIf_eq]
  exact (SameOutputs.refl s).of_ports_eq rfl rfl

/-- An instruction outside the table's writers reads an operand, pulls, branches, or accesses nothing. -/
theorem exec_sameOutputs_of_not_stores {i : Instr} {s t : State} (h : exec i s = .next t) (hi : i.stores = false) :
    SameOutputs s t := by
  refine of_exec_eq_next (motive := SameOutputs s) h ?_
  cases i with
  | sta | stx | sty | stsp | clr | neg | inc | dec | com | lsl | lsr | asr | rol | ror => cases hi
  | psha | pshc | pshx | pshy | bsr | jsr | illegal => cases hi
  | lda o | ldx o | ldy o | ldsp o | adda o | adca o | suba o | sbca o | anda o | ora o | eora o | cmpa o | cmpx o
  | cmpy o | cmpsp o | bita o =>
    exact ⟨_, rfl, (readOperand_sameOutputs o s).of_ports_eq rfl rfl⟩
  | tst m => exact ⟨_, rfl, (readOperand_sameOutputs (.mem m) s).of_ports_eq rfl rfl⟩
  | pula | pulc | pulx | puly | rts => exact ⟨_, rfl, s.pull_sameOutputs.of_ports_eq rfl rfl⟩
  | rti => exact ⟨_, rfl, s.leave_sameOutputs⟩
  | bra | bmi | bpl | beq | bne | bvs | bvc | bcs | bcc | bhi | bls | bgt | bge | ble | blt =>
    exact ⟨_, rfl, branchIf_sameOutputs _ _ s⟩
  | _ => exact ⟨_, rfl, (SameOutputs.refl s).of_ports_eq rfl rfl⟩

theorem branchIf_sameInputs (cond : Bool) (off : Byte) (s : State) : SameInputs s (branchIf cond off s) := by
  rw [branchIf_eq]
  exact ⟨rfl, rfl, rfl, rfl, rfl⟩

/-- The control unit's inputs and the counters belong to the boundary and the fetch, never to an instruction. -/
theorem exec_sameInputs {i : Instr} {s t : State} (h : exec i s = .next t) : SameInputs s t := by
  refine of_exec_eq_next (motive := SameInputs s) h ?_
  cases i with
  | rti =>
    obtain ⟨-, -, -, -, -, -, -, hinputs, -⟩ := s.leave_spec
    exact ⟨_, rfl, hinputs⟩
  | illegal op =>
    obtain ⟨-, hinputs⟩ := s.trapEntry_spec
    exact ⟨_, exec_illegal op s, hinputs⟩
  | bra | bmi | bpl | beq | bne | bvs | bvc | bcs | bcc | bhi | bls | bgt | bge | ble | blt =>
    exact ⟨_, rfl, branchIf_sameInputs _ _ s⟩
  | _ => exact ⟨_, rfl, by simp [SameInputs]⟩

/-- Settles O57: memory cell for cell, the outputs and the inputs, each by the instruction's accesses. -/
theorem memoryChangesOnlyByStores : Obligations.MemoryChangesOnlyByStores := by
  unfold Obligations.MemoryChangesOnlyByStores
  intro i s t h
  refine ⟨fun hi => ⟨fun b => ?_, exec_sameOutputs_of_not_stores h hi⟩, exec_sameInputs h⟩
  rw [exec_mem_of_not_stores h hi]

/-! ## A byte stored in memory, as every later read finds it (R54) -/

/-- Every read of `t` returns what it returns in `s`, but for `v` at the address `ea`. -/
def LooksWritten (ea v : Byte) (s t : State) : Prop :=
  t.look ea = v ∧ ∀ b : Byte, b ≠ ea → t.look b = s.look b

theorem LooksWritten.of_look_eq {ea v : Byte} {s t u : State} (h : LooksWritten ea v s t)
    (hu : ∀ b, u.look b = t.look b) : LooksWritten ea v s u := by
  simpa only [LooksWritten, hu] using h

/-- Where the address written is memory, one write leaves both ports as they were. -/
theorem looksWritten_writeForm {m : MemForm} {s : State} (v : Byte) (hp : portAt (formAddress m s) = none) :
    LooksWritten (formAddress m s) v s (writeForm m v s) :=
  State.look_of_write hp (writeForm_read m v s) fun p => by
    rw [writeForm_port, if_neg (portAt_eq_none.1 hp p)]

/-- The read of a read-modify-write takes no port's input either, since it is at the address written. -/
theorem looksWritten_modifyForm (op : CC → Byte → Effect) {m : MemForm} {s : State}
    (hp : portAt (formAddress m s) = none) :
    LooksWritten (formAddress m s) (op s.cc (s.look (formAddress m s))).r s (modifyForm op m s) :=
  State.look_of_write hp (modifyForm_read op m s) fun p => by
    rw [modifyForm_port, if_neg (portAt_eq_none.1 hp p)]

theorem looksWritten_push {s : State} (v : Byte) (hp : portAt (s.sp - 1) = none) :
    LooksWritten (s.sp - 1) v s (s.push v) :=
  State.look_of_write hp (s.push_read v) fun p => by
    rw [State.push_port, if_neg (portAt_eq_none.1 hp p)]

theorem State.look_advance (s : State) (len b : Byte) : (s.advance len).look b = s.look b :=
  State.look_with s s.a s.x s.y s.sp _ b s.cc

theorem look_callTo (len target : Byte) (s : State) (b : Byte) :
    (callTo len target s).look b = (s.push (s.pc + len)).look b :=
  State.look_eq_of rfl fun p => by rw [callTo_port, State.push_port]

/-- The byte the table gives is the one the instruction leaves: it stores, modifies, pushes or calls. -/
theorem exec_looksWritten {i : Instr} {s t : State} {ea v : Byte} (h : exec i s = .next t)
    (hw : writtenByte i s = some (ea, v)) (hp : portAt ea = none) : LooksWritten ea v s t := by
  refine of_exec_eq_next (motive := LooksWritten ea v s) h ?_
  cases i with
  | sta | stx | sty | stsp =>
    cases hw
    exact ⟨_, rfl, (looksWritten_writeForm _ hp).of_look_eq (State.look_advance _ _)⟩
  | clr =>
    cases hw
    exact ⟨_, rfl, (looksWritten_writeForm _ hp).of_look_eq fun b => State.look_with ..⟩
  | neg | inc | dec | com | lsl | lsr | asr | rol | ror =>
    cases hw
    exact ⟨_, rfl, (looksWritten_modifyForm _ hp).of_look_eq (State.look_advance _ _)⟩
  | psha | pshc | pshx | pshy =>
    cases hw
    exact ⟨_, rfl, (looksWritten_push _ hp).of_look_eq (State.look_advance _ _)⟩
  | jsr | bsr =>
    cases hw
    exact ⟨_, rfl, (looksWritten_push _ hp).of_look_eq (look_callTo _ _ s)⟩
  | _ => cases hw

/-- The fetch gives the instruction that the two bytes at PC decode to, whether or not it reads the second. -/
theorem State.fetch_instr_of_decode {s : State} {b0 b1 : Byte} {j : Instr} {rest : List Byte}
    (h0 : s.look s.pc = b0) (h1 : s.look (s.pc + 1) = b1) (hd : decode [b0, b1] = .ok (j, rest)) :
    s.fetch.instr = j := by
  subst h0 h1
  obtain ⟨rest', hfetch⟩ := s.fetch_instr
  exact congrArg Prod.fst (Except.ok.inj (hfetch.symm.trans hd))

/-- Settles O13: the next fetch reads through the same memory that the write went to. -/
theorem storeIsSeenByNextFetch : Obligations.StoreIsSeenByNextFetch := by
  unfold Obligations.StoreIsSeenByNextFetch
  intro i s ea v hwf hw hp
  obtain ⟨t, h⟩ := exec_completes i s
  obtain ⟨hea, hother⟩ := exec_looksWritten h hw hp
  refine ⟨t, h, hea, fun hi => ?_, ?_, ?_⟩
  · exact of_exec_eq_next (motive := fun t => t.pc = s.pc + BitVec.ofNat 8 (encode i).length) h
      (sequentialInstructionsAdvance i s hwf hi)
  · rintro rfl j rest hd
    exact State.fetch_instr_of_decode hea rfl hd
  · rintro rfl j rest hd
    have hne : t.pc ≠ t.pc + 1 := by bv_omega
    exact State.fetch_instr_of_decode (hother _ hne) hea hd

end Sys2Proof.Machine
end

section
/-! Decoding and encoding are inverse to each other (30_encoding.md R60 to R67, R79): the encoder's table of each
instruction leads to its cell of the opcode map, and each cell leads back to an existing instruction's bytes. -/

namespace Sys2Proof

/-! ## Reading one cell of the opcode map (30_encoding.md R60 to R62) -/

/-- The instruction of a cell, given the byte after the opcode, which a one-byte cell does not use. -/
def Decoded.instr : Decoded → Byte → Instr
  | .op i, _ => i
  | .op8 f, b => f b

/-- What a cell reads of the byte after the opcode. -/
def Decoded.operand : Decoded → Byte → List Byte
  | .op _, _ => []
  | .op8 _, b => [b]

theorem decode_of_op {op : Byte} {i : Instr} (h : decodeOpcode op = .op i) (rest : List Byte) :
    decode ([op] ++ rest) = .ok (i, rest) := by
  simp only [List.cons_append, List.nil_append, decode, h]

theorem decode_of_op8 {op b : Byte} {f : Byte → Instr} (h : decodeOpcode op = .op8 f) (rest : List Byte) :
    decode ([op, b] ++ rest) = .ok (f b, rest) := by
  simp only [List.cons_append, List.nil_append, decode, h]

/-- The decoder reads the opcode and, where the cell has one, the operand byte, and leaves the rest. -/
theorem decode_cons_eq_ok {op : Byte} {bytes rest : List Byte} {i : Instr} :
    decode (op :: bytes) = .ok (i, rest) ↔
      ∃ b, (decodeOpcode op).instr b = i ∧ bytes = (decodeOpcode op).operand b ++ rest := by
  rcases h : decodeOpcode op with j | f
  · simp [decode, h, Decoded.instr, Decoded.operand]
  · cases bytes <;> simp [decode, h, Decoded.instr, Decoded.operand, eq_comm]

/-! ## From the encoder to the map (R66, R79)

For each operand family, the cells at its opcodes are what the decoder needs to read the instruction back. -/

theorem decode_encodePlain {f : MemForm → Instr} {ab ns nx ax ny ay : Byte} {m : MemForm}
    (hab : decodeOpcode ab = Mode.ab f) (hns : decodeOpcode ns = Mode.ns f) (hnx : decodeOpcode nx = Mode.nx f)
    (hax : decodeOpcode ax = Mode.ax f) (hny : decodeOpcode ny = Mode.ny f) (hay : decodeOpcode ay = Mode.ay f)
    (hm : m.isPlain = true) (rest : List Byte) :
    decode (encodePlain ab ns nx ax ny ay m ++ rest) = .ok (f m, rest) := by
  cases m with
  | ab => exact decode_of_op8 hab rest
  | ns => exact decode_of_op8 hns rest
  | nx => exact decode_of_op8 hnx rest
  | ny => exact decode_of_op8 hny rest
  | ax => exact decode_of_op hax rest
  | ay => exact decode_of_op hay rest
  | _ => cases hm

theorem decode_encodeTarget {f : MemForm → Instr} {ab nx ax ny ay : Byte} {m : MemForm}
    (hab : decodeOpcode ab = Mode.ab f) (hnx : decodeOpcode nx = Mode.nx f)
    (hax : decodeOpcode ax = Mode.ax f) (hny : decodeOpcode ny = Mode.ny f) (hay : decodeOpcode ay = Mode.ay f)
    (hm : m.isTarget = true) (rest : List Byte) :
    decode (encodeTarget ab nx ax ny ay m ++ rest) = .ok (f m, rest) := by
  cases m with
  | ab => exact decode_of_op8 hab rest
  | nx => exact decode_of_op8 hnx rest
  | ny => exact decode_of_op8 hny rest
  | ax => exact decode_of_op hax rest
  | ay => exact decode_of_op hay rest
  | _ => cases hm

theorem decode_encodeData {f : Operand → Instr} {im ab ns nx ny : Byte} {o : Operand}
    (him : decodeOpcode im = Mode.im f) (hab : decodeOpcode ab = Mode.rdAb f) (hns : decodeOpcode ns = Mode.rdNs f)
    (hnx : decodeOpcode nx = Mode.rdNx f) (hny : decodeOpcode ny = Mode.rdNy f)
    (ho : o.isData = true) (rest : List Byte) :
    decode (encodeData im ab ns nx ny o ++ rest) = .ok (f o, rest) := by
  cases o with
  | im d => exact decode_of_op8 him rest
  | mem m =>
    cases m with
    | ab => exact decode_of_op8 hab rest
    | ns => exact decode_of_op8 hns rest
    | nx => exact decode_of_op8 hnx rest
    | ny => exact decode_of_op8 hny rest
    | _ => cases ho

theorem decode_encodeCmpXY {f : Operand → Instr} {im ab ns : Byte} {o : Operand}
    (him : decodeOpcode im = Mode.im f) (hab : decodeOpcode ab = Mode.rdAb f) (hns : decodeOpcode ns = Mode.rdNs f)
    (ho : o.isCmpXY = true) (rest : List Byte) :
    decode (encodeCmpXY im ab ns o ++ rest) = .ok (f o, rest) := by
  cases o with
  | im d => exact decode_of_op8 him rest
  | mem m =>
    cases m with
    | ab => exact decode_of_op8 hab rest
    | ns => exact decode_of_op8 hns rest
    | _ => cases ho

theorem decode_encodeCmpSP {o : Operand} (ho : o.isCmpSP = true) (rest : List Byte) :
    decode (encodeCmpSP o ++ rest) = .ok (.cmpsp o, rest) := by
  cases o with
  | im d => rfl
  | mem m =>
    cases m with
    | ab => rfl
    | _ => cases ho

theorem decode_encodeLeax {m : MemForm} (hm : m.isLeax = true) (rest : List Byte) :
    decode (encodeLeax m ++ rest) = .ok (.leax m, rest) := by
  cases m with
  | nx | ns => rfl
  | _ => cases hm

theorem decode_encodeLeay {m : MemForm} (hm : m.isLeay = true) (rest : List Byte) :
    decode (encodeLeay m ++ rest) = .ok (.leay m, rest) := by
  cases m with
  | ny | ns => rfl
  | _ => cases hm

theorem decode_encodeLeasp {m : MemForm} (hm : m.isLeasp = true) (rest : List Byte) :
    decode (encodeLeasp m ++ rest) = .ok (.leasp m, rest) := by
  cases m with
  | ns | nx | ny => rfl
  | _ => cases hm

theorem decode_encode_lda (o : Operand) (rest : List Byte) :
    decode (encode (.lda o) ++ rest) = .ok (.lda o, rest) := by
  cases o with
  | im d => rfl
  | mem m => cases m <;> rfl

theorem decode_encode_sta (m : MemForm) (rest : List Byte) :
    decode (encode (.sta m) ++ rest) = .ok (.sta m, rest) := by
  cases m <;> rfl

theorem decodeOpcode_illegal {op : Byte} (h : op ∈ illegalOpcodes) : decodeOpcode op = .op (.illegal op) := by
  simp only [illegalOpcodes, List.mem_cons, List.not_mem_nil, or_false] at h
  rcases h with rfl | rfl | rfl | rfl | rfl | rfl <;> rfl

theorem encode_illegal {op : Byte} (h : op ∈ illegalOpcodes) : encode (.illegal op) = [op] :=
  if_pos (List.contains_iff_mem.2 h)

theorem wellFormed_illegal {op : Byte} : (Instr.illegal op).wellFormed = true ↔ op ∈ illegalOpcodes :=
  List.contains_iff_mem

/-- Settles O1: by the constructors of `Instr`, each at the cells that its operand family names. -/
theorem decodeOfEncode : Obligations.DecodeOfEncode := by
  unfold Obligations.DecodeOfEncode
  intro i rest hw
  cases i with
  | lda o => exact decode_encode_lda o rest
  | sta m => exact decode_encode_sta m rest
  | ldx | ldy | ldsp | adda | adca | suba | sbca | cmpa | bita | anda | ora | eora =>
    exact decode_encodeData rfl rfl rfl rfl rfl hw rest
  | stx | sty | stsp | clr | neg | dec | inc | tst | com | asr | lsl | lsr | rol | ror =>
    exact decode_encodePlain rfl rfl rfl rfl rfl rfl hw rest
  | jmp | jsr => exact decode_encodeTarget rfl rfl rfl rfl rfl hw rest
  | cmpx | cmpy => exact decode_encodeCmpXY rfl rfl rfl hw rest
  | cmpsp => exact decode_encodeCmpSP hw rest
  | leax => exact decode_encodeLeax hw rest
  | leay => exact decode_encodeLeay hw rest
  | leasp => exact decode_encodeLeasp hw rest
  | illegal op =>
    have hop := wellFormed_illegal.1 hw
    rw [encode_illegal hop]
    exact decode_of_op (decodeOpcode_illegal hop) rest
  | bra | bsr | bmi | bpl | beq | bne | bvs | bvc | bcs | bcc | bhi | bls | bgt | bge | ble | blt | andcc | orcc =>
    exact decode_of_op8 rfl rest
  | _ => exact decode_of_op rfl rest

/-! ## From the map to the encoder (R60, R66, R67) -/

/-- What a cell reads is the instruction whose encoding is the bytes read, and exists. -/
structure Decoded.Faithful (d : Decoded) (op b : Byte) : Prop where
  wellFormed : (d.instr b).wellFormed = true
  encode_eq : encode (d.instr b) = op :: d.operand b

/-- An opcode by its two hexadecimal digits: the column and the row of the map (R66). -/
theorem opcode_eq_digits (op : Byte) : ∃ h < 16, ∃ l < 16, op = BitVec.ofNat 8 (16 * h + l) :=
  ⟨op.toNat / 16, by omega, op.toNat % 16, by omega, by simp [Nat.div_add_mod]⟩

/-- The opcode map agrees with the encoder in all 256 cells, for any operand byte. -/
theorem decodeOpcode_faithful (op b : Byte) : (decodeOpcode op).Faithful op b := by
  obtain ⟨h, hh, l, hl, rfl⟩ := opcode_eq_digits op
  interval_cases h <;> interval_cases l <;> exact ⟨rfl, rfl⟩

/-- Settles O2: the bytes read are an opcode and what its cell takes of the bytes after it, which is the encoding of the
cell's instruction. -/
theorem encodeOfDecode : Obligations.EncodeOfDecode := by
  unfold Obligations.EncodeOfDecode
  intro bytes i rest h
  cases bytes with
  | nil => cases h
  | cons op bytes =>
    obtain ⟨b, rfl, rfl⟩ := decode_cons_eq_ok.1 h
    obtain ⟨hwf, henc⟩ := decodeOpcode_faithful op b
    exact ⟨hwf, by rw [henc, List.cons_append]⟩

/-- No opcode is refused where a second byte follows (R67). -/
theorem decode_two_bytes (op b : Byte) (rest : List Byte) :
    ∃ i rest', decode (op :: b :: rest) = .ok (i, rest') := by
  rcases h : decodeOpcode op with i | f
  · exact ⟨i, b :: rest, decode_of_op h _⟩
  · exact ⟨f b, rest, decode_of_op8 h _⟩

/-- An illegal opcode that is read is the one byte read, and one of the six. -/
theorem decode_eq_illegal {op bad : Byte} {bytes rest : List Byte}
    (h : decode (op :: bytes) = .ok (.illegal bad, rest)) : op ∈ illegalOpcodes ∧ bad = op := by
  obtain ⟨hwf, hbytes⟩ := encodeOfDecode _ _ _ h
  have hbad := wellFormed_illegal.1 hwf
  rw [encode_illegal hbad, List.singleton_append, List.cons.injEq] at hbytes
  obtain ⟨rfl, -⟩ := hbytes
  exact ⟨hbad, rfl⟩

/-- Settles O3: an illegal opcode that is read exists and is its own encoding, by O2; the six are cells of the map. -/
theorem illegalOpcodesAreTheSix : Obligations.IllegalOpcodesAreTheSix := by
  unfold Obligations.IllegalOpcodesAreTheSix
  intro op b rest
  refine ⟨decode_two_bytes op b rest, ⟨fun h => ?_, fun h => ?_⟩, fun bad rest' h => ?_⟩
  · exact (decode_eq_illegal h).1
  · exact decode_of_op (decodeOpcode_illegal h) (b :: rest)
  · exact (decode_eq_illegal h).2

/-- A word of the opcode table whose low bytes are an instruction's encoding. -/
theorem decodeTableWord_eq {nbits w : Nat} {i : Instr} (hw : i.wellFormed = true) (rest : List Byte)
    (hb : tableBytes nbits w = encode i ++ rest) : decodeTableWord nbits w = some i := by
  rw [decodeTableWord, hb, decodeOfEncode i rest hw]

/-- Settles O4: each word is the encoding of its instruction, one byte longer where that has no operand byte, so O1
decodes it. -/
theorem sampleWordsDecode : Obligations.SampleWordsDecode := by
  unfold Obligations.SampleWordsDecode
  exact ⟨decodeTableWord_eq rfl [] rfl, decodeTableWord_eq rfl [0] rfl, decodeTableWord_eq rfl [0] rfl,
    decodeTableWord_eq rfl [] rfl, decodeTableWord_eq rfl [0] rfl, decodeTableWord_eq rfl [] rfl,
    decodeTableWord_eq rfl [] rfl, decodeTableWord_eq rfl [] rfl, decodeTableWord_eq rfl [0] rfl,
    decodeTableWord_eq rfl [0] rfl, decodeTableWord_eq rfl [0] rfl⟩

end Sys2Proof
end

section
/-! The step runs what the bytes at PC decode to (30_encoding.md R62, 60_exceptions.md R270), and the addresses of the
memory forms (30_encoding.md R72 to R78). -/

namespace Sys2Proof.Machine

/-! ## The fetch of a decoded instruction (R61, R62) -/

/-- Passing the boundary changes nothing that a read returns. -/
theorem State.look_passBoundary (s : State) (b : Byte) : s.passBoundary.look b = s.look b :=
  State.look_eq_of rfl fun p => s.passBoundary_port p

/-- One byte that decodes alone is the opcode of a one-byte format. -/
theorem decodeOpcode_of_decode_singleton {op : Byte} {i : Instr} (h : decode [op] = .ok (i, [])) :
    decodeOpcode op = .op i := by
  obtain ⟨b, rfl, hb⟩ := decode_cons_eq_ok.1 h
  cases hd : decodeOpcode op with
  | op j => rfl
  | op8 f => rw [hd] at hb; cases hb

/-- Two bytes that are used up are an opcode of a two-byte format and its operand byte. -/
theorem decodeOpcode_of_decode_pair {op b : Byte} {i : Instr} (h : decode [op, b] = .ok (i, [])) :
    ∃ f, decodeOpcode op = .op8 f ∧ f b = i := by
  obtain ⟨b', rfl, hb⟩ := decode_cons_eq_ok.1 h
  cases hd : decodeOpcode op with
  | op j => rw [hd] at hb; cases hb
  | op8 f => rw [hd] at hb; cases hb; exact ⟨f, rfl, rfl⟩

/-- Settles O5: how many bytes the decoder uses says which fetch the step makes. -/
theorem stepRunsDecodedInstruction : Obligations.StepRunsDecodedInstruction := by
  unfold Obligations.StepRunsDecodedInstruction
  intro s i hx
  rw [step_of_executes hx]
  refine ⟨fun h => ?_, fun h => ?_⟩
  · have hop := decodeOpcode_of_decode_singleton h
    rw [← s.look_passBoundary] at hop
    rw [State.fetch_op (s := s.passBoundary) hop, State.passBoundary_pc]
  · obtain ⟨f, hop, rfl⟩ := decodeOpcode_of_decode_pair h
    rw [← s.look_passBoundary] at hop
    rw [State.fetch_op8 (s := s.passBoundary) hop, State.passBoundary_pc, State.look_passBoundary]

/-! ## Effective addresses and index steps (R72 to R78) -/

/-- The two index steps together leave X and Y at `formX` and `formY`, and nothing else changed. -/
theorem postIndex_preIndex (m : MemForm) (s : State) :
    postIndex m (preIndex m s) = { s with x := formX m s.x, y := formY m s.y } := by
  cases m <;> rfl

/-- Settles O12: the address of each form, and both index steps as one. -/
theorem effectiveAddresses : Obligations.EffectiveAddresses := by
  unfold Obligations.EffectiveAddresses
  refine ⟨fun s n => ⟨⟨formAddress_ab s n, formAddress_ns s n, formAddress_nx s n, formAddress_ny s n,
    formAddress_ax s, formAddress_ay s⟩, ?_⟩, fun s => ⟨?_, ?_⟩⟩
  · simp [postIndex_preIndex, formX, formY]
  · simp [postIndex_preIndex, formX, formY]
  · simp [postIndex_preIndex, formX, formY]

end Sys2Proof.Machine
end

section
/-! What the assembler emits for an instruction (30_encoding.md R64, R81 to R83) decodes to the instruction that was
written, and a branch so emitted goes to its target. -/

namespace Sys2Proof.Machine

/-! ## An opcode found by mnemonic and mode (R64, R66) -/

/-- The operand bytes of an instruction in a mode (R61, R64). -/
def modeOperand : ModeCode → Byte → List Byte
  | .im, b | .ab, b | .pc, b | .ns, b | .nx, b | .ny, b => [b]
  | _, _ => []

/-- The mnemonic and mode of a cell are the same for every operand byte, and the mode says whether there is one. -/
structure ModeFixed (d : Decoded) (b : Byte) : Prop where
  asmForm_eq : asmForm (d.instr b) = asmForm (d.instr 0)
  operand_eq :
    (asmForm (d.instr 0)).map (fun p => modeOperand p.2 b) = (asmForm (d.instr 0)).map fun _ => d.operand b

/-- The opcode alone fixes mnemonic, mode and length, in all 256 cells (R60, R61). -/
theorem decodeOpcode_modeFixed (op b : Byte) : ModeFixed (decodeOpcode op) b := by
  obtain ⟨h, hh, l, hl, rfl⟩ := opcode_eq_digits op
  interval_cases h <;> interval_cases l <;> exact ⟨rfl, rfl⟩

theorem opcodeInstr_eq (op : Byte) : opcodeInstr op = (decodeOpcode op).instr 0 := by
  unfold opcodeInstr
  cases decodeOpcode op <;> rfl

theorem asmForm_of_findOpcode {mn : String} {mode : ModeCode} {op : Byte} (h : findOpcode mn mode = some op) :
    asmForm ((decodeOpcode op).instr 0) = some (canonical mn, mode) := by
  rw [← opcodeInstr_eq]
  exact of_decide_eq_true
    (List.find?_some (p := fun op => decide (asmForm (opcodeInstr op) = some (canonical mn, mode))) h)

/-- An opcode found for a mnemonic and a mode, with the operand byte of that mode, decodes to that mnemonic and mode. -/
theorem decode_findOpcode {mn : String} {mode : ModeCode} {op : Byte} (h : findOpcode mn mode = some op) (b : Byte) :
    ∃ i, decode (op :: modeOperand mode b) = .ok (i, []) ∧ asmForm i = some (canonical mn, mode) := by
  have hform := asmForm_of_findOpcode h
  obtain ⟨hasm, hoperand⟩ := decodeOpcode_modeFixed op b
  rw [hform, Option.map_some, Option.map_some, Option.some.injEq] at hoperand
  exact ⟨_, decode_cons_eq_ok.2 ⟨b, rfl, by rw [hoperand, List.append_nil]⟩, hasm.trans hform⟩

/-! ## The fields of an instruction (R81) -/

theorem except_bind_eq_ok {ε α β : Type} {x : Except ε α} {f : α → Except ε β} {r : β} :
    (x >>= f) = .ok r ↔ ∃ a, x = .ok a ∧ f a = .ok r := by
  cases x with
  | error e => exact ⟨nofun, fun ⟨_, h, _⟩ => nomatch h⟩
  | ok a => exact ⟨fun h => ⟨a, rfl, h⟩, fun ⟨_, h, hf⟩ => by cases h; exact hf⟩

theorem opcodeFor_eq_ok {mn : String} {mode : ModeCode} {op : Byte} :
    opcodeFor mn mode = .ok op ↔ findOpcode mn mode = some op := by
  unfold opcodeFor
  cases findOpcode mn mode <;> simp

theorem byteOf_eq_ok {n : Int} {b : Byte} :
    byteOf n = .ok b ↔ -128 ≤ n ∧ n ≤ 255 ∧ b = BitVec.ofInt 8 n := by
  unfold byteOf
  split <;> simp_all [eq_comm]

theorem addressOf_eq_ok {n : Int} {b : Byte} :
    addressOf n = .ok b ↔ 0 ≤ n ∧ n ≤ 255 ∧ b = BitVec.ofInt 8 n := by
  unfold addressOf
  split <;> simp_all [eq_comm]

/-! ## The bytes of each operand as it is written (R64, R81, R83) -/

/-- What an instruction with a data byte or an offset assembles to, in each of the modes im, ns, nx, ny. -/
def dataBytes (syms : Symbols) (mn : String) (mode : ModeCode) (v : Val) : Except AsmError (List Byte) := do
  let op ← opcodeFor mn mode
  let b ← byteOf (← v.eval syms)
  pure [op, b]

theorem instrBytes_data (syms : Symbols) (at_ : Nat) (mn : String) (v : Val) :
    instrBytes syms at_ mn (.data v) = dataBytes syms mn .im v := rfl
theorem instrBytes_nSP (syms : Symbols) (at_ : Nat) (mn : String) (v : Val) :
    instrBytes syms at_ mn (.nSP v) = dataBytes syms mn .ns v := rfl
theorem instrBytes_nX (syms : Symbols) (at_ : Nat) (mn : String) (v : Val) :
    instrBytes syms at_ mn (.nX v) = dataBytes syms mn .nx v := rfl
theorem instrBytes_nY (syms : Symbols) (at_ : Nat) (mn : String) (v : Val) :
    instrBytes syms at_ mn (.nY v) = dataBytes syms mn .ny v := rfl

theorem dataBytes_eq_ok {syms : Symbols} {mn : String} {mode : ModeCode} {v : Val} {bytes : List Byte}
    (h : dataBytes syms mn mode v = .ok bytes) :
    ∃ op b, bytes = [op, b] ∧ findOpcode mn mode = some op ∧ isValueByte syms (-128) 255 v b := by
  obtain ⟨op, hop, h⟩ := except_bind_eq_ok.1 h
  obtain ⟨n, hn, h⟩ := except_bind_eq_ok.1 h
  obtain ⟨b, hb, h⟩ := except_bind_eq_ok.1 h
  obtain ⟨hlo, hhi, hb⟩ := byteOf_eq_ok.1 hb
  cases h
  exact ⟨op, b, rfl, opcodeFor_eq_ok.1 hop, n, hn, hlo, hhi, hb⟩

theorem instrBytes_none_eq_ok {syms : Symbols} {at_ : Nat} {mn : String} {bytes : List Byte}
    (h : instrBytes syms at_ mn .none = .ok bytes) : ∃ op, bytes = [op] ∧ findOpcode mn .ih = some op := by
  obtain ⟨op, hop, h⟩ := except_bind_eq_ok.1 h
  cases h
  exact ⟨op, rfl, opcodeFor_eq_ok.1 hop⟩

theorem instrBytes_byMode_eq_ok {syms : Symbols} {at_ : Nat} {mn : String} {m : ModeCode} {bytes : List Byte}
    (h : instrBytes syms at_ mn (.byMode m) = .ok bytes) :
    ∃ op, bytes = [op] ∧ oneByteMode m = true ∧ findOpcode mn m = some op := by
  rw [instrBytes] at h
  split at h
  next hm =>
    obtain ⟨op, hop, h⟩ := except_bind_eq_ok.1 h
    cases h
    exact ⟨op, rfl, hm, opcodeFor_eq_ok.1 hop⟩
  next => cases h

/-- An `Adr` is the address itself where the mnemonic has the absolute mode, else the offset to it. -/
theorem instrBytes_adr_eq_ok {syms : Symbols} {at_ : Nat} {mn : String} {v : Val} {bytes : List Byte}
    (h : instrBytes syms at_ mn (.adr v) = .ok bytes) :
    ∃ op adr, isValueByte syms 0 255 v adr ∧
      ((bytes = [op, adr] ∧ findOpcode mn .ab = some op) ∨
        (bytes = [op, branchOperand adr (BitVec.ofNat 8 at_)] ∧ findOpcode mn .pc = some op)) := by
  obtain ⟨n, hn, h⟩ := except_bind_eq_ok.1 h
  obtain ⟨adr, hadr, h⟩ := except_bind_eq_ok.1 h
  have hv : isValueByte syms 0 255 v adr := ⟨n, hn, addressOf_eq_ok.1 hadr⟩
  cases hab : findOpcode mn .ab with
  | some op =>
    rw [hab] at h
    cases h
    exact ⟨op, adr, hv, .inl ⟨rfl, rfl⟩⟩
  | none =>
    rw [hab] at h
    obtain ⟨op, hop, h⟩ := except_bind_eq_ok.1 h
    cases h
    exact ⟨op, adr, hv, .inr ⟨rfl, opcodeFor_eq_ok.1 hop⟩⟩

theorem oneByteMode_operand {m : ModeCode} (h : oneByteMode m = true) (b : Byte) : modeOperand m b = [] := by
  cases m with
  | ih | im | ab | pc | ns | nx | ny => cases h
  | _ => rfl

/-- The bytes of an instruction are an opcode found for its mnemonic, in a mode that the written operand stands for, and
the operand byte of that mode. -/
theorem instrBytes_eq_ok {syms : Symbols} {at_ : Nat} {mn : String} {o : AsmOperand} {bytes : List Byte}
    (h : instrBytes syms at_ mn o = .ok bytes) :
    ∃ op mode b, bytes = op :: modeOperand mode b ∧ findOpcode mn mode = some op ∧
      NotationGives syms at_ mode (modeOperand mode b) o := by
  cases o with
  | none =>
    obtain ⟨op, rfl, hop⟩ := instrBytes_none_eq_ok h
    exact ⟨op, .ih, 0, rfl, hop, rfl, rfl⟩
  | data v =>
    rw [instrBytes_data] at h
    obtain ⟨op, b, rfl, hop, hb⟩ := dataBytes_eq_ok h
    exact ⟨op, .im, b, rfl, hop, rfl, b, hb, rfl⟩
  | nSP v =>
    rw [instrBytes_nSP] at h
    obtain ⟨op, b, rfl, hop, hb⟩ := dataBytes_eq_ok h
    exact ⟨op, .ns, b, rfl, hop, rfl, b, hb, rfl⟩
  | nX v =>
    rw [instrBytes_nX] at h
    obtain ⟨op, b, rfl, hop, hb⟩ := dataBytes_eq_ok h
    exact ⟨op, .nx, b, rfl, hop, rfl, b, hb, rfl⟩
  | nY v =>
    rw [instrBytes_nY] at h
    obtain ⟨op, b, rfl, hop, hb⟩ := dataBytes_eq_ok h
    exact ⟨op, .ny, b, rfl, hop, rfl, b, hb, rfl⟩
  | adr v =>
    obtain ⟨op, adr, hv, ⟨rfl, hop⟩ | ⟨rfl, hop⟩⟩ := instrBytes_adr_eq_ok h
    · exact ⟨op, .ab, adr, rfl, hop, adr, hv, .inl ⟨rfl, rfl⟩⟩
    · exact ⟨op, .pc, _, rfl, hop, adr, hv, .inr ⟨rfl, rfl⟩⟩
  | byMode m =>
    obtain ⟨op, rfl, hm, hop⟩ := instrBytes_byMode_eq_ok h
    have hnil := oneByteMode_operand hm 0
    exact ⟨op, m, 0, by rw [hnil], hop, rfl, hm, hnil⟩

/-- The way the operand is written fixes the length (R61, R64). -/
theorem NotationGives.length_succ {syms : Symbols} {at_ : Nat} {mode : ModeCode} {operand : List Byte} {o : AsmOperand}
    (h : NotationGives syms at_ mode operand o) : operand.length + 1 = asmLength o := by
  cases o with
  | none => obtain ⟨-, rfl⟩ := h; rfl
  | data | nSP | nX | nY => obtain ⟨-, b, -, rfl⟩ := h; rfl
  | adr => obtain ⟨adr, -, ⟨-, rfl⟩ | ⟨-, rfl⟩⟩ := h <;> rfl
  | byMode => obtain ⟨-, -, rfl⟩ := h; rfl

/-- Settles O59: the opcode was found in the map for that mnemonic and mode, and the mode fixes the operand bytes. -/
theorem assembledInstructionDecodes : Obligations.AssembledInstructionDecodes := by
  unfold Obligations.AssembledInstructionDecodes
  intro syms at_ mn o bytes h
  obtain ⟨op, mode, b, rfl, hop, hgives⟩ := instrBytes_eq_ok h
  obtain ⟨i, hdec, hform⟩ := decode_findOpcode hop b
  exact ⟨hgives.length_succ, i, mode, hdec, hform, hgives⟩

/-! ## Branches (R73, R83, 42_flow_control.md R143 to R159) -/

theorem addressOf_toNat (b : Byte) : addressOf b.toNat = .ok b :=
  addressOf_eq_ok.2 ⟨by omega, by omega, by simp⟩

/-- A mnemonic without the absolute mode takes an `Adr` as an offset. -/
theorem instrBytes_of_pc {syms : Symbols} {at_ : Nat} {mn : String} {v : Val} {op target : Byte}
    (hv : v.eval syms = .ok (target.toNat : Int)) (hab : findOpcode mn .ab = none)
    (hpc : findOpcode mn .pc = some op) :
    instrBytes syms at_ mn (.adr v) = .ok [op, branchOperand target (BitVec.ofNat 8 at_)] := by
  refine except_bind_eq_ok.2 ⟨_, hv, except_bind_eq_ok.2 ⟨_, addressOf_toNat target, ?_⟩⟩
  rw [hab]
  exact except_bind_eq_ok.2 ⟨op, opcodeFor_eq_ok.2 hpc, rfl⟩

/-- A branch mnemonic has no absolute mode, and its opcode in the relative mode is the encoder's. -/
theorem findOpcode_branch : ∀ e ∈ branchMnemonics,
    findOpcode e.1 .ab = none ∧ findOpcode e.1 .pc = (encode (e.2 0)).head? := by decide +kernel

theorem decodeOpcode_branch : ∀ e ∈ branchMnemonics,
    ∃ op, (encode (e.2 0)).head? = some op ∧ decodeOpcode op = .op8 e.2 := by
  intro e he
  fin_cases he <;> exact ⟨_, rfl, rfl⟩

theorem toNat_branchOperand (target pc : Byte) :
    ((branchOperand target pc).toNat : Int) = ((target.toNat : Int) - (pc.toNat + 2)) % 256 := by
  unfold branchOperand
  bv_omega

/-- The offset leads from the address after the branch back to the target, modulo 256 (R73, R83). -/
theorem add_branchOperand (target pc : Byte) : pc + 2 + branchOperand target pc = target := by
  unfold branchOperand
  bv_omega

/-- Each branch is `branchIf` of a Boolean that holds exactly under its condition. -/
theorem exec_branchConditions (off : Byte) (s : State) : ∀ e ∈ branchConditions off s.cc,
    ∃ cond : Bool, (cond = true ↔ e.2) ∧ exec e.1 s = .next (branchIf cond off s) := by
  intro e he
  fin_cases he <;> exact ⟨_, by simp, rfl⟩

/-- Settles O26: the search finds the branch's opcode, its operand is the offset, and a taken branch adds that to the
address after it. -/
theorem branchReachesEveryAddress : Obligations.BranchReachesEveryAddress := by
  unfold Obligations.BranchReachesEveryAddress
  intro syms adr target s hv
  refine ⟨fun e he => ?_, fun e he htaken => ?_, ?_⟩
  · obtain ⟨hab, hpc⟩ := findOpcode_branch e he
    obtain ⟨op, hhead, hop⟩ := decodeOpcode_branch e he
    refine ⟨op, branchOperand target s.pc, ?_, decode_of_op8 hop [], rfl, toNat_branchOperand target s.pc⟩
    rw [instrBytes_of_pc hv hab (hpc.trans hhead), BitVec.ofNat_toNat, BitVec.setWidth_eq]
  · obtain ⟨cond, hcond, hexec⟩ := exec_branchConditions _ s e he
    rw [hexec, branchIf_eq, if_pos (hcond.2 htaken), add_branchOperand]
  · exact ⟨_, exec_bsr _ s, add_branchOperand target s.pc⟩

end Sys2Proof.Machine
end

section
/-! Loads, LEA and stores (40_load_store.md R100 to R110): the one access of the operand, and then registers only. -/

namespace Sys2Proof.Machine

/-! ## A frame is kept by a later change of registers -/

theorem SameInputs.trans {s t u : State} (h : SameInputs s t) (hu : SameInputs t u) : SameInputs s u := by
  obtain ⟨hirq, hreset, hboundaries, hresets, hcycles⟩ := hu
  simpa only [SameInputs, hirq, hreset, hboundaries, hresets, hcycles] using h

/-- No register is memory, a port, an input or a counter. -/
theorem State.onlyRegisters_with (s : State) (a x y sp pc : Byte) (cc : CC) :
    OnlyRegisters s { s with a := a, x := x, y := y, sp := sp, pc := pc, cc := cc } :=
  ⟨fun _ => rfl, fun p => by cases p <;> rfl, rfl, rfl, rfl, rfl, rfl⟩

theorem State.onlyRegisters_advance (s : State) (len : Byte) : OnlyRegisters s (s.advance len) :=
  s.onlyRegisters_with s.a s.x s.y s.sp _ s.cc

theorem ReadsOperand.of_onlyRegisters {o : Operand} {s t u : State} (h : ReadsOperand o s t)
    (hu : OnlyRegisters t u) : ReadsOperand o s u := by
  obtain ⟨hmem, hports, hinputs⟩ := h
  obtain ⟨hmem', hports', hinputs'⟩ := hu
  exact ⟨fun b => (hmem' b).trans (hmem b), fun p => (hports' p).trans (hports p), hinputs.trans hinputs'⟩

theorem MemoryAfterWrite.of_sameMemory {ea v : Byte} {s t u : State} (h : MemoryAfterWrite ea v s t)
    (hu : SameMemory t u) : MemoryAfterWrite ea v s u := by
  obtain ⟨hself, hport, hother⟩ := h
  exact ⟨fun hp => (hu ea).trans (hself hp), fun hp b => (hu b).trans (hport hp b),
    fun b hb => (hu b).trans (hother b hb)⟩

theorem WritesByte.of_onlyRegisters {ea v : Byte} {s t u : State} (h : WritesByte ea v s t)
    (hu : OnlyRegisters t u) : WritesByte ea v s u := by
  obtain ⟨hmem, hports, hinputs⟩ := h
  obtain ⟨hmem', hports', hinputs'⟩ := hu
  exact ⟨hmem.of_sameMemory hmem', fun p => (hports' p).trans (hports p), hinputs.trans hinputs'⟩

/-! ## The flags and the access of a load (R33, R100 to R103) -/

theorem flagsLogic_of_cc_eq {r : Byte} {s t : State} (h : t.cc = s.cc.logic r) : FlagsLogic r s t := by
  simp [FlagsLogic, FlagsNZ, h]

theorem readOperand_x_eq_operandX (o : Operand) (s : State) : (readOperand o s).state.x = operandX o s.x := by
  cases o with
  | im d => rfl
  | mem m => exact readForm_x m s

theorem readOperand_y_eq_operandY (o : Operand) (s : State) : (readOperand o s).state.y = operandY o s.y := by
  cases o with
  | im d => rfl
  | mem m => exact readForm_y m s

theorem readsOperand_readOperand (o : Operand) (s : State) : ReadsOperand o s (readOperand o s).state :=
  ⟨fun b => by rw [readOperand_mem], readOperand_port o s, by simp [SameInputs]⟩

/-- What the four loads have in common: after the read they change registers, PC and the flags only. -/
theorem readOperand_load (o : Operand) (s : State) (a x y sp pc : Byte) :
    let t := { (readOperand o s).state with
      a := a, x := x, y := y, sp := sp, pc := pc
      cc := (readOperand o s).state.cc.logic (readOperand o s).value }
    FlagsLogic (operandValue o s) s t ∧ ReadsOperand o s t := by
  refine ⟨flagsLogic_of_cc_eq ?_, (readsOperand_readOperand o s).of_onlyRegisters ?_⟩
  · rw [readOperand_cc, readOperand_value]
  · exact State.onlyRegisters_with _ a x y sp pc _

/-- Settles O18: each load is one read of its operand and a change of registers; only LDA has the auto forms. -/
theorem loadsTakeTheOperand : Obligations.LoadsTakeTheOperand := by
  unfold Obligations.LoadsTakeTheOperand
  refine ⟨fun o s => ?_, fun o s ho => ?_⟩
  · obtain ⟨hflags, hreads⟩ := readOperand_load o s _ _ _ _ _
    exact ⟨_, exec_lda o s, readOperand_value o s, hflags, readOperand_x_eq_operandX o s,
      readOperand_y_eq_operandY o s, readOperand_sp o s, by simp, hreads⟩
  have hx := readOperand_x_of_data ho s
  have hy := readOperand_y_of_data ho s
  refine ⟨?_, ?_, ?_⟩
  · obtain ⟨hflags, hreads⟩ := readOperand_load o s _ _ _ _ _
    exact ⟨_, exec_ldx o s, readOperand_value o s, hflags, readOperand_a o s, hy, readOperand_sp o s, by simp, hreads⟩
  · obtain ⟨hflags, hreads⟩ := readOperand_load o s _ _ _ _ _
    exact ⟨_, exec_ldy o s, readOperand_value o s, hflags, readOperand_a o s, hx, readOperand_sp o s, by simp, hreads⟩
  · obtain ⟨hflags, hreads⟩ := readOperand_load o s _ _ _ _ _
    exact ⟨_, exec_ldsp o s, readOperand_value o s, hflags, readOperand_a o s, hx, hy, by simp, hreads⟩

/-! ## LEA (R104 to R106) -/

/-- Settles O19: the two-byte forms' addresses, by the execution rule of each instruction. -/
theorem leaTakesTheAddress : Obligations.LeaTakesTheAddress := by
  unfold Obligations.LeaTakesTheAddress
  exact fun n s => ⟨exec_leax (.nx n) s, exec_leax (.ns n) s, exec_leay (.ny n) s, exec_leay (.ns n) s,
    exec_leasp (.ns n) s, exec_leasp (.nx n) s, exec_leasp (.ny n) s⟩

/-! ## The access of a store (R107 to R110) -/

/-- What every byte reads as after a write, port or not, in the three cases of the frame. -/
theorem memoryAfterWrite_of_read {ea v : Byte} {s t : State}
    (h : ∀ b, t.mem.read b = if portAt ea = none ∧ b = ea then v else s.mem.read b) : MemoryAfterWrite ea v s t := by
  refine ⟨fun hmem => ?_, fun hport b => ?_, fun b hb => ?_⟩
  · rw [h, if_pos ⟨hmem, rfl⟩]
  · rw [h, if_neg fun hc => hport hc.1]
  · rw [h, if_neg fun hc => hb hc.2]

theorem writesByte_writeForm (m : MemForm) (v : Byte) (s : State) :
    WritesByte (formAddress m s) v s (writeForm m v s) :=
  ⟨memoryAfterWrite_of_read (writeForm_read m v s), writeForm_port m v s, by simp [SameInputs]⟩

theorem writesByte_writeForm_advance (m : MemForm) (v len : Byte) (s : State) :
    WritesByte (formAddress m s) v s ((writeForm m v s).advance len) :=
  (writesByte_writeForm m v s).of_onlyRegisters (State.onlyRegisters_advance _ len)

/-- The stores of X, Y and SP differ in the byte only. -/
theorem exec_stx_sty_stsp (m : MemForm) (s : State) :
    ∀ e ∈ [(Instr.stx m, s.x), (Instr.sty m, s.y), (Instr.stsp m, s.sp)],
      exec e.1 s = .next ((writeForm m e.2 s).advance (formLength m)) := by
  simp only [List.forall_mem_cons]
  exact ⟨exec_stx m s, exec_sty m s, exec_stsp m s, List.forall_mem_nil _⟩

/-- Settles O20: each store is one write of its register; only STA has the auto forms. -/
theorem storesWriteTheRegister : Obligations.StoresWriteTheRegister := by
  unfold Obligations.StoresWriteTheRegister
  refine ⟨fun m s => ?_, fun m s hm e he => ?_⟩
  · exact ⟨_, exec_sta m s, writesByte_writeForm_advance m s.a _ s, by simp⟩
  · exact ⟨_, exec_stx_sty_stsp m s e he, writesByte_writeForm_advance m e.2 _ s,
      by simp [formX_of_plain hm, formY_of_plain hm]⟩

end Sys2Proof.Machine
end

section
/-! Transfers and exchanges between registers (41_data_movement.md R120 to R131). -/

namespace Sys2Proof.Machine

/-! ## X, Y and SP (R122 to R127, R129 to R131) -/

/-- Settles O21: PC moves one on beside the move of registers, by the execution rule of each instruction. -/
theorem transfersAndExchanges : Obligations.TransfersAndExchanges := by
  unfold Obligations.TransfersAndExchanges
  exact fun s => ⟨exec_tfrXY s, exec_tfrYX s, exec_tfrXSP s, exec_tfrSPX s, exec_tfrYSP s, exec_tfrSPY s,
    exec_exgXY s, exec_exgXSP s, exec_exgYSP s⟩

/-! ## A and CC (R23, R120, R121, R128) -/

/-- Five flags weigh at most 31, so no bit of the sum is lost in the byte (R23). -/
theorem CC.toNat_toByte (f : CC) :
    f.toByte.toNat = 16 * f.i.toNat + 8 * f.n.toNat + 4 * f.z.toNat + 2 * f.v.toNat + f.c.toNat := by
  have hi := f.i.toNat_le
  have hn := f.n.toNat_le
  have hz := f.z.toNat_le
  have hv := f.v.toNat_le
  have hc := f.c.toNat_le
  exact (BitVec.toNat_ofNat _ _).trans (Nat.mod_eq_of_lt (by omega))

/-- Settles O22: the byte view of CC and the flags of a byte, with PC one on. -/
theorem movesBetweenAAndCC : Obligations.MovesBetweenAAndCC := by
  unfold Obligations.MovesBetweenAAndCC
  intro s
  refine ⟨exec_tfrACC s, ?_, ?_⟩
  · exact ⟨_, exec_tfrCCA s, rfl, s.cc.toNat_toByte⟩
  · exact ⟨_, exec_exgACC s, rfl, s.cc.toNat_toByte, rfl⟩

end Sys2Proof.Machine
end

section
/-! Program flow control (42_flow_control.md R140 to R161): jumps, branches, calls and returns; and the branches after a
compare (44_test.md R190 to R193). -/

namespace Sys2Proof.Machine

/-! ## JMP (R141) -/

/-- Settles O23: PC is the form's address, in each of the five forms of a target. -/
theorem jmpGoesToTheAddress : Obligations.JmpGoesToTheAddress := by
  unfold Obligations.JmpGoesToTheAddress
  exact fun n s => ⟨exec_jmp (.ab n) s, exec_jmp (.nx n) s, exec_jmp .ax s, exec_jmp (.ny n) s, exec_jmp .ay s⟩

/-! ## The frame of a push, and calls (10_state.md R36, R142, R144) -/

theorem State.writesByte_push (s : State) (v : Byte) : WritesByte (s.sp - 1) v s (s.push v) :=
  ⟨memoryAfterWrite_of_read (s.push_read v), s.push_port v, by simp [SameInputs]⟩

theorem State.pushesByte_push (s : State) (v : Byte) : PushesByte v s (s.push v) :=
  ⟨s.writesByte_push v, s.push_sp v, s.push_a v, s.push_x v, s.push_y v, s.push_cc v⟩

/-- The frame of a push leaves PC open. -/
theorem PushesByte.with_pc {v : Byte} {s t : State} (h : PushesByte v s t) (pc : Byte) :
    PushesByte v s { t with pc := pc } := by
  obtain ⟨hwrites, hregs⟩ := h
  exact ⟨hwrites.of_onlyRegisters (t.onlyRegisters_with t.a t.x t.y t.sp pc t.cc), hregs⟩

theorem pushesByte_callTo (len target : Byte) (s : State) : PushesByte (s.pc + len) s (callTo len target s) :=
  (s.pushesByte_push _).with_pc target

/-- Settles O24: JSR and BSR are calls, to the effective address and to `PCn + offset`. -/
theorem callsPushTheReturnAddress : Obligations.CallsPushTheReturnAddress := by
  unfold Obligations.CallsPushTheReturnAddress
  refine ⟨fun m s _ => ?_, fun off s => ?_⟩
  · exact ⟨_, exec_jsr m s, pushesByte_callTo _ _ s, callTo_pc _ _ s⟩
  · exact ⟨_, exec_bsr off s, pushesByte_callTo _ _ s, callTo_pc _ _ s⟩

/-! ## The frame of a pull, and returns (R36, R160, R161) -/

theorem State.pullsByte_pull (s : State) : PullsByte s s.pull.state := by
  refine ⟨fun b => ?_, fun p => ?_, ?_, s.pull_state_sp⟩
  · rw [State.pull_state_mem]
  · simp only [State.pull_state_port, Option.some.injEq]
  · simp [SameInputs]

/-- The frame of a pull leaves every register but SP open, and the flags. -/
theorem PullsByte.with_registers {s t : State} (h : PullsByte s t) (a x y pc : Byte) (cc : CC) :
    PullsByte s { t with a := a, x := x, y := y, pc := pc, cc := cc } := by
  obtain ⟨hmem, hports, hinputs, hsp⟩ := h
  obtain ⟨hmem', hports', hinputs'⟩ := t.onlyRegisters_with a x y t.sp pc cc
  exact ⟨fun b => (hmem' b).trans (hmem b), fun p => (hports' p).trans (hports p), hinputs.trans hinputs', hsp⟩

/-- Settles O27: RTS is a pull whose byte goes to PC. -/
theorem rtsPullsPC : Obligations.RtsPullsPC := by
  unfold Obligations.RtsPullsPC
  exact fun s => ⟨_, exec_rts s, s.pull_value, s.pullsByte_pull.with_registers _ _ _ _ _, s.pull_state_a,
    s.pull_state_x, s.pull_state_y, s.pull_state_cc⟩

/-- Settles O28: RTI is the return of an exception, five pulls; memory is the same, so each byte of it is. -/
theorem rtiPullsFiveBytes : Obligations.RtiPullsFiveBytes := by
  unfold Obligations.RtiPullsFiveBytes
  intro s
  obtain ⟨hcc, ha, hx, hy, hpc, hsp, hmem, hinputs, hports⟩ := s.leave_spec
  exact ⟨_, exec_rti s, hcc, ha, hx, hy, hpc, hsp, fun b => by rw [hmem], hinputs, hports⟩

/-! ## Branches (R143, R145 to R159) -/

theorem branchesIf_of_exec {i : Instr} {off : Byte} {cond : Bool} {P : Prop} {s : State} (hcond : cond = true ↔ P)
    (h : exec i s = .next (branchIf cond off s)) : BranchesIf i off P s := by
  rw [branchIf_eq] at h
  refine ⟨fun htaken => ?_, fun hnot => ?_⟩
  · rw [h, if_pos (hcond.2 htaken)]
  · rw [h, if_neg fun hc => hnot (hcond.1 hc)]

/-- Settles O25: each branch is `branchIf` of its condition. -/
theorem branchesFollowTheirCondition : Obligations.BranchesFollowTheirCondition := by
  unfold Obligations.BranchesFollowTheirCondition
  intro off s e he
  obtain ⟨cond, hcond, hexec⟩ := exec_branchConditions off s e he
  exact branchesIf_of_exec hcond hexec

theorem BranchesIf.congr {i : Instr} {off : Byte} {P Q : Prop} {s : State} (h : BranchesIf i off P s) (hPQ : P ↔ Q) :
    BranchesIf i off Q s := by
  rwa [propext hPQ] at h

/-! ## What the flags of a difference say of its operands (10_state.md R26, R28) -/

theorem sub8_r_eq_zero_iff (a m : Byte) : (sub8 a m false).r = 0 ↔ a = m := by
  have hr := sub8_toNat a m false
  rw [Bool.toNat_false] at hr
  bv_omega

theorem sub8_c_iff_lt (a m : Byte) : (sub8 a m false).c = true ↔ a.toNat < m.toNat := by
  rw [sub8_c_eq_lt, decide_eq_true_iff, Bool.toNat_false, Nat.add_zero]

/-- V corrects the sign of the difference: N and V differ exactly if the difference is negative. -/
theorem sub8_n_ne_v_iff (a m : Byte) :
    (sub8 a m false).r.getLsbD 7 ≠ (sub8 a m false).v ↔ a.toInt < m.toInt := by
  have hr := sub8_toNat a m false
  rw [Bool.toNat_false] at hr
  rw [ne_eq, Bool.eq_iff_iff, sub8_v, signedOverflow_eq_true_iff, Bool.toNat_false]
  simp only [toInt_eq_ite, getLsbD_seven, decide_eq_true_iff]
  omega

/-! ## Branches after a compare (R140, R148, R149, R152 to R159, R190 to R193) -/

/-- Where the flags are those of the difference of `r` and `m`, each branch tests its relation between the two. -/
theorem branchesIf_branchRelations {t : State} {f : CC} {r m : Byte} (hcc : t.cc = f.withNZVC (sub8 r m false))
    (off : Byte) : ∀ b ∈ branchRelations off r m, BranchesIf b.1 off b.2 t := by
  have hz : t.cc.z = true ↔ r = m := by
    rw [hcc, CC.withNZVC_z, decide_eq_true_iff, sub8_r_eq_zero_iff]
  have hc : t.cc.c = true ↔ r.toNat < m.toNat := by
    rw [hcc, CC.withNZVC_c, sub8_c_iff_lt]
  have hs : t.cc.n = t.cc.v ↔ ¬r.toInt < m.toInt := by
    rw [hcc, CC.withNZVC_n, CC.withNZVC_v, ← sub8_n_ne_v_iff, not_not]
  have hbranch := branchesFollowTheirCondition off t
  simp only [branchConditions, ne_eq, ← Bool.not_eq_true, hz, hc, hs, List.forall_mem_cons] at hbranch
  obtain ⟨-, -, -, hbeq, hbne, -, -, hbcs, hbcc, hbhi, hbls, hbgt, hble, hbge, hblt, -⟩ := hbranch
  simp only [branchRelations, List.forall_mem_cons]
  refine ⟨hbeq, hbne, hbhi.congr ?_, hbcc.congr Nat.not_lt, hbcs, hbls.congr ?_, hbgt.congr ?_, hbge.congr Int.not_lt,
    hblt.congr not_not, hble.congr ?_, List.forall_mem_nil _⟩
  · rw [← BitVec.toNat_inj]; omega
  · rw [← BitVec.toNat_inj]; omega
  · rw [← BitVec.toInt_inj]; omega
  · rw [← BitVec.toInt_inj]; omega

/-- The four compares differ in the register only. -/
theorem exec_compares (o : Operand) (s : State) :
    ∀ e ∈ [(Instr.cmpa o, s.a), (Instr.cmpx o, s.x), (Instr.cmpy o, s.y), (Instr.cmpsp o, s.sp)],
      exec e.1 s = .next (flagsOnly subEffect e.2 o s) := by
  simp only [List.forall_mem_cons]
  exact ⟨exec_cmpa o s, exec_cmpx o s, exec_cmpy o s, exec_cmpsp o s, List.forall_mem_nil _⟩

/-- Settles O36: a compare leaves the flags of the difference, and these decide the ten relations. -/
theorem compareThenBranch : Obligations.CompareThenBranch := by
  unfold Obligations.CompareThenBranch
  intro o off s e he _
  have hcc : (flagsOnly subEffect e.2 o s).cc = s.cc.withNZVC (sub8 e.2 (operandValue o s) false) := by
    rw [flagsOnly_cc, subEffect_cc]
  exact ⟨_, exec_compares o s e he, branchesIf_branchRelations hcc off⟩

end Sys2Proof.Machine
end

section
/-! Arithmetic (43_arithmetic.md R170 to R181) and the complement (45_logical.md R205, R206): the frames of the shared
operations, and the flags of each effect. -/

namespace Sys2Proof.Machine

/-! ## The frames of the shared operations -/

/-- Of an instruction with A and a source operand, only the read of the operand reaches outside the registers. -/
theorem combinesA_combineA (op : CC → Byte → Byte → Effect) {o : Operand} (ho : o.isData = true) (s : State) :
    CombinesA o s (combineA op o s) := by
  have hreads : ReadsOperand o s (combineA op o s) :=
    (readsOperand_readOperand o s).of_onlyRegisters (State.onlyRegisters_with ..)
  refine ⟨hreads, ?_, ?_, combineA_sp op o s, combineA_pc op o s⟩
  · rw [combineA_x, operandX_of_data ho]
  · rw [combineA_y, operandY_of_data ho]

theorem modifiesA_modifyA (op : CC → Byte → Effect) (s : State) : ModifiesA s (modifyA op s) :=
  ⟨s.onlyRegisters_with .., modifyA_x op s, modifyA_y op s, modifyA_sp op s, modifyA_pc op s⟩

/-- A plain form leaves its index register alone, so a read-modify-write changes one byte and PC. -/
theorem modifiesByte_modifyMem (op : CC → Byte → Effect) {m : MemForm} (hm : m.isPlain = true) (s : State) :
    ModifiesByte m (op s.cc (s.look (formAddress m s))).r s (modifyMem op m s) := by
  refine ⟨memoryAfterWrite_of_read (modifyMem_read op m s), modifyMem_port op m s, by simp [SameInputs],
    modifyMem_a op m s, ?_, ?_, modifyMem_sp op m s, modifyMem_pc op m s⟩
  · rw [modifyMem_x, formX_of_plain hm]
  · rw [modifyMem_y, formY_of_plain hm]

/-! ## Addition and subtraction (R170 to R173) -/

theorem flagsNZ_of_cc_withNZVC {o : Result} {s t : State} (h : t.cc = s.cc.withNZVC o) : FlagsNZ o.r s t := by
  simp [FlagsNZ, h]

theorem isSum_of_add8 {a m r : Byte} {cin : Bool} {s t : State} (hr : r = (add8 a m cin).r)
    (hcc : t.cc = s.cc.withNZVC (add8 a m cin)) : IsSum a m cin r s t := by
  subst hr
  refine ⟨add8_toNat a m cin, flagsNZ_of_cc_withNZVC hcc, ?_, ?_⟩
  · rw [hcc, CC.withNZVC_c, add8_c]
  · rw [hcc, CC.withNZVC_v, add8_v]

theorem isDifference_of_sub8 {a m r : Byte} {bin : Bool} {s t : State} (hr : r = (sub8 a m bin).r)
    (hcc : t.cc = s.cc.withNZVC (sub8 a m bin)) : IsDifference a m bin r s t := by
  subst hr
  refine ⟨sub8_toNat a m bin, flagsNZ_of_cc_withNZVC hcc, ?_, ?_⟩
  · rw [hcc, CC.withNZVC_c, sub8_c_eq_lt]
  · rw [hcc, CC.withNZVC_v, sub8_v]

/-- Settles O29: both combine A with the operand by `ADD8`, ADCA with C as its carry in. -/
theorem addaAdcaAdd : Obligations.AddaAdcaAdd := by
  unfold Obligations.AddaAdcaAdd
  intro o s ho
  constructor
  · exact ⟨_, exec_adda o s, isSum_of_add8 (combineA_a addEffect o s) (combineA_cc addEffect o s),
      combinesA_combineA addEffect ho s⟩
  · exact ⟨_, exec_adca o s, isSum_of_add8 (combineA_a adcEffect o s) (combineA_cc adcEffect o s),
      combinesA_combineA adcEffect ho s⟩

/-- Settles O30: both combine A with the operand by `SUB8`, SBCA with C as its borrow in. -/
theorem subaSbcaSubtract : Obligations.SubaSbcaSubtract := by
  unfold Obligations.SubaSbcaSubtract
  intro o s ho
  constructor
  · exact ⟨_, exec_suba o s, isDifference_of_sub8 (combineA_a subEffect o s) (combineA_cc subEffect o s),
      combinesA_combineA subEffect ho s⟩
  · exact ⟨_, exec_sbca o s, isDifference_of_sub8 (combineA_a sbcEffect o s) (combineA_cc sbcEffect o s),
      combinesA_combineA sbcEffect ho s⟩

/-! ## Numbers of two bytes (R171, R173) -/

/-- The result and C together are the whole sum: C weighs the 256 that the result lost. -/
theorem IsSum.weighted {a m r : Byte} {cin : Bool} {s t : State} (h : IsSum a m cin r s t) :
    256 * t.cc.c.toNat + r.toNat = a.toNat + m.toNat + cin.toNat := by
  obtain ⟨hr, -, hc, -⟩ := h
  have hcin := cin.toNat_lt
  rw [hr, hc, Bool.toNat, Bool.cond_decide]
  split <;> omega

/-- C weighs the 256 that the result of a subtraction gained. -/
theorem IsDifference.weighted {a m r : Byte} {bin : Bool} {s t : State} (h : IsDifference a m bin r s t) :
    256 * t.cc.c.toNat + a.toNat = r.toNat + m.toNat + bin.toNat := by
  obtain ⟨hr, -, hc, -⟩ := h
  have hbin := bin.toNat_lt
  rw [hc, Bool.toNat, Bool.cond_decide]
  split <;> omega

/-- The carry of the low bytes has in the high bytes the weight it has in the low sum. -/
theorem IsSum.two_bytes {al ml rl ah mh rh : Byte} {s t u w : State} (hlow : IsSum al ml false rl s t)
    (hhigh : IsSum ah mh t.cc.c rh u w) :
    256 * rh.toNat + rl.toNat = ((256 * ah.toNat + al.toNat) + (256 * mh.toNat + ml.toNat)) % 65536 ∧
      w.cc.c = decide (65536 ≤ (256 * ah.toNat + al.toNat) + (256 * mh.toNat + ml.toNat)) := by
  have hl := hlow.weighted
  have hh := hhigh.weighted
  obtain ⟨-, -, hc, -⟩ := hhigh
  rw [Bool.toNat_false] at hl
  rw [hc, decide_eq_decide]
  omega

/-- The borrow of the low bytes has in the high bytes the weight it has in the low difference. -/
theorem IsDifference.two_bytes {al ml rl ah mh rh : Byte} {s t u w : State} (hlow : IsDifference al ml false rl s t)
    (hhigh : IsDifference ah mh t.cc.c rh u w) :
    256 * (rh.toNat : Int) + rl.toNat =
        ((256 * (ah.toNat : Int) + al.toNat) - (256 * mh.toNat + ml.toNat)) % 65536 ∧
      w.cc.c = decide (256 * ah.toNat + al.toNat < 256 * mh.toNat + ml.toNat) := by
  have hl := hlow.weighted
  have hh := hhigh.weighted
  obtain ⟨-, -, hc, -⟩ := hhigh
  rw [Bool.toNat_false] at hl
  rw [hc, decide_eq_decide]
  omega

/-- Settles O31: the immediate forms of the two additions and of the two subtractions, composed through C. -/
theorem twoByteSumAndDifference : Obligations.TwoByteSumAndDifference := by
  unfold Obligations.TwoByteSumAndDifference
  intro s low
  constructor
  · obtain ⟨⟨t, ht, hlow, -⟩, -⟩ := addaAdcaAdd (.im low) s rfl
    refine ⟨t, ht, fun u high hc => ?_⟩
    obtain ⟨-, w, hw, hhigh, -⟩ := addaAdcaAdd (.im high) u rfl
    exact ⟨w, hw, hlow.two_bytes (hc ▸ hhigh)⟩
  · obtain ⟨⟨t, ht, hlow, -⟩, -⟩ := subaSbcaSubtract (.im low) s rfl
    refine ⟨t, ht, fun u high hc => ?_⟩
    obtain ⟨-, w, hw, hhigh, -⟩ := subaSbcaSubtract (.im high) u rfl
    exact ⟨w, hw, hlow.two_bytes (hc ▸ hhigh)⟩

/-! ## Clear (R174, R175) -/

/-- Settles O32: CLRA replaces A by 0; CLR is one write of 0, and then a change of CC and PC. -/
theorem clearWritesZero : Obligations.ClearWritesZero := by
  unfold Obligations.ClearWritesZero
  refine ⟨exec_clra, fun m s hm => ⟨_, exec_clr m s, ?_, ?_, ?_⟩⟩
  · exact (writesByte_writeForm m 0 s).of_onlyRegisters (State.onlyRegisters_with ..)
  · simp [CC.cleared]
  · simp [formX_of_plain hm, formY_of_plain hm]

/-! ## Negation and complement (R30, R33, R176, R177, R205, R206) -/

theorem neg8_r (m : Byte) : (neg8 m).r = 0 - m := by
  simp [neg8, BitVec.ofInt_neg]

theorem not_eq_xor_ones (m : Byte) : ~~~m = m ^^^ 0xFF := by
  rw [show (0xFF : Byte) = BitVec.allOnes 8 from rfl, BitVec.xor_allOnes]

theorem flags_of_negEffect {m : Byte} {s t : State} (h : t.cc = (negEffect s.cc m).cc) :
    FlagsNZ (0 - m) s t ∧ t.cc.v = decide (m = 0x80) ∧ t.cc.c = decide (m ≠ 0) := by
  rw [← neg8_r]
  exact ⟨flagsNZ_of_cc_withNZVC h, congrArg CC.v h, congrArg CC.c h⟩

theorem flagsLogic_of_comEffect {m : Byte} {s t : State} (h : t.cc = (comEffect s.cc m).cc) :
    FlagsLogic (m ^^^ 0xFF) s t := by
  rw [← not_eq_xor_ones]
  exact flagsLogic_of_cc_eq h

/-- Settles O33: each effect on A and on memory, with the result written as a difference and as an exclusive or. -/
theorem negateAndComplement : Obligations.NegateAndComplement := by
  unfold Obligations.NegateAndComplement
  refine ⟨⟨fun s => ?_, fun m s hm => ?_⟩, fun s => ?_, fun m s hm => ?_⟩
  · have ha : (modifyA negEffect s).a = 0 - s.a := neg8_r s.a
    obtain ⟨hnz, hv, hc⟩ := flags_of_negEffect (modifyA_cc negEffect s)
    exact ⟨_, exec_nega s, ha, ha ▸ hnz, hv, hc, modifiesA_modifyA negEffect s⟩
  · obtain ⟨hnz, hv, hc⟩ := flags_of_negEffect (modifyMem_cc negEffect m s)
    exact ⟨_, exec_neg m s, hnz, hv, hc, neg8_r _ ▸ modifiesByte_modifyMem negEffect hm s⟩
  · have ha : (modifyA comEffect s).a = s.a ^^^ 0xFF := not_eq_xor_ones s.a
    have hflags := flagsLogic_of_comEffect (modifyA_cc comEffect s)
    exact ⟨_, exec_coma s, ha, ha ▸ hflags, modifiesA_modifyA comEffect s⟩
  · have hflags := flagsLogic_of_comEffect (modifyMem_cc comEffect m s)
    exact ⟨_, exec_com m s, hflags, not_eq_xor_ones _ ▸ modifiesByte_modifyMem comEffect hm s⟩

/-! ## One step up or down (R29, R178 to R181) -/

theorem inc8_eq_add_one (m : Byte) : inc8 m = m + 1 := by
  simp [inc8, BitVec.ofNat_add]

theorem dec8_eq_sub_one (m : Byte) : dec8 m = m - 1 := by
  apply BitVec.eq_of_toNat_eq
  rw [dec8_toNat]
  split <;> bv_omega

theorem flags_of_withNZV {r : Byte} {v : Bool} {s t : State} (h : t.cc = s.cc.withNZV r v) :
    FlagsNZ r s t ∧ t.cc.v = v ∧ t.cc.c = s.cc.c := by
  simp [FlagsNZ, h]

theorem flags_of_incEffect {m : Byte} {s t : State} (h : t.cc = (incEffect s.cc m).cc) :
    FlagsNZ (m + 1) s t ∧ t.cc.v = decide (m = 0x7F) ∧ t.cc.c = s.cc.c := by
  rw [← inc8_eq_add_one]
  exact flags_of_withNZV h

theorem flags_of_decEffect {m : Byte} {s t : State} (h : t.cc = (decEffect s.cc m).cc) :
    FlagsNZ (m - 1) s t ∧ t.cc.v = decide (m = 0x80) ∧ t.cc.c = s.cc.c := by
  rw [← dec8_eq_sub_one]
  exact flags_of_withNZV h

/-- Settles O34: each effect on A and on memory, with the result written as a sum and as a difference. -/
theorem incrementAndDecrement : Obligations.IncrementAndDecrement := by
  unfold Obligations.IncrementAndDecrement
  refine ⟨fun s => ⟨?_, ?_⟩, fun m s hm => ⟨?_, ?_⟩⟩
  · have ha : (modifyA incEffect s).a = s.a + 1 := inc8_eq_add_one s.a
    obtain ⟨hnz, hv, hc⟩ := flags_of_incEffect (modifyA_cc incEffect s)
    exact ⟨_, exec_inca s, ha, ha ▸ hnz, hv, hc, modifiesA_modifyA incEffect s⟩
  · have ha : (modifyA decEffect s).a = s.a - 1 := dec8_eq_sub_one s.a
    obtain ⟨hnz, hv, hc⟩ := flags_of_decEffect (modifyA_cc decEffect s)
    exact ⟨_, exec_deca s, ha, ha ▸ hnz, hv, hc, modifiesA_modifyA decEffect s⟩
  · obtain ⟨hnz, hv, hc⟩ := flags_of_incEffect (modifyMem_cc incEffect m s)
    exact ⟨_, exec_inc m s, hnz, hv, hc, inc8_eq_add_one _ ▸ modifiesByte_modifyMem incEffect hm s⟩
  · obtain ⟨hnz, hv, hc⟩ := flags_of_decEffect (modifyMem_cc decEffect m s)
    exact ⟨_, exec_dec m s, hnz, hv, hc, dec8_eq_sub_one _ ▸ modifiesByte_modifyMem decEffect hm s⟩

end Sys2Proof.Machine
end

section
/-! Integer tests (44_test.md R190 to R196): the flags of each test, and the frame of an instruction that writes flags
only. -/

namespace Sys2Proof.Machine

/-! ## The frame of the compares and of BITA (R190 to R194) -/

/-- Of a test of a register against a source operand, only the read of the operand reaches outside the registers. -/
theorem combinesA_flagsOnly (op : CC → Byte → Byte → Effect) (reg : Byte) {o : Operand} (ho : o.isData = true)
    (s : State) : CombinesA o s (flagsOnly op reg o s) := by
  have hreads : ReadsOperand o s (flagsOnly op reg o s) :=
    (readsOperand_readOperand o s).of_onlyRegisters (State.onlyRegisters_with ..)
  refine ⟨hreads, ?_, ?_, flagsOnly_sp op reg o s, flagsOnly_pc op reg o s⟩
  · rw [flagsOnly_x, operandX_of_data ho]
  · rw [flagsOnly_y, operandY_of_data ho]

/-! ## Compares (R28, R190 to R193) -/

/-- CMPX and CMPY have some of the forms of CMPA, and CMPSP fewer still (30_encoding.md R79). -/
theorem isData_of_wellFormed_compare (o : Operand) (s : State) :
    ∀ e ∈ [(Instr.cmpa o, s.a), (Instr.cmpx o, s.x), (Instr.cmpy o, s.y), (Instr.cmpsp o, s.sp)],
      e.1.wellFormed = true → o.isData = true := by
  simp only [List.forall_mem_cons]
  exact ⟨id, Operand.isData_of_isCmpXY, Operand.isData_of_isCmpXY, Operand.isData_of_isCmpSP, List.forall_mem_nil _⟩

/-- Settles O35: a compare forms the difference by `SUB8`, and keeps its flags only. -/
theorem comparesSetTheFlags : Obligations.ComparesSetTheFlags := by
  unfold Obligations.ComparesSetTheFlags
  intro o s e he hw
  have ho := isData_of_wellFormed_compare o s e he hw
  exact ⟨_, (sub8 e.2 (operandValue o s) false).r, exec_compares o s e he,
    isDifference_of_sub8 rfl (flagsOnly_cc subEffect e.2 o s), combinesA_flagsOnly subEffect e.2 ho s,
    flagsOnly_a subEffect e.2 o s⟩

/-! ## BITA, TSTA and TST (R194 to R196) -/

/-- Settles O37: BITA keeps the flags of AND only; TSTA changes CC and PC; TST is one read, and then a change of CC and
PC. -/
theorem testsSetTheFlags : Obligations.TestsSetTheFlags := by
  unfold Obligations.TestsSetTheFlags
  refine ⟨fun o s ho => ?_, exec_tsta, fun m s hm => ?_⟩
  · exact ⟨_, exec_bita o s, flagsLogic_of_cc_eq (flagsOnly_cc andEffect s.a o s),
      combinesA_flagsOnly andEffect s.a ho s, flagsOnly_a andEffect s.a o s⟩
  · have hreads : ReadsOperand (.mem m) s (readForm m s).state := readsOperand_readOperand (.mem m) s
    exact ⟨_, exec_tst m s, by simp [FlagsNZ], rfl, rfl, hreads.of_onlyRegisters (State.onlyRegisters_with ..),
      by simp [formX_of_plain hm, formY_of_plain hm]⟩

end Sys2Proof.Machine
end

section
/-! Logical operations (45_logical.md R200 to R204): AND, OR, exclusive OR on A, and on the flags. -/

namespace Sys2Proof.Machine

/-! ## ANDA, ORA and EORA (R200 to R202) -/

/-- An instruction that combines A with its operand, and whose effect takes N and Z from the result, clears V and keeps
C and I (R33). -/
theorem logicOnA_of_exec {i : Instr} {op : CC → Byte → Byte → Effect} {o : Operand} {s : State}
    (hexec : exec i s = .next (combineA op o s)) (ho : o.isData = true)
    (hcc : ∀ (f : CC) (a m : Byte), (op f a m).cc = f.logic (op f a m).r) :
    ∃ t, exec i s = .next t ∧ t.a = (op s.cc s.a (operandValue o s)).r ∧
      FlagsLogic (op s.cc s.a (operandValue o s)).r s t ∧ CombinesA o s t := by
  have hflags : (combineA op o s).cc = s.cc.logic (op s.cc s.a (operandValue o s)).r :=
    (combineA_cc op o s).trans (hcc _ _ _)
  exact ⟨_, hexec, combineA_a op o s, flagsLogic_of_cc_eq hflags, combinesA_combineA op ho s⟩

/-- Settles O38: each of the three combines A with the operand, by an effect whose flags are those of its result. -/
theorem logicOnA : Obligations.LogicOnA := by
  unfold Obligations.LogicOnA
  intro o s ho
  simp only [List.forall_mem_cons]
  exact ⟨logicOnA_of_exec (exec_anda o s) ho andEffect_cc, logicOnA_of_exec (exec_ora o s) ho orEffect_cc,
    logicOnA_of_exec (exec_eora o s) ho eorEffect_cc, List.forall_mem_nil _⟩

/-! ## ANDCC and ORCC (R203, R204) -/

/-- Settles O39: `CC.andByte` and `CC.orByte` are the flag-by-flag operations, with PC two on. -/
theorem logicOnCC : Obligations.LogicOnCC := by
  unfold Obligations.LogicOnCC
  exact fun d s => ⟨exec_andcc d s, exec_orcc d s⟩

end Sys2Proof.Machine
end

section
/-! Shift and rotate (46_shift_rotate.md R210 to R219): the bits and flags of each shift, of A and of memory; and A with
C as a ring of nine bits. -/

namespace Sys2Proof.Machine

/-! ## Results and flags (10_state.md R31, R32) -/

section
variable {m r : Byte} {d : Bool} {s t : State}

theorem isLeftShift_of_shl8 (hr : r = (shl8 m d).r) (hcc : t.cc = s.cc.withNZVC (shl8 m d)) :
    IsLeftShift m d r s t := by
  subst hr
  have hv : t.cc.v = (t.cc.n ^^ t.cc.c) := by rw [hcc]; rfl
  exact ⟨fun k hk => shl8_getLsbD_succ m d hk, shl8_getLsbD_zero m d, flagsNZ_of_cc_withNZVC hcc,
    congrArg CC.c hcc, hv⟩

/-- V is set where the bit that enters differs from the old bit 7. -/
theorem isRightShift_of_shr8 {v : Bool} (hv : v = (d ^^ m.getLsbD 7)) (hr : r = (shr8 m d).r)
    (hcc : t.cc = s.cc.withNZVC (shr8 m d)) : IsRightShift m d v r s t := by
  subst hr hv
  exact ⟨fun k hk => shr8_getLsbD_of_lt m d hk, shr8_getLsbD_seven m d, flagsNZ_of_cc_withNZVC hcc,
    congrArg CC.c hcc, congrArg CC.v hcc⟩

theorem isRightShift_of_asr8 (hr : r = (asr8 m).r) (hcc : t.cc = s.cc.withNZVC (asr8 m)) :
    IsRightShift m (m.getLsbD 7) false r s t := by
  subst hr
  exact ⟨fun k hk => asr8_getLsbD_of_lt m hk, asr8_getLsbD_seven m, flagsNZ_of_cc_withNZVC hcc,
    congrArg CC.c hcc, congrArg CC.v hcc⟩

end

/-! ## A (R210, R212, R214, R216, R218) -/

theorem isLeftShift_rola (s : State) : IsLeftShift s.a s.cc.c (modifyA rolEffect s).a s (modifyA rolEffect s) :=
  isLeftShift_of_shl8 (modifyA_a rolEffect s) (modifyA_cc rolEffect s)

theorem isRightShift_rora (s : State) :
    IsRightShift s.a s.cc.c (s.cc.c ^^ s.a.getLsbD 7) (modifyA rorEffect s).a s (modifyA rorEffect s) :=
  isRightShift_of_shr8 rfl (modifyA_a rorEffect s) (modifyA_cc rorEffect s)

/-- Settles O40: each is its shift function on A; LSRA shifts in 0, so its V is the old bit 7. -/
theorem shiftsOfA : Obligations.ShiftsOfA := by
  unfold Obligations.ShiftsOfA
  intro s
  refine ⟨⟨_, exec_lsla s, ?_, modifiesA_modifyA lslEffect s⟩,
    ⟨_, exec_rola s, isLeftShift_rola s, modifiesA_modifyA rolEffect s⟩,
    ⟨_, exec_lsra s, ?_, modifiesA_modifyA lsrEffect s⟩,
    ⟨_, exec_rora s, isRightShift_rora s, modifiesA_modifyA rorEffect s⟩,
    ⟨_, exec_asra s, ?_, modifiesA_modifyA asrEffect s⟩⟩
  · exact isLeftShift_of_shl8 (modifyA_a lslEffect s) (modifyA_cc lslEffect s)
  · exact isRightShift_of_shr8 (Bool.false_xor _).symm (modifyA_a lsrEffect s) (modifyA_cc lsrEffect s)
  · exact isRightShift_of_asr8 (modifyA_a asrEffect s) (modifyA_cc asrEffect s)

/-! ## Memory (R211, R213, R215, R217, R219) -/

/-- Settles O41: each is its shift function on the byte at the effective address. -/
theorem shiftsOfMemory : Obligations.ShiftsOfMemory := by
  unfold Obligations.ShiftsOfMemory
  rintro m s old hm rfl
  refine ⟨⟨_, _, exec_lsl m s, ?_, modifiesByte_modifyMem lslEffect hm s⟩,
    ⟨_, _, exec_rol m s, ?_, modifiesByte_modifyMem rolEffect hm s⟩,
    ⟨_, _, exec_lsr m s, ?_, modifiesByte_modifyMem lsrEffect hm s⟩,
    ⟨_, _, exec_ror m s, ?_, modifiesByte_modifyMem rorEffect hm s⟩,
    ⟨_, _, exec_asr m s, ?_, modifiesByte_modifyMem asrEffect hm s⟩⟩
  · exact isLeftShift_of_shl8 rfl (modifyMem_cc lslEffect m s)
  · exact isLeftShift_of_shl8 rfl (modifyMem_cc rolEffect m s)
  · exact isRightShift_of_shr8 (Bool.false_xor _).symm rfl (modifyMem_cc lsrEffect m s)
  · exact isRightShift_of_shr8 rfl rfl (modifyMem_cc rorEffect m s)
  · exact isRightShift_of_asr8 rfl (modifyMem_cc asrEffect m s)

/-! ## An instruction executed several times -/

theorem execTimes_eq_iterate {i : Instr} {f : State → State} (h : ∀ s, exec i s = .next (f s)) (n : Nat)
    (s : State) : execTimes i n s = .next (f^[n] s) := by
  induction n generalizing s with
  | zero => rfl
  | succ n ih =>
    rw [execTimes, h s]
    exact ih (f s)

theorem iterate_modifyA_pc (op : CC → Byte → Effect) (n : Nat) (s : State) :
    ((modifyA op)^[n] s).pc = s.pc + BitVec.ofNat 8 n := by
  induction n with
  | zero => exact (BitVec.add_zero s.pc).symm
  | succ n ih =>
    rw [Function.iterate_succ_apply', modifyA_pc, ih, BitVec.add_assoc]
    exact congrArg (s.pc + ·) (BitVec.ofNat_add n 1).symm

/-! ## The ring of A and C (R216, R218) -/

/-- The nine bits that ROLA and RORA rotate: A, and C above its bit 7. Indices count modulo 9. -/
def State.ring (s : State) (k : Nat) : Bool := if k % 9 = 8 then s.cc.c else s.a.getLsbD (k % 9)

theorem State.ring_eq_bit (s : State) {j k : Nat} (hk : k % 9 = j) (hj : j ≠ 8) : s.ring k = s.a.getLsbD j := by
  subst hk
  exact if_neg hj

theorem State.ring_eq_carry (s : State) {k : Nat} (hk : k % 9 = 8) : s.ring k = s.cc.c := if_pos hk

theorem State.ring_add_nine (s : State) (k : Nat) : s.ring (k + 9) = s.ring k := by
  rw [State.ring, Nat.add_mod_right, State.ring]

theorem State.eq_of_ring_eq {s t : State} (h : ∀ k, t.ring k = s.ring k) : t.a = s.a ∧ t.cc.c = s.cc.c := by
  refine ⟨BitVec.eq_of_getLsbD_eq fun k hk => ?_, h 8⟩
  rw [← t.ring_eq_bit (k := k) (by omega) (by omega), ← s.ring_eq_bit (k := k) (by omega) (by omega), h]

/-- Bits 0 to 6 move up within A, bit 7 becomes C, and C becomes bit 0. -/
theorem IsLeftShift.ring_add_one {s t : State} (h : IsLeftShift s.a s.cc.c t.a s t) (k : Nat) :
    t.ring (k + 1) = s.ring k := by
  obtain ⟨hbits, hzero, -, hc, -⟩ := h
  obtain hk | hk | hk : k % 9 < 7 ∨ k % 9 = 7 ∨ k % 9 = 8 := by omega
  · rw [t.ring_eq_bit (j := k % 9 + 1) (by omega) (by omega), s.ring_eq_bit rfl (by omega), hbits _ hk]
  · rw [t.ring_eq_carry (by omega), s.ring_eq_bit hk (by decide), hc]
  · rw [t.ring_eq_bit (j := 0) (by omega) (by decide), s.ring_eq_carry hk, hzero]

/-- Bits 1 to 7 move down within A, C becomes bit 7, and bit 0 becomes C. -/
theorem IsRightShift.ring_eq {v : Bool} {s t : State} (h : IsRightShift s.a s.cc.c v t.a s t) (k : Nat) :
    t.ring k = s.ring (k + 1) := by
  obtain ⟨hbits, hseven, -, hc, -⟩ := h
  obtain hk | hk | hk : k % 9 < 7 ∨ k % 9 = 7 ∨ k % 9 = 8 := by omega
  · rw [t.ring_eq_bit rfl (by omega), s.ring_eq_bit (j := k % 9 + 1) (by omega) (by omega), hbits _ hk]
  · rw [t.ring_eq_bit hk (by decide), s.ring_eq_carry (by omega), hseven]
  · rw [t.ring_eq_carry hk, s.ring_eq_bit (j := 0) (by omega) (by decide), hc]

theorem iterate_rola_ring (n : Nat) (s : State) (k : Nat) :
    ((modifyA rolEffect)^[n] s).ring (k + n) = s.ring k := by
  induction n with
  | zero => rfl
  | succ n ih => rw [Function.iterate_succ_apply', ← Nat.add_assoc, (isLeftShift_rola _).ring_add_one, ih]

theorem iterate_rora_ring (n : Nat) (s : State) (k : Nat) :
    ((modifyA rorEffect)^[n] s).ring k = s.ring (k + n) := by
  induction n generalizing k with
  | zero => rfl
  | succ n ih =>
    rw [Function.iterate_succ_apply', (isRightShift_rora _).ring_eq, ih, Nat.add_right_comm, Nat.add_assoc]

/-- Settles O42: each rotation is one step around the ring, and nine steps are once around. -/
theorem nineRotationsRestore : Obligations.NineRotationsRestore := by
  unfold Obligations.NineRotationsRestore
  intro s
  have hrola (k : Nat) : ((modifyA rolEffect)^[9] s).ring k = s.ring k := by
    rw [← State.ring_add_nine, iterate_rola_ring]
  have hrora (k : Nat) : ((modifyA rorEffect)^[9] s).ring k = s.ring k := by
    rw [iterate_rora_ring, State.ring_add_nine]
  obtain ⟨hla, hlc⟩ := State.eq_of_ring_eq hrola
  obtain ⟨hra, hrc⟩ := State.eq_of_ring_eq hrora
  exact ⟨⟨_, execTimes_eq_iterate exec_rola 9 s, hla, hlc, iterate_modifyA_pc rolEffect 9 s⟩,
    ⟨_, execTimes_eq_iterate exec_rora 9 s, hra, hrc, iterate_modifyA_pc rorEffect 9 s⟩⟩

end Sys2Proof.Machine
end

section
/-! The eight stack instructions, and NOP (47_stack.md R230 to R237, 48_misc.md R240). -/

namespace Sys2Proof.Machine

/-- What the four pushes have in common: their meaning is a push, with PC one on. -/
theorem pushesByte_of_exec {i : Instr} {v : Byte} {s : State} (h : exec i s = .next ((s.push v).advance 1)) :
    ∃ t, exec i s = .next t ∧ PushesByte v s t ∧ t.pc = s.pc + 1 :=
  ⟨_, h, (s.pushesByte_push v).with_pc _, congrArg (· + 1) (s.push_pc v)⟩

/-- Settles O43: each is a push of its register, with PC one on. -/
theorem pushesWriteOneByte : Obligations.PushesWriteOneByte := by
  unfold Obligations.PushesWriteOneByte
  intro s
  simp only [List.forall_mem_cons]
  exact ⟨pushesByte_of_exec (exec_psha s), pushesByte_of_exec (exec_pshc s), pushesByte_of_exec (exec_pshx s),
    pushesByte_of_exec (exec_pshy s), by simp⟩

theorem State.pull_advance_pc (s : State) (len : Byte) : s.pull.state.pcNext len = s.pc + len :=
  congrArg (· + len) s.pull_state_pc

/-- The frame of a pull does not fix the register that takes the byte, nor PC. -/
theorem State.pullsByte_pull_with (s : State) (a x y pc : Byte) (cc : CC) :
    PullsByte s { s.pull.state with a := a, x := x, y := y, pc := pc, cc := cc } :=
  s.pullsByte_pull.with_registers a x y pc cc

/-- Settles O44: each is a pull whose byte goes to its register, with PC one on. -/
theorem pullsReadOneByte : Obligations.PullsReadOneByte := by
  unfold Obligations.PullsReadOneByte
  refine fun s => ⟨?_, ?_, ?_, ?_⟩
  · exact ⟨_, exec_pula s, s.pullsByte_pull_with _ _ _ _ _, s.pull_value, s.pull_state_x, s.pull_state_y,
      s.pull_state_cc, s.pull_advance_pc 1⟩
  · exact ⟨_, exec_pulx s, s.pullsByte_pull_with _ _ _ _ _, s.pull_value, s.pull_state_a, s.pull_state_y,
      s.pull_state_cc, s.pull_advance_pc 1⟩
  · exact ⟨_, exec_puly s, s.pullsByte_pull_with _ _ _ _ _, s.pull_value, s.pull_state_a, s.pull_state_x,
      s.pull_state_cc, s.pull_advance_pc 1⟩
  · exact ⟨_, exec_pulc s, s.pullsByte_pull_with _ _ _ _ _, congrArg CC.ofByte s.pull_value, s.pull_state_a,
      s.pull_state_x, s.pull_state_y, s.pull_advance_pc 1⟩

/-- Settles O46: the map's first cell, the cycle table, and a meaning that only advances PC. -/
theorem nopOnlyAdvances : Obligations.NopOnlyAdvances := by
  unfold Obligations.NopOnlyAdvances
  exact ⟨decode_of_op rfl, rfl, exec_nop⟩

end Sys2Proof.Machine
end

section
/-! The Trap, the IRQ and Reset: entry, priority, masking and return (60_exceptions.md R270 to R280,
70_reset_and_hazards.md R300). -/

namespace Sys2Proof.Machine

/-! ## Every step completes (R270, R272), and the invariant at Reset -/

/-- Settles O6, by the three cases of a boundary. -/
theorem stepAlwaysCompletes : Obligations.StepAlwaysCompletes := by
  unfold Obligations.StepAlwaysCompletes
  exact step_completes

/-- Settles O9: no cell is listed after Reset. -/
theorem invariantAtReset : Obligations.InvariantAtReset := by
  unfold Obligations.InvariantAtReset
  rfl

/-! ## Entry (R273 to R276) -/

/-- Settles O47: the Trap's entry, from the state in which PC is past the opcode. -/
theorem illegalOpcodeTakesTrap : Obligations.IllegalOpcodeTakesTrap := by
  unfold Obligations.IllegalOpcodeTakesTrap
  exact fun op s => ⟨_, exec_illegal op s, s.trapEntry_spec⟩

/-- The IRQ vector is a byte of memory (20_memory.md R40). -/
theorem portAt_irqVector : portAt irqVector = none := by decide

/-- The IRQ pushes the address of the instruction not executed and enters through its vector (R275); the boundary is
passed before, and the entry does not see it. -/
theorem State.irqEntry_spec (s : State) :
    EntersThrough irqVector s.pc s s.passBoundary.irqEntry ∧ SameInputs s.passBoundary s.passBoundary.irqEntry := by
  obtain ⟨henters, hinputs⟩ := s.passBoundary.enter_spec portAt_irqVector
  exact ⟨henters.of_eq rfl rfl rfl rfl rfl rfl s.passBoundary_port, hinputs⟩

theorem State.irqAccepted_of_unmasked {s : State} (hi : s.cc.i = false) (hsample : s.irqSample = true) :
    s.irqAccepted = true := by
  simp [State.irqAccepted, hi, hsample]

theorem State.irqAccepted_of_masked {s : State} (hi : s.cc.i = true) : s.irqAccepted = false := by
  simp [State.irqAccepted, hi]

/-- With I = 1 and no Reset an instruction is executed, whatever the interrupt line (R271). -/
theorem State.executes_of_masked {s : State} (hr : s.resetIn = false) (hi : s.cc.i = true) : s.executes = true := by
  simp [State.executes, hr, State.irqAccepted_of_masked hi]

/-- Settles O48: an accepted IRQ's step is the IRQ entry from the boundary passed. -/
theorem acceptedIrqIsTaken : Obligations.AcceptedIrqIsTaken := by
  unfold Obligations.AcceptedIrqIsTaken
  intro s hr hi hsample
  obtain ⟨henters, hirq, hreset, hboundaries, hresets, hcycles⟩ := s.irqEntry_spec
  exact ⟨_, step_of_irq hr (State.irqAccepted_of_unmasked hi hsample), henters, hirq, hboundaries, hreset.trans hr,
    hresets, hcycles⟩

/-! ## Priority (R278) -/

/-- An illegal opcode in memory at PC: its step is the Trap's entry from the boundary passed, since the fetch takes no
input of a port and the ghost counter gains nothing. -/
theorem step_of_illegal {s : State} (hx : s.executes = true) (hp : portAt s.pc = none)
    (hop : s.mem.read s.pc ∈ illegalOpcodes) : step s = .next s.passBoundary.trapEntry := by
  have hlook : s.passBoundary.look s.passBoundary.pc = s.mem.read s.pc := State.look_eq_read hp
  have hfetch : s.passBoundary.fetch = ⟨.illegal (s.mem.read s.pc), s.passBoundary⟩ := by
    rw [State.fetch_op (decodeOpcode_illegal (hlook ▸ hop)), hlook, State.passBoundary_pc, State.touch_eq_self hp]
  rw [step_of_executes hx, hfetch]
  rfl

/-- The Trap's entry does not see the boundary passed before it. -/
theorem State.trapEntry_passBoundary_spec (s : State) :
    EntersThrough trapVector (s.pc + 1) s s.passBoundary.trapEntry :=
  s.passBoundary.trapEntry_spec.1.of_eq rfl rfl rfl rfl rfl rfl s.passBoundary_port

/-- Settles O49: with I = 0 the request is accepted before any fetch; with I = 1 the illegal opcode is executed. -/
theorem irqGoesBeforeTrap : Obligations.IrqGoesBeforeTrap := by
  unfold Obligations.IrqGoesBeforeTrap
  intro s hr hsample hp hop
  cases hi : s.cc.i with
  | false => exact ⟨_, step_of_irq hr (State.irqAccepted_of_unmasked hi hsample), s.irqEntry_spec.1⟩
  | true => exact ⟨_, step_of_illegal (State.executes_of_masked hr hi) hp hop, s.trapEntry_passBoundary_spec⟩

/-- An entry sets I, so no IRQ is accepted right after it (R276, R278). -/
theorem EntersThrough.executes {vec pc : Byte} {s t : State} (h : EntersThrough vec pc s t)
    (hr : t.resetIn = false) : t.executes = true := by
  obtain ⟨-, -, -, -, hcc, -⟩ := h
  exact State.executes_of_masked hr (congrArg CC.i hcc)

/-- Settles O50: both entries set I and leave the Reset line alone. -/
theorem handlerStartsBeforeNextIrq : Obligations.HandlerStartsBeforeNextIrq := by
  unfold Obligations.HandlerStartsBeforeNextIrq
  rintro s t hr (⟨hirq, h⟩ | ⟨op, h⟩)
  · obtain ⟨henters, -, hreset, -⟩ := s.irqEntry_spec
    rw [step_of_irq hr hirq, Host.Outcome.next.injEq] at h
    exact h ▸ henters.executes (hreset.trans hr)
  · obtain ⟨henters, -, hreset, -⟩ := s.trapEntry_spec
    rw [exec_illegal, Host.Outcome.next.injEq] at h
    exact h ▸ henters.executes (hreset.trans hr)

/-! ## Return (R274, R280, 42_flow_control.md R161) -/

theorem portAt_of_mem_entryFrame {s : State} (hf : frameInMemory s = true) (pc : Byte) :
    ∀ e ∈ entryFrame pc s, portAt e.1 = none := by
  simpa [frameInMemory, entryFrame] using hf

/-- With the frame in memory an entry sends nothing to a port. -/
theorem EntersThrough.samePorts {vec pc : Byte} {s t : State} (h : EntersThrough vec pc s t)
    (hf : frameInMemory s = true) : SamePorts s t := by
  obtain ⟨-, -, -, -, -, -, -, -, hport⟩ := h
  intro p
  have hnone : (entryFrame pc s).find? (fun e => e.1 == p.address) = none :=
    List.find?_eq_none.2 fun e he => by simpa using portAt_eq_none.1 (portAt_of_mem_entryFrame hf pc e he) p
  rw [hport p, hnone]

/-- With the frame in memory each of its bytes is read back after the entry. -/
theorem EntersThrough.look_frame {vec pc : Byte} {s t : State} (h : EntersThrough vec pc s t)
    (hf : frameInMemory s = true) : ∀ e ∈ entryFrame pc s, t.look e.1 = e.2 := by
  obtain ⟨-, -, -, -, -, -, hframe, -, -⟩ := h
  intro e he
  have hmem := portAt_of_mem_entryFrame hf pc e he
  rw [State.look_eq_read hmem, hframe e he hmem]

/-- The pulls of a return are at the addresses of the frame, the last pushed first. -/
theorem return_addresses (a : Byte) :
    a - 5 + 1 = a - 4 ∧ a - 5 + 2 = a - 3 ∧ a - 5 + 3 = a - 2 ∧ a - 5 + 4 = a - 1 ∧ a - 5 + 5 = a := by
  refine ⟨?_, ?_, ?_, ?_, ?_⟩ <;> bv_omega

/-- With the frame in memory the return after an entry takes nothing from a port. -/
theorem EntersThrough.samePorts_leave {vec pc : Byte} {s t : State} (h : EntersThrough vec pc s t)
    (hf : frameInMemory s = true) : SamePorts s t.leave := by
  have hports := h.samePorts hf
  obtain ⟨hsp, -⟩ := h
  obtain ⟨-, -, -, -, -, -, -, -, hleave⟩ := t.leave_spec
  have hpulled : [t.sp, t.sp + 1, t.sp + 2, t.sp + 3, t.sp + 4] = ((entryFrame pc s).map Prod.fst).reverse := by
    obtain ⟨e1, e2, e3, e4, -⟩ := return_addresses s.sp
    rw [hsp, e1, e2, e3, e4]
    rfl
  intro p
  have hother : p.address ∉ ((entryFrame pc s).map Prod.fst).reverse := by
    rw [List.mem_reverse, List.mem_map]
    rintro ⟨e, he, haddr⟩
    exact portAt_eq_none.1 (portAt_of_mem_entryFrame hf pc e he) p haddr
  rw [hleave p, hpulled, if_neg hother, hports p]

/-- RTI right after an entry, with the frame in memory: the registers, the flags with the old I, and the saved PC. -/
theorem EntersThrough.exec_rti {vec pc : Byte} {s t : State} (h : EntersThrough vec pc s t)
    (hf : frameInMemory s = true) :
    ∃ u, exec .rti t = .next u ∧
      u.a = s.a ∧ u.x = s.x ∧ u.y = s.y ∧ u.sp = s.sp ∧ u.cc = s.cc ∧ u.pc = pc ∧ SamePorts s u := by
  have hports := h.samePorts_leave hf
  have hlook := h.look_frame hf
  simp only [entryFrame, List.forall_mem_cons] at hlook
  obtain ⟨lpc, ly, lx, la, lcc, -⟩ := hlook
  obtain ⟨hsp, -⟩ := h
  obtain ⟨e1, e2, e3, e4, e5⟩ := return_addresses s.sp
  obtain ⟨hcc, ha, hx, hy, hpc, husp, -⟩ := t.leave_spec
  rw [hsp] at hcc ha hx hy hpc husp
  rw [lcc, CC.ofByte_toByte] at hcc
  rw [e1, la] at ha
  rw [e2, lx] at hx
  rw [e3, ly] at hy
  rw [e4, lpc] at hpc
  rw [e5] at husp
  exact ⟨_, Machine.exec_rti t, ha, hx, hy, husp, hcc, hpc, hports⟩

/-- Settles O52: both entries push a frame that RTI pulls. -/
theorem rtiUndoesEntry : Obligations.RtiUndoesEntry := by
  unfold Obligations.RtiUndoesEntry
  refine fun s hf => ⟨fun hr hirq => ?_, fun op => ?_⟩
  · obtain ⟨u, hu⟩ := s.irqEntry_spec.1.exec_rti hf
    exact ⟨_, u, step_of_irq hr hirq, hu⟩
  · obtain ⟨u, hu⟩ := s.trapEntry_spec.1.exec_rti hf
    exact ⟨_, u, exec_illegal op s, hu⟩

/-! ## Reset (R300) -/

theorem State.resetEvent_port (s : State) (p : Port) : s.resetEvent.port p = s.port p := by
  rw [State.resetEvent_eq]
  cases p <;> rfl

theorem State.resetEntry_port (s : State) (p : Port) : s.resetEntry.port p = s.port p := by
  rw [State.resetEntry, State.resetEvent_port]
  cases p <;> rfl

/-- Settles O53: the Reset event's equation, after the boundary is passed and the request withdrawn. -/
theorem resetTakenAtBoundary : Obligations.ResetTakenAtBoundary := by
  unfold Obligations.ResetTakenAtBoundary
  intro s hr
  refine ⟨_, step_of_reset hr, ?_, ?_, ?_, fun p => ?_, ?_⟩
  · rw [State.resetEntry, State.resetEvent_eq]
  · rw [State.resetEntry, State.resetEvent_eq]; rfl
  · rw [State.resetEntry, State.resetEvent_eq]; rfl
  · rw [State.resetEntry_port, State.passBoundary_port]
  · rw [State.resetEntry, State.resetEvent_eq]

end Sys2Proof.Machine
end

section
/-! Noninterference of the interrupt line (60_exceptions.md R271): beside the sample at the boundary, no step sees it. -/

namespace Sys2Proof.Machine

/-- The same machine under another sequence of interrupt samples. -/
def State.withIrq (s : State) (line : List Bool) : State := { s with irqIn := line }

/-- The same byte read, under another sequence of interrupt samples. -/
def Read.withIrq (r : Read) (line : List Bool) : Read := ⟨r.value, r.state.withIrq line⟩

@[simp] theorem State.withIrq_a (s : State) (line : List Bool) : (s.withIrq line).a = s.a := rfl
@[simp] theorem State.withIrq_x (s : State) (line : List Bool) : (s.withIrq line).x = s.x := rfl
@[simp] theorem State.withIrq_y (s : State) (line : List Bool) : (s.withIrq line).y = s.y := rfl
@[simp] theorem State.withIrq_sp (s : State) (line : List Bool) : (s.withIrq line).sp = s.sp := rfl
@[simp] theorem State.withIrq_pc (s : State) (line : List Bool) : (s.withIrq line).pc = s.pc := rfl
@[simp] theorem State.withIrq_cc (s : State) (line : List Bool) : (s.withIrq line).cc = s.cc := rfl
@[simp] theorem State.withIrq_resetIn (s : State) (line : List Bool) : (s.withIrq line).resetIn = s.resetIn := rfl
@[simp] theorem State.withIrq_port (s : State) (line : List Bool) (p : Port) :
    (s.withIrq line).port p = s.port p := by cases p <;> rfl

/-! ## One access (20_memory.md R44, R45) -/

theorem State.look_withIrq (s : State) (line : List Bool) (addr : Byte) : (s.withIrq line).look addr = s.look addr :=
  State.look_eq_of rfl (s.withIrq_port line)

theorem State.touch_withIrq (s : State) (line : List Bool) (addr : Byte) :
    (s.withIrq line).touch addr = (s.touch addr).withIrq line := by
  cases h : portAt addr with
  | none => rw [State.touch_eq_self h, State.touch_eq_self h]
  | some p => simp only [State.touch, h]; cases p <;> rfl

theorem State.readByte_withIrq (s : State) (line : List Bool) (addr : Byte) :
    (s.withIrq line).readByte addr = (s.readByte addr).withIrq line := by
  rw [State.readByte, State.look_withIrq, State.touch_withIrq]
  rfl

theorem State.store_withIrq (s : State) (line : List Bool) (addr v : Byte) :
    (s.withIrq line).store addr v = (s.store addr v).withIrq line := by
  cases h : portAt addr with
  | none => simp only [State.store, h]; rfl
  | some p => simp only [State.store, h]; cases p <;> rfl

/-! ## Operands -/

theorem preIndex_withIrq (m : MemForm) (s : State) (line : List Bool) :
    preIndex m (s.withIrq line) = (preIndex m s).withIrq line := by
  cases m <;> rfl

theorem postIndex_withIrq (m : MemForm) (s : State) (line : List Bool) :
    postIndex m (s.withIrq line) = (postIndex m s).withIrq line := by
  cases m <;> rfl

theorem effectiveAddress_withIrq (m : MemForm) (s : State) (line : List Bool) :
    effectiveAddress m (s.withIrq line) = effectiveAddress m s := by
  cases m <;> rfl

theorem formAddress_withIrq (m : MemForm) (s : State) (line : List Bool) :
    formAddress m (s.withIrq line) = formAddress m s := by
  rw [formAddress, preIndex_withIrq, effectiveAddress_withIrq, formAddress]

theorem readForm_withIrq (m : MemForm) (s : State) (line : List Bool) :
    readForm m (s.withIrq line) = (readForm m s).withIrq line := by
  simp only [readForm, preIndex_withIrq, effectiveAddress_withIrq, State.readByte_withIrq, Read.withIrq,
    postIndex_withIrq]

theorem readOperand_withIrq (o : Operand) (s : State) (line : List Bool) :
    readOperand o (s.withIrq line) = (readOperand o s).withIrq line := by
  cases o with
  | im d => rfl
  | mem m => exact readForm_withIrq m s line

theorem writeForm_withIrq (m : MemForm) (v : Byte) (s : State) (line : List Bool) :
    writeForm m v (s.withIrq line) = (writeForm m v s).withIrq line := by
  simp only [writeForm, preIndex_withIrq, effectiveAddress_withIrq, State.store_withIrq, postIndex_withIrq]

theorem modifyForm_withIrq (op : CC → Byte → Effect) (m : MemForm) (s : State) (line : List Bool) :
    modifyForm op m (s.withIrq line) = (modifyForm op m s).withIrq line := by
  rw [modifyForm_eq, modifyForm_eq, ← postIndex_withIrq, formAddress_withIrq, preIndex_withIrq, State.touch_withIrq,
    State.store_withIrq, State.look_withIrq]
  rfl

theorem modifyMem_withIrq (op : CC → Byte → Effect) (m : MemForm) (s : State) (line : List Bool) :
    modifyMem op m (s.withIrq line) = (modifyMem op m s).withIrq line :=
  congrArg (fun u => u.advance (formLength m)) (modifyForm_withIrq op m s line)

theorem combineA_withIrq (op : CC → Byte → Byte → Effect) (o : Operand) (s : State) (line : List Bool) :
    combineA op o (s.withIrq line) = (combineA op o s).withIrq line := by
  simp only [combineA, readOperand_withIrq]
  rfl

theorem flagsOnly_withIrq (op : CC → Byte → Byte → Effect) (reg : Byte) (o : Operand) (s : State)
    (line : List Bool) : flagsOnly op reg o (s.withIrq line) = (flagsOnly op reg o s).withIrq line := by
  simp only [flagsOnly, readOperand_withIrq]
  rfl

theorem branchIf_withIrq (cond : Bool) (off : Byte) (s : State) (line : List Bool) :
    branchIf cond off (s.withIrq line) = (branchIf cond off s).withIrq line := by
  cases cond <;> rfl

/-! ## The stack, entry and return -/

theorem State.push_withIrq (s : State) (line : List Bool) (v : Byte) :
    (s.withIrq line).push v = (s.push v).withIrq line :=
  State.store_withIrq { s with sp := s.sp - 1 } line (s.sp - 1) v

theorem State.pull_withIrq (s : State) (line : List Bool) : (s.withIrq line).pull = s.pull.withIrq line := by
  simp only [State.pull]
  rw [State.readByte_withIrq]
  rfl

theorem callTo_withIrq (len target : Byte) (s : State) (line : List Bool) :
    callTo len target (s.withIrq line) = (callTo len target s).withIrq line := by
  rw [callTo_eq, State.push_withIrq]
  rfl

theorem State.pushFrame_withIrq (s : State) (line : List Bool) :
    (s.withIrq line).pushFrame = s.pushFrame.withIrq line := by
  simp only [State.pushFrame, State.push_withIrq, State.withIrq_a, State.withIrq_x, State.withIrq_y, State.withIrq_pc,
    State.withIrq_cc]

theorem State.enter_eq (s : State) {vec : Byte} (hv : portAt vec = none) :
    s.enter vec = { s.pushFrame with
      cc := { s.pushFrame.cc with i := true }
      pc := s.pushFrame.mem.read vec } := by
  simp only [State.enter, State.readByte, State.touch_eq_self hv, State.look_eq_read hv]

theorem State.enter_withIrq (s : State) (line : List Bool) {vec : Byte} (hv : portAt vec = none) :
    (s.withIrq line).enter vec = (s.enter vec).withIrq line := by
  rw [State.enter_eq _ hv, State.enter_eq _ hv, State.pushFrame_withIrq]
  generalize s.pushFrame = u
  rfl

theorem State.trapEntry_withIrq (s : State) (line : List Bool) :
    (s.withIrq line).trapEntry = s.trapEntry.withIrq line := by
  have hadvance : (s.withIrq line).advance 1 = (s.advance 1).withIrq line := rfl
  rw [State.trapEntry, hadvance, State.enter_withIrq _ line portAt_trapVector, State.trapEntry]

/-- Field by field, from what the five pulls load and take. -/
theorem State.leave_withIrq (s : State) (line : List Bool) : (s.withIrq line).leave = s.leave.withIrq line := by
  obtain ⟨hcc, ha, hx, hy, hpc, hsp, hmem, ⟨-, hreset, hboundaries, hresets, hcycles⟩, hport⟩ := s.leave_spec
  obtain ⟨hcc', ha', hx', hy', hpc', hsp', hmem', ⟨hirq', hreset', hboundaries', hresets', hcycles'⟩, hport'⟩ :=
    (s.withIrq line).leave_spec
  simp only [State.look_withIrq, State.withIrq_sp, State.withIrq_port] at hcc' ha' hx' hy' hpc' hsp' hport'
  generalize s.leave = u, (s.withIrq line).leave = u' at *
  refine State.eq_of_port (ha'.trans ha.symm) (hx'.trans hx.symm) (hy'.trans hy.symm) (hsp'.trans hsp.symm)
    (hpc'.trans hpc.symm) (hcc'.trans hcc.symm) (hmem'.trans hmem.symm) (fun p => ?_) ?_
  · rw [hport' p, State.withIrq_port, hport p]
  · exact ⟨hirq', hreset'.trans hreset.symm, hboundaries'.trans hboundaries.symm, hresets'.trans hresets.symm,
      hcycles'.trans hcycles.symm⟩

/-! ## Every instruction and its fetch -/

/-- An instruction reaches the machine through the shared operations and the registers, none of which is the line. -/
theorem exec_withIrq {i : Instr} {s t : State} (line : List Bool) (h : exec i s = .next t) :
    exec i (s.withIrq line) = .next (t.withIrq line) := by
  refine of_exec_eq_next (motive := fun t => exec i (s.withIrq line) = .next (t.withIrq line)) h ?_
  cases i with
  | lda o | ldx o | ldy o | ldsp o =>
    exact ⟨_, rfl, by simp only [exec_lda, exec_ldx, exec_ldy, exec_ldsp, readOperand_withIrq]; rfl⟩
  | adda o | adca o | suba o | sbca o | anda o | ora o | eora o =>
    exact ⟨_, rfl, congrArg _ (combineA_withIrq _ o s line)⟩
  | cmpa o | cmpx o | cmpy o | cmpsp o | bita o => exact ⟨_, rfl, congrArg _ (flagsOnly_withIrq _ _ o s line)⟩
  | tst m => exact ⟨_, rfl, by rw [exec_tst, readForm_withIrq]; rfl⟩
  | leax m | leay m | leasp m | jmp m =>
    exact ⟨_, rfl, by simp only [exec_leax, exec_leay, exec_leasp, exec_jmp, formAddress_withIrq]; rfl⟩
  | sta m | stx m | sty m | stsp m =>
    exact ⟨_, rfl, congrArg (fun u => Host.Outcome.next (State.advance u (formLength m))) (writeForm_withIrq m _ s line)⟩
  | clr m => exact ⟨_, rfl, by rw [exec_clr, writeForm_withIrq]; rfl⟩
  | neg m | inc m | dec m | com m | lsl m | lsr m | asr m | rol m | ror m =>
    exact ⟨_, rfl, congrArg _ (modifyMem_withIrq _ m s line)⟩
  | bra | bmi | bpl | beq | bne | bvs | bvc | bcs | bcc | bhi | bls | bgt | bge | ble | blt =>
    exact ⟨_, rfl, congrArg _ (branchIf_withIrq _ _ s line)⟩
  | jsr m => exact ⟨_, rfl, by rw [exec_jsr, formAddress_withIrq, callTo_withIrq]⟩
  | bsr off => exact ⟨_, rfl, congrArg _ (callTo_withIrq 2 _ s line)⟩
  | psha | pshc | pshx | pshy => exact ⟨_, rfl, congrArg (fun u => Host.Outcome.next (State.advance u 1)) (s.push_withIrq line _)⟩
  | pula | pulc | pulx | puly | rts =>
    exact ⟨_, rfl, by simp only [exec_pula, exec_pulc, exec_pulx, exec_puly, exec_rts, State.pull_withIrq]; rfl⟩
  | rti => exact ⟨_, exec_rti s, by rw [exec_rti, State.leave_withIrq]⟩
  | illegal op => exact ⟨_, exec_illegal op s, by rw [exec_illegal, State.trapEntry_withIrq]⟩
  | _ => exact ⟨_, rfl, rfl⟩

theorem State.fetch_withIrq (s : State) (line : List Bool) :
    (s.withIrq line).fetch = ⟨s.fetch.instr, s.fetch.state.withIrq line⟩ := by
  have hlook : (s.withIrq line).look (s.withIrq line).pc = s.look s.pc := s.look_withIrq line s.pc
  rcases h : decodeOpcode (s.look s.pc) with i | f
  · rw [State.fetch_op (hlook ▸ h), State.fetch_op h, State.withIrq_pc, State.touch_withIrq]
  · rw [State.fetch_op8 (hlook ▸ h), State.fetch_op8 h, State.withIrq_pc, State.look_withIrq, State.touch_withIrq,
      State.touch_withIrq]

/-- Settles O51: with I = 1 both steps execute the instruction at PC, from states that differ in the samples only. -/
theorem maskedRequestIsIgnored : Obligations.MaskedRequestIsIgnored := by
  unfold Obligations.MaskedRequestIsIgnored
  intro s t line hr hi h
  have hx : s.executes = true := State.executes_of_masked hr hi
  have hx' : (s.withIrq line).executes = true := State.executes_of_masked hr hi
  have hpass : (s.withIrq line).passBoundary = s.passBoundary.withIrq line.tail := rfl
  rw [step_of_executes hx] at h
  change step (s.withIrq line) = .next (t.withIrq line.tail)
  rw [step_of_executes hx', hpass, State.fetch_withIrq]
  exact exec_withIrq line.tail h

end Sys2Proof.Machine
end

section
/-! The ALU, the selectors of CC and the control signals against the instruction rules (50_microarchitecture.md R252 to
R261). -/

namespace Sys2Proof.Machine

/-! ## The arithmetic rows of the ALU (R253, R254) -/

theorem setWidth_ofBool (b : Bool) : (BitVec.ofBool b).setWidth 8 = BitVec.ofNat 8 b.toNat := by
  cases b <;> rfl

/-- V by note (2) of R254 is V of `ADD8`: the operands' signs agree and the sum's differs. -/
theorem aluAdd_eq_add8 (d e : Byte) (cin : Bool) : aluAdd d e cin = add8 d e cin := by
  have hr : (aluAdd d e cin).r = (add8 d e cin).r := by
    apply BitVec.eq_of_toNat_eq
    simp [aluAdd, setWidth_ofBool, add8]
  have hv : (aluAdd d e cin).v = (add8 d e cin).v := by
    change (d.getLsbD 7 && e.getLsbD 7 && !(aluAdd d e cin).r.getLsbD 7 ||
        !d.getLsbD 7 && !e.getLsbD 7 && (aluAdd d e cin).r.getLsbD 7) =
      ((d.getLsbD 7 == e.getLsbD 7) && (add8 d e cin).r.getLsbD 7 != d.getLsbD 7)
    rw [hr]
    generalize d.getLsbD 7 = x, e.getLsbD 7 = y, (add8 d e cin).r.getLsbD 7 = z
    revert x y z
    decide
  exact Result.eq_of_parts hr hv rfl

/-- The row with the complement: V of a sum with the complement is V of the difference, and C is the carry inverted
(R28, R253, C12). -/
theorem alu_sub (d e : Byte) (c : Bool) : alu 0b1100 d e (!c) = sub8 d e c := by
  have hv : (add8 d (~~~e) (!c)).v = (sub8 d e c).v := by
    have hsign : (~~~e).getLsbD 7 = !e.getLsbD 7 := by simp
    rw [Bool.eq_iff_iff, add8_v_iff, sub8_v_iff, sub8_r_eq_add8, hsign, Bool.eq_not]
  change { aluAdd d (~~~e) (!c) with c := !(aluAdd d (~~~e) (!c)).c } = _
  rw [aluAdd_eq_add8]
  exact Result.eq_of_parts (sub8_r_eq_add8 d e c).symm hv (sub8_c_eq_not_add8 d e c).symm

theorem alu_neg (d e : Byte) : alu 0b0101 d e true = neg8 d := by
  have hr : ~~~d + 1 = (neg8 d).r := by rw [neg8_r]; bv_omega
  exact Result.eq_of_parts hr rfl rfl

/-- Adding the carry in alone is one step up, which leaves the signed bytes from 127 only. -/
theorem alu_inc (d e : Byte) :
    (alu 0b1001 d e true).r = inc8 d ∧ (alu 0b1001 d e true).v = decide (d = 0x7F) := by
  have hrow : alu 0b1001 d e true = add8 d 0 true := aluAdd_eq_add8 d 0 true
  rw [hrow]
  constructor
  · apply BitVec.eq_of_toNat_eq
    rw [add8_toNat, inc8_toNat]
    rfl
  · have hzero : (0 : Byte).toInt = 0 := rfl
    rw [add8_v, signedOverflow, decide_eq_decide, toInt_eq_ite d, hzero, Bool.toNat_true]
    bv_omega

/-- Adding $FF with no carry is one step down, which leaves the signed bytes from -128 only. -/
theorem alu_dec (d e : Byte) (c : Bool) :
    (alu 0b1010 d e c).r = dec8 d ∧ (alu 0b1010 d e c).v = decide (d = 0x80) := by
  have hrow : alu 0b1010 d e c = add8 d 0xFF false := aluAdd_eq_add8 d 0xFF false
  rw [hrow]
  constructor
  · apply BitVec.eq_of_toNat_eq
    rw [add8_toNat, dec8_eq_sub_one, Bool.toNat_false]
    bv_omega
  · have hones : (0xFF : Byte).toInt = -1 := rfl
    rw [add8_v, signedOverflow, decide_eq_decide, toInt_eq_ite d, hones, Bool.toNat_false]
    bv_omega

theorem alu_shl (d e : Byte) (c : Bool) : alu 0b1101 d e c = shl8 d c := by
  have hr : (d <<< 1) ||| (BitVec.ofBool c).setWidth 8 = (shl8 d c).r := by rw [setWidth_ofBool, shl8_r]
  have hv : (d.getLsbD 7 ^^ d.getLsbD 6) = (shl8 d c).v := by rw [shl8_v, Bool.xor_comm]
  exact Result.eq_of_parts hr hv rfl

theorem alu_shr (d e : Byte) (c : Bool) : alu 0b1110 d e c = shr8 d c := by
  have hr : (d >>> 1) ||| ((BitVec.ofBool c).setWidth 8 <<< 7) = (shr8 d c).r := by rw [setWidth_ofBool, shr8_r]
  exact Result.eq_of_parts hr rfl rfl

theorem alu_asr (d e : Byte) (c : Bool) : alu 0b1111 d e c = asr8 d :=
  Result.eq_of_parts (asr8_r d).symm rfl rfl

/-- Whatever the order, each operation has one of the three logic rows (log 9). -/
theorem exists_logicRow (order : Config.LogicRowOrder) (op : LogicOp) :
    logicRow order 0 = op ∨ logicRow order 1 = op ∨ logicRow order 2 = op := by
  cases order <;> cases op <;> decide

theorem exists_alu_logic (op : LogicOp) :
    ∃ row ∈ [0b0110#4, 0b0111#4, 0b1000#4], ∀ (d e : Byte) (c : Bool),
      alu row d e c = ⟨op.apply d e, false, false⟩ := by
  rcases exists_logicRow Config.logicRowOrder op with rfl | rfl | rfl
  · exact ⟨0b0110, by simp, fun _ _ _ => rfl⟩
  · exact ⟨0b0111, by simp, fun _ _ _ => rfl⟩
  · exact ⟨0b1000, by simp, fun _ _ _ => rfl⟩

/-! ## The selectors of CC (R258, R259) -/

/-- Row 0000 gives the zero byte, so the selectors of CLR set Z from the ALU (R174). -/
theorem select_alu_zero (f : CC) (d e bus : Byte) (c : Bool) :
    CC.select ⟨0b11, 0b00, 0b00, 0b00, 0b00⟩ (alu 0b0000 d e c) bus f = f.cleared := by
  have hn : (0 : Byte).getLsbD 7 = false := BitVec.getLsbD_zero
  have hz : decide ((0 : Byte) = 0) = true := decide_eq_true rfl
  change { f with n := (0 : Byte).getLsbD 7, z := decide ((0 : Byte) = 0), v := false, c := false : CC } = f.cleared
  rw [hn, hz]
  rfl

/-- LSRA and LSR shift in 0, so a cleared N is the N of the result (R214). -/
theorem select_shr8_zero (f : CC) (bus : Byte) :
    CC.select ⟨0b00, 0b10, 0b00, 0b00, 0b00⟩ (shr8 bus false) bus f = f.withNZVC (shr8 bus false) := by
  have hn : (shr8 bus false).r.getLsbD 7 = false := shr8_getLsbD_seven bus false
  rw [CC.withNZVC, CC.withNZ, hn]
  rfl

/-- Settles O58: the rows by the flag functions' own forms, then each setting of the selectors flag by flag. -/
theorem aluAndSelectorsGiveTheFlags : Obligations.AluAndSelectorsGiveTheFlags := by
  unfold Obligations.AluAndSelectorsGiveTheFlags
  refine ⟨⟨fun d e c => ?_, exists_alu_logic⟩, fun f o bus => ?_⟩
  · obtain ⟨hincr, hincv⟩ := alu_inc d e
    obtain ⟨hdecr, hdecv⟩ := alu_dec d e c
    have hnot : ~~~d + 0 = ~~~d := BitVec.add_zero _
    exact ⟨rfl, rfl, hnot, alu_neg d e, hincr, hincv, hdecr, hdecv, aluAdd_eq_add8 d e c, alu_sub d e c, alu_shl d e c,
      alu_shr d e c, alu_asr d e c⟩
  · exact ⟨rfl, select_alu_zero f bus bus bus f.c, rfl, rfl, select_shr8_zero f bus, rfl, rfl, rfl, rfl, rfl, rfl, rfl,
      rfl⟩

/-! ## The control signals (R257, R260, R261) -/

/-- Bits 7..5 of a byte are lost in CC (10_state.md R23). -/
theorem CC.toByte_ofByte (b : Byte) : (CC.ofByte b).toByte = b &&& 0x1F := by
  have hmask : (b &&& 0x1F).toNat = b.toNat % 32 := Nat.and_two_pow_sub_one_eq_mod b.toNat 5
  have hbit (k : Nat) : (b.getLsbD k).toNat = b.toNat / 2 ^ k % 2 := Nat.toNat_testBit b.toNat k
  apply BitVec.eq_of_toNat_eq
  rw [CC.toNat_toByte, hmask]
  simp only [CC.ofByte, hbit]
  omega

/-- g11 to g2 in pairs are the five selectors of CC. -/
theorem ControlWord.ccSelect_of_load {w : ControlWord} (h : w.g.extractLsb' 2 10 = 0b0101010101) :
    w.ccSelect = ⟨0b01, 0b01, 0b01, 0b01, 0b01⟩ := by
  have hpair (k : Nat) (hk : k + 2 ≤ 10) :
      w.g.extractLsb' (2 + k) 2 = (0b0101010101 : BitVec 10).extractLsb' k 2 := by
    rw [← h]
    apply BitVec.eq_of_getLsbD_eq
    intro i hi
    have hki : k + i < 10 := by omega
    simp [hki, Nat.add_assoc]
  rw [ControlWord.ccSelect, hpair 8 (by decide), hpair 6 (by decide), hpair 4 (by decide), hpair 2 (by decide),
    hpair 0 (by decide)]
  rfl

/-- LDCC with every selector at the bus loads CC from bits 4..0 of it (R258, R259). -/
theorem DataPath.clock_ldCC_of_load (d : DataPath) {w : ControlWord} (v : Byte) (out : Result)
    (h : w.g.extractLsb' 2 10 = 0b0101010101) : (d.clock w v out .ldCC).machine.cc = CC.ofByte v := by
  have hcc : (d.clock w v out .ldCC).machine.cc = CC.select w.ccSelect out v d.machine.cc := rfl
  rw [hcc, ControlWord.ccSelect_of_load h]
  rfl

theorem ControlWord.carryCode_getLsbD (w : ControlWord) {k : Nat} (hk : k < 2) :
    w.carryCode.getLsbD k = w.g.getLsbD k := by
  simp [ControlWord.carryCode, hk]

section
variable {d : DataPath} {w : ControlWord} (v : Byte) (out : Result)

/-- MR puts on the bus the byte read at the address that g14 g13 g12 select. -/
theorem DataPath.drives_mr {addr : Byte} (h : d.address w = addr) : d.drives w .mr = some (d.machine.look addr) :=
  congrArg (fun b => some (d.machine.look b)) h

/-- With T cleared the address at code 001 is SP itself. -/
theorem DataPath.address_clrT (h : w.addressCode = 0b001) : (d.clock w v out .clrT).address w = d.machine.sp :=
  (DataPath.address_sp h).trans (BitVec.zero_add _)

/-! With an offset in T the address is that of the indexed form with this offset (30_encoding.md R74 to R76). -/

theorem DataPath.address_ldT_sp (h : w.addressCode = 0b001) :
    (d.clock w v out .ldT).address w = formAddress (.ns v) d.machine :=
  (DataPath.address_sp h).trans (BitVec.add_comm _ _)

theorem DataPath.address_ldT_y (h : w.addressCode = 0b010) :
    (d.clock w v out .ldT).address w = formAddress (.ny v) d.machine :=
  (DataPath.address_y h).trans (BitVec.add_comm _ _)

theorem DataPath.address_ldT_x (h : w.addressCode = 0b011) :
    (d.clock w v out .ldT).address w = formAddress (.nx v) d.machine :=
  (DataPath.address_x h).trans (BitVec.add_comm _ _)

/-- MR at PC and INCPC: the fetch of one byte (R62). -/
theorem DataPath.clock_fetch (h : w.addressCode = 0b000) :
    ((d.clock w v out .mr).clock w v out .incPC).machine = (d.machine.touch d.machine.pc).advance 1 :=
  congrArg (fun b => (d.machine.touch b).advance 1) (DataPath.address_pc h)

/-- DECSP, CLRT and MW at SP: a push (10_state.md R36). -/
theorem DataPath.clock_push (h : w.addressCode = 0b001) :
    (((d.clock w v out .decSP).clock w v out .clrT).clock w v out .mw).machine = d.machine.push v :=
  congrArg (fun b => State.store { d.machine with sp := d.machine.sp - 1 } b v) (DataPath.address_clrT v out h)

/-- CLRT, MR at SP and INCSP: a pull (R36). -/
theorem DataPath.clock_pull (h : w.addressCode = 0b001) :
    (((d.clock w v out .clrT).clock w v out .mr).clock w v out .incSP).machine = d.machine.pull.state :=
  congrArg (fun b => { d.machine.touch b with sp := (d.machine.touch b).sp + 1 }) (DataPath.address_clrT v out h)

end

/-- Settles O60: what each signal does, at the address that each code of g14 g13 g12 selects. -/
theorem controlSignalsGiveTheOperations : Obligations.ControlSignalsGiveTheOperations := by
  unfold Obligations.ControlSignalsGiveTheOperations
  intro d w v out
  refine ⟨?_, fun hload => ?_, fun hpc => ⟨?_, ?_⟩, fun hsp => ⟨?_, ?_, ?_, ?_⟩, fun hy => ?_, fun hx => ?_,
    fun hta => ?_, fun a b => ?_⟩
  · simp only [List.forall_mem_cons]
    exact ⟨rfl, rfl, rfl, rfl, rfl, rfl, by simp⟩
  · have hcc := DataPath.clock_ldCC_of_load d v out hload
    exact congrArg some ((congrArg CC.toByte hcc).trans (CC.toByte_ofByte v))
  · exact DataPath.drives_mr (DataPath.address_pc hpc)
  · exact DataPath.clock_fetch v out hpc
  · exact DataPath.clock_push v out hsp
  · exact DataPath.drives_mr (DataPath.address_clrT v out hsp)
  · exact DataPath.clock_pull v out hsp
  · exact DataPath.drives_mr (DataPath.address_ldT_sp v out hsp)
  · exact DataPath.drives_mr (DataPath.address_ldT_y v out hy)
  · exact DataPath.drives_mr (DataPath.address_ldT_x v out hx)
  · exact DataPath.drives_mr (DataPath.address_ta hta)
  · rw [DataPath.aluOut, carrySelect_eq, w.carryCode_getLsbD (by decide), w.carryCode_getLsbD (by decide)]

end Sys2Proof.Machine
end
